-- ==== Sys2Proof/Word.lean ====
section
/-! DEFINITION. The word types of the HCE: the widths spec/10_state.md gives the machine's values, and nothing else. -/

namespace Sys2Proof

/-- A 32-bit register, a HIST entry, a bus data word, a command word (R23, R30, R61, R90). -/
abbrev Word := BitVec 32

/-- A symbol, a byte of a buffer (R7, R67). -/
abbrev Byte := BitVec 8

/-- A byte offset on the host port: 18 bits, so exactly 0x00000 to 0x3FFFF (R60). -/
abbrev Offset := BitVec 18

/-- An index into the node arena: 9 bits, so exactly 0 to 511 (R33). -/
abbrev NodeIdx := BitVec 9

/-- The frequency of a node: 40 bits (R33, R36). -/
abbrev Freq := BitVec 40

/-- The value of a code: 256 bits, right-aligned (R38). -/
abbrev CodeVal := BitVec 256

end Sys2Proof
end

