-- ==== Sys2Proof/Syntax.lean ====
section
/-! DEFINITION. The commands of the HCE: one constructor per row of spec/opcode_table.json. -/

namespace Sys2Proof

/-- A command (R90, R91). A command has no operand fields: it takes its operands from fixed registers and structures (R92).
The last row of the opcode table is every other word, kept with both fields so that no bit of the word is lost. -/
inductive Instr where
  /-- 0x00000000: no operation (R204). -/
  | nop
  /-- 0x00000001: the frequency counter (R110). -/
  | count
  /-- 0x00000002: the tree builder (R121). -/
  | build
  /-- 0x00000003: the code-table generator (R140). -/
  | generate
  /-- 0x00000004: the bitstream encoder (R150). -/
  | encode
  /-- 0x00000005: the bitstream decoder (R170). -/
  | decode
  /-- 0x00000006: the statistics unit (R190). -/
  | stats
  /-- 0x00000007: reset of the derived structures (R205). -/
  | clear
  /-- Any other word: OPC in 0x08..0xFF, or RSVD not 0 (R93, R206). -/
  | illegal (opc : BitVec 8) (rsvd : BitVec 24)
deriving DecidableEq, Repr

end Sys2Proof
end

