-- ==== Sys2Proof/WellFormed.lean ====
section
/-! DEFINITION. Which terms of `Instr` stand for a command word. -/

namespace Sys2Proof

/-- The fields of an illegal word do not spell one of the eight commands: OPC > 0x07 or RSVD != 0 (R93). -/
def illegalFields (opc : BitVec 8) (rsvd : BitVec 24) : Bool :=
  decide (7 < opc.toNat) || decide (rsvd ≠ 0)

/-- Well-formedness: every named command is; an illegal word is when its fields are illegal. -/
def Instr.wf : Instr → Bool
  | .nop => true
  | .count => true
  | .build => true
  | .generate => true
  | .encode => true
  | .decode => true
  | .stats => true
  | .clear => true
  | .illegal opc rsvd => illegalFields opc rsvd

end Sys2Proof
end

