-- ==== Sys2Proof/Decode.lean ====
section
/-! DEFINITION. The command decoder, total on every word and on any bytes (R90 to R94), the encoder after it, and the
byte-lane helpers both use (R62). -/

namespace Sys2Proof

/-! ### Byte lanes (little-endian, R62) -/

/-- Byte lane `j` of a word: bits [8j+7:8j]. -/
def laneOf (w : Word) (j : Nat) : Byte := w.extractLsb' (8 * j) 8

/-- The word whose byte at the lowest address is `b0` (R62). -/
def wordOfLanes (b0 b1 b2 b3 : Byte) : Word := b3 ++ b2 ++ b1 ++ b0

/-! ### Decoding a command word -/

/-- OPC, bits [7:0] of a command word (R90). -/
def opcField (w : Word) : BitVec 8 := w.extractLsb' 0 8

/-- RSVD, bits [31:8] of a command word (R90). -/
def rsvdField (w : Word) : BitVec 24 := w.extractLsb' 8 24

/-- The command a word stands for (R93). Total: a word that is none of the eight commands is the illegal command with the
word's own fields. -/
def decode (w : Word) : Instr :=
  if rsvdField w ≠ 0 then .illegal (opcField w) (rsvdField w)
  else match (opcField w).toNat with
    | 0 => .nop
    | 1 => .count
    | 2 => .build
    | 3 => .generate
    | 4 => .encode
    | 5 => .decode
    | 6 => .stats
    | 7 => .clear
    | _ => .illegal (opcField w) (rsvdField w)

/-- Why bytes are rejected. -/
inductive DecodeError where
  /-- Fewer than the four bytes of the one command word (R90). -/
  | truncated
deriving DecidableEq, Repr

/-- The command at the front of a list of bytes, with the bytes after it. A command is always one word (R90), stored
little-endian (R62). -/
def decodeBytes : List Byte → Except DecodeError (Instr × List Byte)
  | b0 :: b1 :: b2 :: b3 :: rest => .ok (decode (wordOfLanes b0 b1 b2 b3), rest)
  | _ => .error .truncated

/-! ### Encoding -/

/-- The OPC field of a command (R91). -/
def opcodeOf : Instr → BitVec 8
  | .nop => 0x00
  | .count => 0x01
  | .build => 0x02
  | .generate => 0x03
  | .encode => 0x04
  | .decode => 0x05
  | .stats => 0x06
  | .clear => 0x07
  | .illegal opc _ => opc

/-- The RSVD field of a command: 0 for the eight commands (R90). -/
def reservedOf : Instr → BitVec 24
  | .nop => 0
  | .count => 0
  | .build => 0
  | .generate => 0
  | .encode => 0
  | .decode => 0
  | .stats => 0
  | .clear => 0
  | .illegal _ rsvd => rsvd

/-- The word of a command: RSVD above OPC (R90). -/
def encode (i : Instr) : Word := reservedOf i ++ opcodeOf i

/-- The four bytes of a word in ascending address order (R62). -/
def wordBytes (w : Word) : List Byte := [laneOf w 0, laneOf w 1, laneOf w 2, laneOf w 3]

/-- The bytes of a command's word in ascending address order. -/
def encodeBytes (i : Instr) : List Byte := wordBytes (encode i)

/-! ### The opcode table's numbering -/

/-- The word whose low `nbits` bits are those of `w` and whose other bits are 0. -/
def tableWord (nbits w : Nat) : Word := BitVec.ofNat 32 (w % 2 ^ nbits)

/-- The command this decoder reads from a row of the opcode table. Every command is one 32-bit word, so nothing longer
decodes. -/
def decodeTableWord (nbits w : Nat) : Option Instr :=
  if nbits ≤ 32 then
    match decodeBytes (wordBytes (tableWord nbits w)) with
    | .ok (i, _) => some i
    | .error _ => none
  else none

end Sys2Proof
end

