-- ==== Sys2Proof/Config.lean ====
section
/-! DEFINITION. What an implementation fixes (the size parameters of R8), the platform parameters the spec leaves OPEN, and
the one free value of the model (what a host read finds in a byte that nothing has written, R70). -/

namespace Sys2Proof

/-- The three size parameters of R8. They are the machine's configuration: `State` carries them so that a statement over every
state is a statement over every configuration, and no step changes them (DESIGN CHOICE,
log entry 1). -/
structure Params where
  /-- MAX_IN, the capacity of IN_MEM in bytes. -/
  maxIn : Nat
  /-- BS_BYTES, the capacity of BS_MEM in bytes. -/
  bsBytes : Nat
  /-- MAX_OUT, the capacity of OUT_MEM in bytes. -/
  maxOut : Nat
deriving DecidableEq, Repr

/-- The reference configuration of R8. -/
def Params.reference : Params := ⟨4096, 4096, 32768⟩

/-- BS_BITS, the capacity of the bitstream in bits (R8). -/
def Params.bsBits (p : Params) : Nat := 8 * p.bsBytes

/-- The constraints that R8 puts on every configuration. -/
abbrev Params.ok (p : Params) : Prop :=
  4 ≤ p.maxIn ∧ p.maxIn ≤ 65536 ∧ p.maxIn % 4 = 0 ∧
  4 ≤ p.bsBytes ∧ p.bsBytes ≤ 8192 ∧ p.bsBytes % 4 = 0 ∧
  8 * p.bsBytes ≤ p.maxOut ∧ p.maxOut ≤ 65536 ∧ p.maxOut % 4 = 0

namespace Config

/-- FREE VALUE. The contents of a buffer byte that nothing has written since reset, as a host read finds them: any value (R70 (b),
93_implementation_defined.md "uninitialised RAM"). One value for each count of resets (`State.ramEra`) and each byte, named by its
port offset, so that reading it again finds it again (R69; DESIGN CHOICE, log entry 3). -/
opaque freeByte : (era offset : Nat) → Byte

/-- HCE_BASE divided by 0x40000: a platform parameter left OPEN (R64). Nothing in the machine reads it (DESIGN CHOICE, log entry
4). -/
opaque hceBaseIndex : Nat

/-- HCE_BASE, a multiple of 0x40000 (R64). -/
def hceBase : Nat := 0x40000 * hceBaseIndex

/-- HCE_IRQ_LINE, a platform parameter left OPEN (R231). Nothing in the machine reads it (DESIGN CHOICE, log entry 4). -/
opaque hceIrqLine : Nat

/-- The system address of an offset of the host port (R64). -/
def systemAddress (a : Offset) : Nat := hceBase + a.toNat

end Config

end Sys2Proof
end

