-- ==== Sys2Proof/Machine/State.lean ====
section
/-! DEFINITION. The state of the HCE as plain data, all of it (spec/10_state.md), the reasons a step stops, and the state
after reset (R251). -/

namespace Sys2Proof.Machine

/-! ### Structures -/

/-- An entry of the node arena (R33, R34), one constructor per kind. The fields R33 fixes for a kind (the NIL children of a
leaf, the absent symbol of an internal node) are not stored again: Machine/Ops.lean computes every field view from the kind
(DEDUCED, log entry 13). -/
inductive Node where
  /-- kind 0. -/
  | empty
  /-- kind 1: a symbol and its count. -/
  | leaf (sym : Byte) (freq : Freq)
  /-- kind 2: the left (bit 0) and right (bit 1) children and the sum of their frequencies. -/
  | internal (left right : NodeIdx) (freq : Freq)
  /-- kind 3: the synthetic root of a one-symbol tree, with its one child on the left. -/
  | synth (left : NodeIdx) (freq : Freq)
deriving DecidableEq, Repr

/-- An entry of the code table (R38): `len` = 0 means that the symbol is absent. -/
structure CodeEntry where
  len : Byte
  val : CodeVal
deriving DecidableEq, Repr

/-- HIST, one count per symbol value (R30). -/
abbrev Hist := Vector Word 256

/-- NODE, the node arena (R33). -/
abbrev Arena := Vector Node 512

/-- CODE, one entry per symbol value (R38). -/
abbrev CodeTable := Vector CodeEntry 256

/-- The contents of a buffer RAM: the bytes written since reset, by byte index, addresses strictly rising. A byte that is not
listed has not been written and has no value (R70; DESIGN CHOICE, log entry 2). -/
abbrev Memory := List Host.Cell

/-- The three buffer RAMs (R41, R42, R43). -/
inductive Buffer where
  | inMem
  | bsMem
  | outMem
deriving DecidableEq, Repr

/-! ### Registers -/

/-- The fields of CTRL (R25). Bits [31:3] are RAZ/WI. -/
structure Ctrl where
  strictEnc : Bool
  strictDec : Bool
  irqEn : Bool
deriving DecidableEq, Repr

/-- The error codes a command can end with (R221). -/
inductive ErrCode where
  /-- 0x00. -/
  | none
  /-- 0x01. -/
  | illegalCmd
  /-- 0x02. -/
  | lenRange
  /-- 0x03. -/
  | unknownSymbol
  /-- 0x04. -/
  | decodeMalformed
  /-- 0x05. -/
  | bsOverflow
deriving DecidableEq, Repr

/-- The fields of STATUS (R26), less BUSY: BUSY is 1 exactly while a command is in flight, so it is read off
`State.inFlight` and has no second home (DEDUCED, log entry 5). -/
structure Status where
  done : Bool
  err : Bool
  overrun : Bool
  errCode : ErrCode
  lastOpc : Byte
deriving DecidableEq, Repr

/-- The fields of ROOT (R28). -/
structure Root where
  idx : NodeIdx
  present : Bool
  synth : Bool
deriving DecidableEq, Repr

/-! ### The world outside: the host agent and the order of turns -/

/-- The response of a host access (R61). -/
inductive Resp where
  | okay
  | slverr
deriving DecidableEq, Repr

/-- What the host port answers an access with (R61). -/
inductive BusReply where
  /-- A read: the response and the read data. -/
  | read (resp : Resp) (data : Word)
  /-- A write: the response. -/
  | write (resp : Resp)
deriving DecidableEq, Repr

/-- One statement of the host's program (R95, R97): one bus access, or the wait loop. `lanes` are the byte lanes the access
enables: a full-word access enables all four (R61). -/
inductive HostOp where
  /-- `MemRead` at an offset: RD. -/
  | read (addr : Offset) (lanes : BitVec 4)
  /-- `MemWrite` at an offset: WR. -/
  | write (addr : Offset) (lanes : BitVec 4) (value : Word)
  /-- A read whose data the program asserts under a mask: EXPECT. -/
  | expect (addr : Offset) (value mask : Word)
  /-- Read STATUS until BUSY is 0: WAIT. -/
  | wait
deriving DecidableEq, Repr

/-- Whose turn the next step is: the host's, the engine's (R20), or an assertion of the reset input (R250). -/
inductive Turn where
  | host
  | engine
  | reset
deriving DecidableEq, Repr

/-- The model's own account of the world outside the block, which no command reads or writes (DESIGN CHOICE, log
entries 6, 7). -/
structure Env where
  /-- The accesses the host has still to make, the next one first. -/
  prog : List HostOp
  /-- The turns still prescribed, the next one first. Where none is, the engine moves while it has a step, else the host. -/
  turns : List Turn
  /-- The answer to the host's last access: `none` before the first. -/
  reply : Option BusReply
  /-- Whether an assertion of the host's program (EXPECT) has failed. -/
  expectFailed : Bool
deriving DecidableEq, Repr

/-! ### Why a step stops -/

/-- The faults. All are safe: the model stops where a real HCE goes on, and no claim about a next state follows. -/
inductive Fault where
  /-- COUNT, ENCODE or DECODE reads a buffer byte that nothing has written since reset (R70 (a)). Safe. -/
  | uninitRead (buf : Buffer) (index : Nat)
  /-- A DECODE walk reaches a NIL or EMPTY child (93_implementation_defined.md, "unreachable arms": stuck). No state that keeps
  the tree invariant of R35 raises it. Safe. -/
  | walkStuck (index : NodeIdx)
  /-- A GENERATE traversal runs along a path of more nodes than the arena has, so round a cycle, where the pseudocode of R140 has
  no end (stuck; DESIGN CHOICE, log entry 11). No state that keeps the tree invariant of R35 raises it. Safe. -/
  | treeCycle
deriving DecidableEq, Repr

/-- The refusals. -/
inductive Refusal where
  /-- An instruction that has no meaning yet: raised by `exec` alone. Safe. No arm raises it. -/
  | notModelled (mnemonic : String)
deriving DecidableEq, Repr

/-! ### The state -/

/-- The state of the HCE. -/
structure State where
  /-- MAX_IN, BS_BYTES, MAX_OUT, which CFG_MAX_IN, CFG_BS_BYTES and CFG_MAX_OUT read (R8, R23). -/
  params : Params
  /-- CTRL (R25). -/
  ctrl : Ctrl
  /-- STATUS, all fields but BUSY (R26). -/
  status : Status
  /-- The latched command in flight (R46, R200): BUSY = 1 exactly when there is one. -/
  inFlight : Option Word
  /-- ERR_POS (R222). -/
  errPos : Word
  /-- ERR_SYM (R222). -/
  errSym : Byte
  /-- IN_LEN (R23). -/
  inLen : Word
  /-- BS_LEN (R23, R42). -/
  bsLen : Word
  /-- OUT_LEN (R23). -/
  outLen : Word
  /-- UNK_CNT (R23). -/
  unkCnt : Word
  /-- TRAIL_BITS (R23). -/
  trailBits : Word
  /-- NSYM (R23). -/
  nsym : BitVec 9
  /-- NODE_CNT (R23). -/
  nodeCnt : BitVec 10
  /-- ROOT (R28). -/
  root : Root
  /-- STAT_ORIG (R23). -/
  statOrig : Word
  /-- STAT_ENC (R23). -/
  statEnc : Word
  /-- STAT_SAVE (R23). -/
  statSave : Word
  /-- STAT_PCT (R23). -/
  statPct : Word
  /-- HIST (R30). -/
  hist : Hist
  /-- NODE (R33). -/
  node : Arena
  /-- CODE (R38). -/
  code : CodeTable
  /-- IN_MEM (R41). -/
  inMem : Memory
  /-- BS_MEM (R42). -/
  bsMem : Memory
  /-- OUT_MEM (R43). -/
  outMem : Memory
  /-- Which unspecified contents the bytes never written have: the model's own count of resets, an argument of `Config.freeByte`
  (DESIGN CHOICE, log entry 3). -/
  ramEra : Nat
  /-- The host agent and the order of turns: the model's own. -/
  env : Env
deriving DecidableEq, Repr

/-! ### Reset -/

/-- The empty FrequencyTable (R30, R251). -/
def Hist.zero : Hist := Vector.replicate 256 0

/-- The empty arena (R33, R251). -/
def Arena.empty : Arena := Vector.replicate 512 .empty

/-- The empty CodeTable (R38, R251). -/
def CodeTable.empty : CodeTable := Vector.replicate 256 ⟨0, 0⟩

/-- No access made, none to come. -/
def Env.idle : Env := ⟨[], [], none, false⟩

/-- The state after reset of a machine of a given configuration (R251): everything 0, the tree absent, nothing in flight, no
buffer byte written. -/
def State.resetOf (p : Params) : State where
  params := p
  ctrl := ⟨false, false, false⟩
  status := ⟨false, false, false, .none, 0⟩
  inFlight := none
  errPos := 0
  errSym := 0
  inLen := 0
  bsLen := 0
  outLen := 0
  unkCnt := 0
  trailBits := 0
  nsym := 0
  nodeCnt := 0
  root := ⟨0, false, false⟩
  statOrig := 0
  statEnc := 0
  statSave := 0
  statPct := 0
  hist := Hist.zero
  node := Arena.empty
  code := CodeTable.empty
  inMem := []
  bsMem := []
  outMem := []
  ramEra := 0
  env := Env.idle

/-- The machine right after reset, in the reference configuration of R8 (DESIGN CHOICE, log entry 1). -/
def State.reset : State := State.resetOf Params.reference

end Sys2Proof.Machine
end

