-- ==== Sys2Proof/Machine/Ops.lean ====
section
/-! DEFINITION. The named operations over the state: reading and writing a buffer RAM, the structures and their field views, the
issue of a command, and the two ways a command ends (without an error and with one: R200, R202, R222). -/

namespace Sys2Proof.Machine

/-- What one step answers. -/
abbrev Result := Host.Outcome State Fault Refusal

/-! ### Buffer RAM (R41 to R43, R70) -/

/-- The byte at an index: `none` where nothing has written it since reset (R70). -/
def Memory.read : Memory → Nat → Option Byte
  | [], _ => none
  | (k, b) :: m, a => if k = a then some b else Memory.read m a

/-- The memory with one byte written, its indices still strictly rising. -/
def Memory.write : Memory → Nat → Byte → Memory
  | [], a, b => [(a, b)]
  | (k, c) :: m, a, b =>
    if a < k then (a, b) :: (k, c) :: m
    else if a = k then (a, b) :: m
    else (k, c) :: Memory.write m a b

/-- The memory with a list of bytes written from an index up. -/
def Memory.writeBytes : Memory → Nat → List Byte → Memory
  | m, _, [] => m
  | m, a, b :: bs => Memory.writeBytes (m.write a b) (a + 1) bs

/-- The canonical form: strictly rising indices. (A listed byte never equals what an unlisted one reads as: that is no value.) -/
def Memory.wf : Memory → Bool
  | [] => true
  | [_] => true
  | (k, _) :: (k', c) :: m => decide (k < k') && Memory.wf ((k', c) :: m)

/-- Every listed index is below a capacity. -/
def Memory.within (m : Memory) (cap : Nat) : Bool := m.all fun cell => decide (cell.1 < cap)

/-- The RAM of a buffer. -/
def State.ram (s : State) : Buffer → Memory
  | .inMem => s.inMem
  | .bsMem => s.bsMem
  | .outMem => s.outMem

/-- The capacity of a buffer in bytes (R8). -/
def State.capacity (s : State) : Buffer → Nat
  | .inMem => s.params.maxIn
  | .bsMem => s.params.bsBytes
  | .outMem => s.params.maxOut

/-! ### Structures and their field views (R30, R33, R38) -/

/-- HIST[c]. -/
def Hist.at (h : Hist) (c : Byte) : Word := h[c.toNat]'c.isLt

/-- HIST[c] <- v. -/
def Hist.put (h : Hist) (c : Byte) (v : Word) : Hist := h.set c.toNat v c.isLt

/-- NODE[i]. -/
def Arena.at (a : Arena) (i : NodeIdx) : Node := a[i.toNat]'i.isLt

/-- NODE[i] <- n. -/
def Arena.put (a : Arena) (i : NodeIdx) (n : Node) : Arena := a.set i.toNat n i.isLt

/-- CODE[c]. -/
def CodeTable.at (t : CodeTable) (c : Byte) : CodeEntry := t[c.toNat]'c.isLt

/-- CODE[c] <- e. -/
def CodeTable.put (t : CodeTable) (c : Byte) (e : CodeEntry) : CodeTable := t.set c.toNat e c.isLt

/-- NIL, the "no child" index (R9). -/
def nil : NodeIdx := 0x1FF

/-- NODE[i].kind (R33). -/
def Node.kind : Node → BitVec 2
  | .empty => 0
  | .leaf _ _ => 1
  | .internal _ _ _ => 2
  | .synth _ _ => 3

/-- NODE[i].sym (R33): 0 but for a leaf. -/
def Node.sym : Node → Byte
  | .empty => 0
  | .leaf c _ => c
  | .internal _ _ _ => 0
  | .synth _ _ => 0

/-- NODE[i].left (R33): NIL for a leaf, 0 for an empty entry. -/
def Node.left : Node → NodeIdx
  | .empty => 0
  | .leaf _ _ => nil
  | .internal l _ _ => l
  | .synth l _ => l

/-- NODE[i].right (R33): NIL for a leaf and a synthetic root, 0 for an empty entry. -/
def Node.right : Node → NodeIdx
  | .empty => 0
  | .leaf _ _ => nil
  | .internal _ r _ => r
  | .synth _ _ => nil

/-- NODE[i].freq (R33): 0 for an empty entry. -/
def Node.freq : Node → Freq
  | .empty => 0
  | .leaf _ f => f
  | .internal _ _ f => f
  | .synth _ f => f

/-- The bits of a code in the order they are emitted: val[len-1] first, val[0] last (R38). -/
def CodeEntry.bits (e : CodeEntry) : List Bool :=
  (List.range e.len.toNat).map fun j => e.val.getLsbD (e.len.toNat - 1 - j)

/-! ### Issue and the end of a command -/

/-- BUSY: 1 from a command's issue to its completion (R26). -/
def State.busy (s : State) : Bool := s.inFlight.isSome

/-- STATUS.OVERRUN <- 1 (R26, R66). -/
def State.setOverrun (s : State) : State :=
  { s with status := { s.status with overrun := true } }

/-- The issue of a command word (R200). -/
def State.issue (s : State) (w : Word) : State :=
  { s with
    inFlight := some w
    status :=
      { s.status with done := false, err := false, errCode := .none, lastOpc := opcField w }
    errPos := 0
    errSym := 0 }

/-- `complete`: the end of a command without an error (R202). The fields of STATUS that report an error stay as the issue left
them. -/
def State.complete (s : State) : State :=
  { s with
    inFlight := none
    status := { s.status with done := true } }

/-- What an error records beside its code: the position and the symbol of the first offending item (R222). -/
structure ErrInfo where
  pos : Word
  sym : Byte
deriving DecidableEq, Repr

/-- ERR_POS and ERR_SYM take what an error records. An error that records nothing leaves them as the issue cleared them
(R222). -/
def State.recordError (s : State) (info : Option ErrInfo) : State :=
  { s with
    errPos := (info.map ErrInfo.pos).getD s.errPos
    errSym := (info.map ErrInfo.sym).getD s.errSym }

/-- `raise Error(code, info)`: the end of a command with an error (R202, R220, R222). This is the one shared operation by which
an error is taken. It redirects nothing and saves no program state, there is no handler and no return from it, and the next
issue clears what it records (R226). What the command assigned before it stays. -/
def State.raise (s : State) (code : ErrCode) (info : Option ErrInfo) : State :=
  let t := (s.recordError info).complete
  { t with status := { t.status with err := true, errCode := code } }

/-- An assertion of the reset input (R250, R251): every piece of state of the block takes its reset value at once, a command in
flight is abandoned, and every buffer byte becomes unwritten, with new unspecified contents. The configuration and the world outside
stay (DESIGN CHOICE, log entry 15). -/
def State.resetEvent (s : State) : State :=
  { State.resetOf s.params with ramEra := s.ramEra + 1, env := s.env }

/-- The state with the remaining turns set. -/
def State.withTurns (s : State) (ts : List Turn) : State :=
  { s with env := { s.env with turns := ts } }

end Sys2Proof.Machine
end

