-- ==== Sys2Proof/Machine/Operands.lean ====
section
/-! DEFINITION. The operands of the commands (R92): every command takes them from fixed registers and structures. The length
checks, the next input symbol, the next stream bit, and the order of bits in BS_MEM (R68). -/

namespace Sys2Proof.Machine

/-- The check of COUNT, ENCODE and STATS: IN_LEN is beyond IN_MEM (R221, LEN_RANGE). -/
def State.inLenOut (s : State) : Bool := decide (s.params.maxIn < s.inLen.toNat)

/-- The check of DECODE and STATS: BS_LEN is beyond BS_MEM (R221, LEN_RANGE). -/
def State.bsLenOut (s : State) : Bool := decide (s.params.bsBits < s.bsLen.toNat)

/-- IN[i] as a command reads it: a fault where nothing has written the byte (R70 (a)). -/
def State.inSymbol (s : State) (i : Nat) : Except Fault Byte :=
  match s.inMem.read i with
  | some c => .ok c
  | none => .error (.uninitRead .inMem i)

/-- Bit k of a stream within its byte: the most significant bit is first (R68). -/
def bitOfByte (b : Byte) (k : Nat) : Bool := b.getLsbD (7 - k % 8)

/-- BSbit(k) as DECODE reads it: a fault where nothing has written its byte (R68, R70 (a)). -/
def State.streamBit (s : State) (k : Nat) : Except Fault Bool :=
  match s.bsMem.read (k / 8) with
  | some b => .ok (bitOfByte b k)
  | none => .error (.uninitRead .bsMem (k / 8))

/-- The byte that holds bits 8j to 8j+7 of a bit string, the first in its most significant bit, zeros past its end (R68,
R153). -/
def packByte (bits : List Bool) (j : Nat) : Byte :=
  BitVec.ofBool (bits.getD (8 * j) false) ++ BitVec.ofBool (bits.getD (8 * j + 1) false) ++
  BitVec.ofBool (bits.getD (8 * j + 2) false) ++ BitVec.ofBool (bits.getD (8 * j + 3) false) ++
  BitVec.ofBool (bits.getD (8 * j + 4) false) ++ BitVec.ofBool (bits.getD (8 * j + 5) false) ++
  BitVec.ofBool (bits.getD (8 * j + 6) false) ++ BitVec.ofBool (bits.getD (8 * j + 7) false)

/-- How many bytes a stream of n bits takes: ceil(n/8) (R153). -/
def packedLen (n : Nat) : Nat := (n + 7) / 8

/-- The bytes of a bit string, the last one padded with zeros (R68, R153). -/
def packBits (bits : List Bool) : List Byte :=
  (List.range (packedLen bits.length)).map (packByte bits)

end Sys2Proof.Machine
end

