-- ==== Sys2Proof/Machine/Build.lean ====
section
/-! DEFINITION. The tree builder: BUILD (R121 to R127). -/

namespace Sys2Proof.Machine

/-- The 256 symbols in ascending order. -/
def allSyms : List Byte := (List.range 256).map (BitVec.ofNat 8)

/-- The symbols a histogram holds, in ascending order (R122). -/
def Hist.present (h : Hist) : List Byte := allSyms.filter fun c => h.at c != 0

/-- The leaves of a list of symbols, placed from index `k` up (R122). -/
def seedLeaves (h : Hist) : List Byte → (k : NodeIdx) → Arena → Arena
  | [], _, a => a
  | c :: cs, k, a => seedLeaves h cs (k + 1) (a.put k (.leaf c ((h.at c).setWidth 40)))

/-- The selection order: (freq, index), lexicographically (R123). -/
def Arena.keyLess (a : Arena) (i j : NodeIdx) : Bool :=
  decide ((a.at i).freq < (a.at j).freq) ||
    (decide ((a.at i).freq = (a.at j).freq) && decide (i < j))

/-- The candidate with the least key (R123): `none` of no candidates. -/
def Arena.least (a : Arena) : List NodeIdx → Option NodeIdx
  | [] => none
  | i :: q =>
    match a.least q with
    | none => some i
    | some j => if a.keyLess j i then some j else some i

/-- The merge loop of R121: `a` the arena, `q` the candidate set, `next` the next free index. It runs while the set has two
candidates, and at most `fuel` times; each turn takes one candidate from the set (R127). -/
def mergeLoop : (fuel : Nat) → (a : Arena) → (q : List NodeIdx) → (next : NodeIdx) → Arena × NodeIdx
  | 0, a, _, next => (a, next)
  | fuel + 1, a, q, next =>
    match a.least q with
    | none => (a, next)
    | some i =>
      match a.least (q.erase i) with
      | none => (a, next)
      | some j =>
        mergeLoop fuel (a.put next (.internal i j ((a.at i).freq + (a.at j).freq)))
          (next :: (q.erase i).erase j) (next + 1)

/-- The outputs of BUILD (R121). -/
structure Tree where
  node : Arena
  root : Root
  nsym : BitVec 9
  nodeCnt : BitVec 10
deriving DecidableEq, Repr

/-- The tree of a histogram (R121): absent for no symbol (R126), the synthetic root over the one leaf for one (R125), greedy
minimum-combination for more (R123, R124). -/
def buildTree (h : Hist) : Tree :=
  let syms := h.present
  let n := syms.length
  let leaves := seedLeaves h syms 0 Arena.empty
  if n = 0 then ⟨leaves, ⟨0, false, false⟩, 0, 0⟩
  else if n = 1 then ⟨leaves.put 1 (.synth 0 (leaves.at 0).freq), ⟨1, true, true⟩, 1, 2⟩
  else
    let (node, next) := mergeLoop n leaves ((List.range n).map (BitVec.ofNat 9)) (BitVec.ofNat 9 n)
    ⟨node, ⟨next - 1, true, false⟩, BitVec.ofNat 9 n, BitVec.ofNat 10 (2 * n - 1)⟩

/-- BUILD (R121). -/
def execBuild (s : State) : Result :=
  let t := buildTree s.hist
  .next { s with node := t.node, root := t.root, nsym := t.nsym, nodeCnt := t.nodeCnt }.complete

end Sys2Proof.Machine
end

