-- ==== Sys2Proof/Machine/Control.lean ====
section
/-! DEFINITION. The control commands: NOP (R204), CLEAR (R205) and every word that is no command (R206). -/

namespace Sys2Proof.Machine

/-- NOP (R204). -/
def execNop (s : State) : Result := .next s.complete

/-- The derived structures and registers at their reset values (R205). -/
def State.clearDerived (s : State) : State :=
  { s with
    hist := Hist.zero
    node := Arena.empty
    root := ⟨0, false, false⟩
    nsym := 0
    nodeCnt := 0
    code := CodeTable.empty
    outLen := 0
    trailBits := 0
    unkCnt := 0
    statOrig := 0
    statEnc := 0
    statSave := 0
    statPct := 0 }

/-- CLEAR (R205). -/
def execClear (s : State) : Result := .next s.clearDerived.complete

/-- A word that is no command ends with ILLEGAL_CMD and has no other effect (R94, R206). Its fields matter only to LAST_OPC,
which the issue wrote. -/
def execIllegal (_opc : BitVec 8) (_rsvd : BitVec 24) (s : State) : Result :=
  .next (s.raise .illegalCmd none)

end Sys2Proof.Machine
end

