-- ==== Sys2Proof/Machine/Count.lean ====
section
/-! DEFINITION. The frequency counter: COUNT (R110). -/

namespace Sys2Proof.Machine

/-- HIST[c] <- HIST[c] + 1. -/
def Hist.bump (h : Hist) (c : Byte) : Hist := h.put c (h.at c + 1)

/-- The counting loop of R110 over the next `n` symbols from index `i`. -/
def countLoop (s : State) : (n i : Nat) → Hist → Except Fault Hist
  | 0, _, h => .ok h
  | n + 1, i, h =>
    match s.inSymbol i with
    | .error f => .error f
    | .ok c => countLoop s n (i + 1) (h.bump c)

/-- COUNT (R110). -/
def execCount (s : State) : Result :=
  if s.inLenOut then .next (s.raise .lenRange none)
  else match countLoop s s.inLen.toNat 0 Hist.zero with
    | .error f => .fault f
    | .ok h => .next { s with hist := h }.complete

end Sys2Proof.Machine
end

