-- ==== Sys2Proof/Machine/Decoder.lean ====
section
/-! DEFINITION. The bitstream decoder: DECODE (R170). -/

namespace Sys2Proof.Machine

/-- What the decoding loop leaves: the symbols emitted, and the stream position where the last code, unterminated or not yet
begun, starts. -/
structure Decoded where
  syms : List Byte
  start : Nat
deriving DecidableEq, Repr

/-- One symbol emitted before the rest of the loop. -/
def Decoded.emit (c : Byte) (r : Decoded) : Decoded := { r with syms := c :: r.syms }

/-- One step of the walk: left on 0, right on 1 (R170). Stuck at a NIL or EMPTY child
(93_implementation_defined.md, "unreachable arms"). -/
def Arena.child (a : Arena) (p : NodeIdx) (b : Bool) : Except Fault NodeIdx :=
  let q := if b then (a.at p).right else (a.at p).left
  if q = nil ∨ a.at q = .empty then .error (.walkStuck q) else .ok q

/-- The decoding loop of R170 over the next `n` bits from position `k`: `root` the root, `p` the walk pointer, `start` where the
current code began. -/
def decodeLoop (s : State) (root : NodeIdx) : (n k : Nat) → (p : NodeIdx) → (start : Nat) → Except Fault Decoded
  | 0, _, _, start => .ok ⟨[], start⟩
  | n + 1, k, p, start =>
    match s.streamBit k with
    | .error f => .error f
    | .ok b =>
      match s.node.child p b with
      | .error f => .error f
      | .ok q =>
        match s.node.at q with
        | .leaf c _ => (decodeLoop s root n (k + 1) root (k + 1)).map (Decoded.emit c)
        | _ => decodeLoop s root n (k + 1) q start

/-- The outputs of DECODE: the symbols from OUT[0] up, their number, and the bits left over (R170). -/
def State.withOutput (s : State) (syms : List Byte) (trail : Nat) : State :=
  { s with
    outMem := s.outMem.writeBytes 0 syms
    outLen := BitVec.ofNat 32 syms.length
    trailBits := BitVec.ofNat 32 trail }

/-- DECODE (R170). The synthetic root and the absent tree come before the walk and read no stream bit (R172, R173; DEDUCED,
log entry 8). -/
def execDecode (s : State) : Result :=
  let len := s.bsLen.toNat
  if s.bsLenOut then .next (s.raise .lenRange none)
  else if !s.root.present then .next (s.withOutput [] len).complete
  else if s.root.synth then
    let c := (s.node.at (s.node.at s.root.idx).left).sym
    .next (s.withOutput (List.replicate len c) 0).complete
  else match decodeLoop s s.root.idx len 0 s.root.idx 0 with
    | .error f => .fault f
    | .ok r =>
      let t := s.withOutput r.syms (len - r.start)
      if decide (r.start < len) && s.ctrl.strictDec then
        .next (t.raise .decodeMalformed (some ⟨BitVec.ofNat 32 r.start, 0⟩))
      else .next t.complete

end Sys2Proof.Machine
end

