-- ==== Sys2Proof/Machine/Encode.lean ====
section
/-! DEFINITION. The bitstream encoder: ENCODE (R150). -/

namespace Sys2Proof.Machine

/-- What the encoding loop leaves: the bits emitted, the symbols skipped, and the error that ended it. -/
structure Encoded where
  bits : List Bool
  unk : Nat
  err : Option (ErrCode × ErrInfo)
deriving DecidableEq, Repr

/-- Bits emitted before those of the rest of the loop. -/
def Encoded.emit (bits : List Bool) (r : Encoded) : Encoded := { r with bits := bits ++ r.bits }

/-- One unknown symbol skipped before the rest of the loop. -/
def Encoded.skip (r : Encoded) : Encoded := { r with unk := r.unk + 1 }

/-- The encoding loop of R150 over the next `n` symbols from index `i`, `pos` bits having been emitted. An error ends the loop
before symbol `i`. -/
def encodeLoop (s : State) : (n i pos : Nat) → Except Fault Encoded
  | 0, _, _ => .ok ⟨[], 0, none⟩
  | n + 1, i, pos =>
    match s.inSymbol i with
    | .error f => .error f
    | .ok c =>
      let bits := (s.code.at c).bits
      if (s.code.at c).len = 0 then
        if s.ctrl.strictEnc then
          .ok ⟨[], 0, some (.unknownSymbol, ⟨BitVec.ofNat 32 i, c⟩)⟩
        else (encodeLoop s n (i + 1) pos).map Encoded.skip
      else if s.params.bsBits < pos + (s.code.at c).len.toNat then
        .ok ⟨[], 0, some (.bsOverflow, ⟨BitVec.ofNat 32 i, c⟩)⟩
      else (encodeLoop s n (i + 1) (pos + (s.code.at c).len.toNat)).map (Encoded.emit bits)

/-- The outputs of ENCODE: the stream with its last byte padded, its length, and the symbols skipped (R150, R153). -/
def State.withStream (s : State) (r : Encoded) : State :=
  { s with
    bsMem := s.bsMem.writeBytes 0 (packBits r.bits)
    bsLen := BitVec.ofNat 32 r.bits.length
    unkCnt := BitVec.ofNat 32 r.unk }

/-- ENCODE (R150). -/
def execEncode (s : State) : Result :=
  if s.inLenOut then .next (s.raise .lenRange none)
  else match encodeLoop s s.inLen.toNat 0 0 with
    | .error f => .fault f
    | .ok r =>
      match r.err with
      | none => .next (s.withStream r).complete
      | some (code, info) => .next ((s.withStream r).raise code (some info))

end Sys2Proof.Machine
end

