-- ==== Sys2Proof/Machine/Generate.lean ====
section
/-! DEFINITION. The code-table generator: GENERATE (R140). -/

namespace Sys2Proof.Machine

/-- The assignments `CODE[sym] <- entry` that `visit(i, l, v)` of R140 makes, in its order. `fuel` bounds the nodes on a path:
`none` where a path is longer, so that the pseudocode has no end (DESIGN CHOICE, log
entry 11). A length or a value too wide for its field keeps its low bits, which no tree of R35 reaches (log entry 12). -/
def visit (a : Arena) : (fuel : Nat) → (i : NodeIdx) → (l v : Nat) → Option (List (Byte × CodeEntry))
  | 0, _, _, _ => none
  | fuel + 1, i, l, v =>
    match a.at i with
    | .empty => some []
    | .leaf c _ =>
      some [(c, if l = 0 then ⟨1, 0⟩ else ⟨BitVec.ofNat 8 l, BitVec.ofNat 256 v⟩)]
    | .internal left right _ =>
      match visit a fuel left (l + 1) (2 * v) with
      | none => none
      | some xs =>
        match visit a fuel right (l + 1) (2 * v + 1) with
        | none => none
        | some ys => some (xs ++ ys)
    | .synth left _ => visit a fuel left (l + 1) (2 * v)

/-- How many nodes a path of an arena without a cycle can have at most. -/
def arenaSize : Nat := 512

/-- A code table with a list of assignments made in order. -/
def CodeTable.assign : CodeTable → List (Byte × CodeEntry) → CodeTable
  | t, [] => t
  | t, (c, e) :: xs => CodeTable.assign (t.put c e) xs

/-- The code table of a tree (R140): empty for the absent tree. -/
def codesOf (a : Arena) (r : Root) : Option CodeTable :=
  if r.present then (visit a arenaSize r.idx 0 0).map CodeTable.empty.assign
  else some CodeTable.empty

/-- GENERATE (R140). -/
def execGenerate (s : State) : Result :=
  match codesOf s.node s.root with
  | none => .fault .treeCycle
  | some t => .next { s with code := t }.complete

end Sys2Proof.Machine
end

