-- ==== Sys2Proof/Machine/Stats.lean ====
section
/-! DEFINITION. The statistics unit: STATS (R190). -/

namespace Sys2Proof.Machine

/-- n/d rounded to the nearest integer, halves away from zero, for d > 0 (R190). -/
def roundHalfAway (n : Int) (d : Nat) : Int :=
  let q := n.natAbs / d
  let r := n.natAbs % d
  let q' := if d ≤ 2 * r then q + 1 else q
  if 0 ≤ n then (q' : Int) else -(q' : Int)

/-- The savings in hundredths of a percent: 0 where the original length is 0 (R190, R192). -/
def percent (save : Int) (orig : Nat) : Int :=
  if orig = 0 then 0 else roundHalfAway (save * 10000) orig

/-- STATS (R190). -/
def execStats (s : State) : Result :=
  if s.inLenOut || s.bsLenOut then .next (s.raise .lenRange none)
  else
    let orig := 8 * s.inLen.toNat
    let save : Int := (orig : Int) - (s.bsLen.toNat : Int)
    .next
      { s with
        statOrig := BitVec.ofNat 32 orig
        statEnc := s.bsLen
        statSave := BitVec.ofInt 32 save
        statPct := BitVec.ofInt 32 (percent save orig) }.complete

end Sys2Proof.Machine
end

