-- ==== Sys2Proof/Machine/Dispatch.lean ====
section
/-! DEFINITION. The meaning of every command: one arm per constructor of `Instr`. -/

namespace Sys2Proof.Machine

/-- The engine's performance of a command, with its completion (R202). -/
def exec (i : Instr) (s : State) : Host.Outcome State Fault Refusal :=
  match i with
  | .nop => Sys2Proof.Machine.execNop s
  | .count => Sys2Proof.Machine.execCount s
  | .build => Sys2Proof.Machine.execBuild s
  | .generate => Sys2Proof.Machine.execGenerate s
  | .encode => Sys2Proof.Machine.execEncode s
  | .decode => Sys2Proof.Machine.execDecode s
  | .stats => Sys2Proof.Machine.execStats s
  | .clear => Sys2Proof.Machine.execClear s
  | .illegal opc rsvd => Sys2Proof.Machine.execIllegal opc rsvd s

end Sys2Proof.Machine
end

