-- ==== Sys2Proof/Machine/Flags.lean ====
section
/-! DEFINITION. The words in which software sees the control, status and root registers, the write-one-to-clear rule of STATUS,
and the interrupt output (R23, R25, R26, R28, R230). -/

namespace Sys2Proof.Machine

/-- ERRCODE, 8 bits (R221). -/
def ErrCode.byte : ErrCode → Byte
  | .none => 0x00
  | .illegalCmd => 0x01
  | .lenRange => 0x02
  | .unknownSymbol => 0x03
  | .decodeMalformed => 0x04
  | .bsOverflow => 0x05

/-- STATUS as a word: [0] BUSY, [1] DONE, [2] ERR, [3] OVERRUN, [15:8] ERRCODE, [23:16] LAST_OPC, the rest 0 (R23). -/
def State.statusWord (s : State) : Word :=
  0#8 ++ s.status.lastOpc ++ s.status.errCode.byte ++ 0#4 ++ BitVec.ofBool s.status.overrun ++
    BitVec.ofBool s.status.err ++ BitVec.ofBool s.status.done ++ BitVec.ofBool s.busy

/-- A host write of STATUS: a 1 clears DONE (bit 1) and OVERRUN (bit 3), and every other bit is ignored (R24, R26). -/
def State.clearFlags (s : State) (v : Word) : State :=
  { s with
    status :=
      { s.status with
        done := s.status.done && !v.getLsbD 1
        overrun := s.status.overrun && !v.getLsbD 3 } }

/-- CTRL as a word (R23, R25). -/
def Ctrl.word (c : Ctrl) : Word :=
  0#29 ++ BitVec.ofBool c.irqEn ++ BitVec.ofBool c.strictDec ++ BitVec.ofBool c.strictEnc

/-- What a host write leaves in CTRL: bits [31:3] are ignored (R24, R25). -/
def Ctrl.ofWord (v : Word) : Ctrl := ⟨v.getLsbD 0, v.getLsbD 1, v.getLsbD 2⟩

/-- ROOT as a word: [8:0] IDX, [16] PRESENT, [17] SYNTH, the rest 0 (R23, R28). -/
def Root.word (r : Root) : Word :=
  0#14 ++ BitVec.ofBool r.synth ++ BitVec.ofBool r.present ++ 0#7 ++ r.idx

/-- The interrupt output: DONE and IRQ_EN (R230). -/
def State.irq (s : State) : Bool := s.status.done && s.ctrl.irqEn

end Sys2Proof.Machine
end

