-- ==== Sys2Proof/Machine/HostPort.lean ====
section
/-! DEFINITION. The host port: the address map (R63), the register block (R23, R24), the word layout of the structure windows (R65),
accesses while BUSY (R66), host reads of buffer bytes never written (R70 (b)), and the host agent's turn (R20, R95, R97). -/

namespace Sys2Proof.Machine

/-! ### The register block -/

/-- The registers in the order of their offsets (R23). -/
inductive Reg where
  | id | cfgMaxIn | cfgBsBytes | cfgMaxOut | ctrl | cmd | status | errPos | errSym | inLen | bsLen | outLen | unkCnt
  | trailBits | nsym | nodeCnt | root | statOrig | statEnc | statSave | statPct
deriving DecidableEq, Repr

/-- The registers by word of the register block: word k is at offset 4k (R23). -/
def Reg.map : List Reg :=
  [.id, .cfgMaxIn, .cfgBsBytes, .cfgMaxOut, .ctrl, .cmd, .status, .errPos, .errSym, .inLen, .bsLen, .outLen, .unkCnt,
   .trailBits, .nsym, .nodeCnt, .root, .statOrig, .statEnc, .statSave, .statPct]

/-- The register at a word of the register block: `none` for a reserved offset (R23, R24). -/
def Reg.ofIndex (k : Nat) : Option Reg := Reg.map[k]?

/-- The offset of a register (R23). -/
def Reg.offset (r : Reg) : Offset := BitVec.ofNat 18 (4 * Reg.map.idxOf r)

/-- What a read of a register returns (R23, R24). -/
def State.readReg (s : State) : Reg → Word
  | .id => 0x48434531
  | .cfgMaxIn => BitVec.ofNat 32 s.params.maxIn
  | .cfgBsBytes => BitVec.ofNat 32 s.params.bsBytes
  | .cfgMaxOut => BitVec.ofNat 32 s.params.maxOut
  | .ctrl => s.ctrl.word
  | .cmd => 0
  | .status => s.statusWord
  | .errPos => s.errPos
  | .errSym => s.errSym.setWidth 32
  | .inLen => s.inLen
  | .bsLen => s.bsLen
  | .outLen => s.outLen
  | .unkCnt => s.unkCnt
  | .trailBits => s.trailBits
  | .nsym => s.nsym.setWidth 32
  | .nodeCnt => s.nodeCnt.setWidth 32
  | .root => s.root.word
  | .statOrig => s.statOrig
  | .statEnc => s.statEnc
  | .statSave => s.statSave
  | .statPct => s.statPct

/-- What a host write of a register does while BUSY = 0 (R24, R27, R200): a read-only register ignores it. -/
def State.writeReg (s : State) (v : Word) : Reg → State
  | .ctrl => { s with ctrl := Ctrl.ofWord v }
  | .cmd => s.issue v
  | .status => s.clearFlags v
  | .inLen => { s with inLen := v }
  | .bsLen => { s with bsLen := v }
  | .id => s
  | .cfgMaxIn => s
  | .cfgBsBytes => s
  | .cfgMaxOut => s
  | .errPos => s
  | .errSym => s
  | .outLen => s
  | .unkCnt => s
  | .trailBits => s
  | .nsym => s
  | .nodeCnt => s
  | .root => s
  | .statOrig => s
  | .statEnc => s
  | .statSave => s
  | .statPct => s

/-- A read of the register block: a reserved offset reads 0 (R24). -/
def State.readBlock (s : State) (k : Nat) : Word :=
  match Reg.ofIndex k with
  | some r => s.readReg r
  | none => 0

/-- A write of the register block. While BUSY = 1 only a write of STATUS has its effect, and any other is ignored and sets
OVERRUN (R66 (b), (c)). -/
def State.writeBlock (s : State) (k : Nat) (v : Word) : State :=
  match Reg.ofIndex k with
  | some .status => s.clearFlags v
  | some r => if s.busy then s.setOverrun else s.writeReg v r
  | none => if s.busy then s.setOverrun else s

/-! ### The address map -/

/-- The region of an offset (R63). A window's part is given by its entry and its word or byte. -/
inductive Region where
  /-- The register block, by word. -/
  | regs (k : Nat)
  /-- HIST, by symbol. -/
  | hist (c : Byte)
  /-- NODE, by index and word. -/
  | node (i : NodeIdx) (k : Nat)
  /-- CODE, by symbol and word. -/
  | code (c : Byte) (k : Nat)
  /-- A buffer, by byte. -/
  | buffer (buf : Buffer) (j : Nat)
  /-- No region. -/
  | unmapped
deriving DecidableEq, Repr

/-- The address map (R63). -/
def regionOf (a : Offset) : Region :=
  let n := a.toNat
  if n < 0x400 then .regs (n / 4)
  else if n < 0x800 then .hist (BitVec.ofNat 8 ((n - 0x400) / 4))
  else if n < 0x2000 then .unmapped
  else if n < 0x4000 then .node (BitVec.ofNat 9 ((n - 0x2000) / 16)) (n / 4 % 4)
  else if n < 0x8000 then .code (BitVec.ofNat 8 ((n - 0x4000) / 64)) (n / 4 % 16)
  else if n < 0x10000 then .unmapped
  else if n < 0x20000 then .buffer .inMem (n - 0x10000)
  else if n < 0x30000 then .buffer .bsMem (n - 0x20000)
  else .buffer .outMem (n - 0x30000)

/-- Word k of NODE[i] (R65). -/
def Node.word (n : Node) : Nat → Word
  | 0 => 0#16 ++ n.sym ++ 0#6 ++ n.kind
  | 1 => 0#7 ++ n.right ++ 0#7 ++ n.left
  | 2 => n.freq.extractLsb' 0 32
  | 3 => 0#24 ++ n.freq.extractLsb' 32 8
  | _ => 0

/-- Word k of CODE[s] (R65). -/
def CodeEntry.word (e : CodeEntry) (k : Nat) : Word :=
  if k = 0 then 0#24 ++ e.len
  else if k ≤ 8 then e.val.extractLsb' (32 * (k - 1)) 32
  else 0

/-! ### Accesses -/

/-- Whether an access has the one width the port takes: aligned, all four byte lanes enabled (R61; DEDUCED for a
read, log entry 9). -/
def properAccess (a : Offset) (lanes : BitVec 4) : Bool :=
  decide (a.toNat % 4 = 0) && decide (lanes = 0xF)

/-- The offset of a buffer's window (R63). -/
def Buffer.window : Buffer → Nat
  | .inMem => 0x10000
  | .bsMem => 0x20000
  | .outMem => 0x30000

/-- What a host read finds in a byte lane of a buffer: the byte written there, or where nothing has written it its unspecified
contents, any value that stays until the byte is written or the block is reset (R69, R70 (b); log entry 3). -/
def State.readLane (s : State) (buf : Buffer) (j lane : Nat) : Byte :=
  match (s.ram buf).read (j + lane) with
  | some b => b
  | none => Config.freeByte s.ramEra (buf.window + j + lane)

/-- A host read of a buffer's word (R62, R67). -/
def State.readBuffer (s : State) (buf : Buffer) (j : Nat) : Word :=
  wordOfLanes (s.readLane buf j 0) (s.readLane buf j 1) (s.readLane buf j 2) (s.readLane buf j 3)

/-- A host read of a window while BUSY = 0, by region (R63): `none` for an error response. -/
def State.readWindow (s : State) : Region → Option Word
  | .regs k => some (s.readBlock k)
  | .hist c => some (s.hist.at c)
  | .node i k => some ((s.node.at i).word k)
  | .code c k => some ((s.code.at c).word k)
  | .buffer buf j => if j < s.capacity buf then some (s.readBuffer buf j) else none
  | .unmapped => none

/-- Whether a region is open to a host read: the register block always, a window while BUSY = 0 (R66 (a), (d)). -/
def State.readable (s : State) : Region → Bool
  | .regs _ => true
  | .hist _ => !s.busy
  | .node _ _ => !s.busy
  | .code _ _ => !s.busy
  | .buffer _ _ => !s.busy
  | .unmapped => false

/-- A host read: the response and the read data, which is 0 with an error response (R61). -/
def State.portRead (s : State) (a : Offset) (lanes : BitVec 4) : Resp × Word :=
  if properAccess a lanes && s.readable (regionOf a) then
    match s.readWindow (regionOf a) with
    | some w => (.okay, w)
    | none => (.slverr, 0)
  else (.slverr, 0)

/-- The four bytes of a word written to a buffer (R62). -/
def State.writeBuffer (s : State) (buf : Buffer) (j : Nat) (v : Word) : State :=
  match buf with
  | .inMem => { s with inMem := s.inMem.writeBytes j (wordBytes v) }
  | .bsMem => { s with bsMem := s.bsMem.writeBytes j (wordBytes v) }
  | .outMem => s

/-- A host write by region, aligned and of all four lanes. A window refuses every write while BUSY = 1 and sets OVERRUN
(R66 (d)), an unmapped offset sets none (DEDUCED, log entry 14). A read-only window, an unmapped
offset and a byte past a buffer's capacity answer an error (R63). -/
def State.writeRegion (s : State) (v : Word) : Region → State × Resp
  | .regs k => (s.writeBlock k v, .okay)
  | .unmapped => (s, .slverr)
  | .hist c => if s.busy then (s.setOverrun, .slverr) else ({ s with hist := s.hist.put c v }, .okay)
  | .node _ _ => if s.busy then (s.setOverrun, .slverr) else (s, .slverr)
  | .code _ _ => if s.busy then (s.setOverrun, .slverr) else (s, .slverr)
  | .buffer .outMem _ => if s.busy then (s.setOverrun, .slverr) else (s, .slverr)
  | .buffer .inMem j =>
    if s.busy then (s.setOverrun, .slverr)
    else if j < s.params.maxIn then (s.writeBuffer .inMem j v, .okay) else (s, .slverr)
  | .buffer .bsMem j =>
    if s.busy then (s.setOverrun, .slverr)
    else if j < s.params.bsBytes then (s.writeBuffer .bsMem j v, .okay) else (s, .slverr)

/-- A host write: a misaligned or partial one answers an error and has no effect, BUSY or not (R61; DEDUCED, log entry 9). -/
def State.portWrite (s : State) (a : Offset) (lanes : BitVec 4) (v : Word) : State × Resp :=
  if properAccess a lanes then s.writeRegion v (regionOf a) else (s, .slverr)

/-! ### The host agent -/

/-- The state with an answer noted. -/
def State.withReply (s : State) (r : BusReply) : State :=
  { s with env := { s.env with reply := some r } }

/-- The state with the host's program at its remaining statements. -/
def State.withProg (s : State) (ops : List HostOp) : State :=
  { s with env := { s.env with prog := ops } }

/-- The state with the outcome of an assertion noted: a failed one is remembered (R95). -/
def State.noteExpect (s : State) (holds : Bool) : State :=
  { s with env := { s.env with expectFailed := s.env.expectFailed || !holds } }

/-- A host read as the host makes it: only its answer is noted (R69: no read has a side effect). -/
def State.hostRead (s : State) (a : Offset) (lanes : BitVec 4) : State :=
  s.withReply (.read (s.portRead a lanes).1 (s.portRead a lanes).2)

/-- A host write as the host makes it. -/
def State.hostWrite (s : State) (a : Offset) (lanes : BitVec 4) (v : Word) : State :=
  (s.portWrite a lanes v).1.withReply (.write (s.portWrite a lanes v).2)

/-- One statement of the host's program (R95, R97): one bus access. The wait loop stays at its statement while the STATUS it
reads has BUSY = 1. -/
def State.hostOp (s : State) (op : HostOp) (rest : List HostOp) : State :=
  match op with
  | .read a lanes => (s.hostRead a lanes).withProg rest
  | .write a lanes v => (s.hostWrite a lanes v).withProg rest
  | .expect a v mask =>
    ((s.hostRead a 0xF).noteExpect (decide ((s.portRead a 0xF).2 &&& mask = v &&& mask))).withProg rest
  | .wait =>
    if (s.portRead Reg.status.offset 0xF).2.getLsbD 0 then s.hostRead Reg.status.offset 0xF
    else (s.hostRead Reg.status.offset 0xF).withProg rest

/-- The host's turn (R20): one statement of its program. With nothing left to do it makes no access
(DESIGN CHOICE, log entry 7). -/
def State.hostStep (s : State) : State :=
  match s.env.prog with
  | [] => s
  | op :: rest => s.hostOp op rest

end Sys2Proof.Machine
end

