-- ==== Sys2Proof/Machine/HostProgram.lean ====
section
/-! DEFINITION. The host program notation (R95 to R99): targets, the one-access statements, and the pseudo-operations. -/

namespace Sys2Proof.Machine

/-- A target of a statement (R95). -/
inductive Target where
  | reg (r : Reg)
  | hist (c : Byte)
  | node (i : NodeIdx) (k : Nat)
  | code (c : Byte) (k : Nat)
  | inp (j : Nat)
  | bs (j : Nat)
  | out (j : Nat)
  | raw (a : Offset)
deriving DecidableEq, Repr

/-- off(target) (R95). -/
def Target.offset : Target → Offset
  | .reg r => r.offset
  | .hist c => BitVec.ofNat 18 (0x00400 + 4 * c.toNat)
  | .node i k => BitVec.ofNat 18 (0x02000 + 16 * i.toNat + 4 * k)
  | .code c k => BitVec.ofNat 18 (0x04000 + 64 * c.toNat + 4 * k)
  | .inp j => BitVec.ofNat 18 (0x10000 + j)
  | .bs j => BitVec.ofNat 18 (0x20000 + j)
  | .out j => BitVec.ofNat 18 (0x30000 + j)
  | .raw a => a

/-- WR (R95). -/
def wr (t : Target) (v : Word) : HostOp := .write t.offset 0xF v

/-- RD (R95). -/
def rd (t : Target) : HostOp := .read t.offset 0xF

/-- EXPECT under a mask (R95). -/
def expectMasked (t : Target) (v mask : Word) : HostOp := .expect t.offset v mask

/-- EXPECT of a whole word (R95). -/
def expect (t : Target) (v : Word) : HostOp := expectMasked t v 0xFFFFFFFF

/-- CMD (R96). -/
def cmd (i : Instr) : HostOp := wr (.reg .cmd) (Sys2Proof.encode i)

/-- RUN (R97). -/
def runCmd (i : Instr) : List HostOp := [cmd i, .wait]

/-- Word w of a list of bytes packed four to a word, zeros past its end (R62, R98). -/
def packedWord (bytes : List Byte) (w : Nat) : Word :=
  wordOfLanes (bytes.getD (4 * w) 0) (bytes.getD (4 * w + 1) 0) (bytes.getD (4 * w + 2) 0) (bytes.getD (4 * w + 3) 0)

/-- LOADIN (R98). -/
def loadIn (bytes : List Byte) : List HostOp :=
  (List.range ((bytes.length + 3) / 4)).map (fun w => wr (.inp (4 * w)) (packedWord bytes w)) ++
    [wr (.reg .inLen) (BitVec.ofNat 32 bytes.length)]

/-- LOADBS (R99). -/
def loadBs (bits : List Bool) : List HostOp :=
  (List.range ((packedLen bits.length + 3) / 4)).map (fun w => wr (.bs (4 * w)) (packedWord (packBits bits) w)) ++
    [wr (.reg .bsLen) (BitVec.ofNat 32 bits.length)]

end Sys2Proof.Machine
end

