-- ==== Sys2Proof/Machine/Step.lean ====
section
/-! DEFINITION. One step of the machine: the host's turn, the engine's, or an assertion of the reset input (R20, R250), and how a
command comes to be the next one run. -/

namespace Sys2Proof.Machine

/-- The engine's turn (R20, R202): it decodes and performs the command in flight. Without one it has no step, and the turn
passes. -/
def State.engineStep (s : State) : Host.Outcome State Fault Refusal :=
  match s.inFlight with
  | none => .next s
  | some w => exec (decode w) s

/-- One step. The turns prescribed come first, in their order; after them the engine moves while it has a step, which is the
weak fairness of R203, and the host else (DESIGN CHOICE, log entry 6). -/
def step (s : State) : Host.Outcome State Fault Refusal :=
  match s.env.turns with
  | .host :: ts => .next (s.withTurns ts).hostStep
  | .engine :: ts => (s.withTurns ts).engineStep
  | .reset :: ts => .next (s.withTurns ts).resetEvent
  | [] => if s.busy then s.engineStep else .next s.hostStep

/-- The state in which a word of the opcode table is the command in flight and the next turn is the engine's (DESIGN CHOICE, log entry
10). -/
def State.withFetchWord (s : State) (nbits w : Nat) : State :=
  (s.issue (tableWord nbits w)).withTurns (.engine :: s.env.turns)

end Sys2Proof.Machine
end

