-- ==== Sys2Proof/Safety.lean ====
section
/-! DEFINITION. What counts as a safe run, the invariants of the machine (R35, R38, R26 and the widths of R171, R223), and the words in
which the claims speak of the input, the stream and the paths of the tree. -/

namespace Sys2Proof.Machine

/-! ### Runs -/

/-- `n` steps, stopping at the first fault or refusal. -/
def runFor : Nat → State → Result
  | 0, s => .next s
  | n + 1, s =>
    match step s with
    | .next t => runFor n t
    | .fault f => .fault f
    | .refused r => .refused r

/-- The end of a host program's run: the host has made its last access, and no command is in flight (R264). -/
def State.runEnded (s : State) : Bool := s.env.prog.isEmpty && !s.busy

/-- A run is safe for `n` steps when none of them stops. -/
def SafeFor (n : Nat) (s : State) : Prop := ∃ t, runFor n s = .next t

/-! ### The input and the stream -/

/-- The input sequence a command reads: IN_LEN symbols, every one written. -/
def State.inputIs (s : State) (xs : List Byte) : Prop :=
  s.inLen.toNat = xs.length ∧ ∀ i (h : i < xs.length), s.inMem.read i = some xs[i]

/-- The input sequence begins with some symbols, every one of them written. -/
def State.inputBegins (s : State) (xs : List Byte) : Prop :=
  xs.length ≤ s.inLen.toNat ∧ ∀ i (h : i < xs.length), s.inMem.read i = some xs[i]

/-- The bit of BS_MEM at a stream position, where its byte is written (R68). -/
def State.bit (s : State) (k : Nat) : Option Bool := (s.bsMem.read (k / 8)).map fun b => b.getLsbD (7 - k % 8)

/-- The stream a DECODE reads: BS_LEN bits, every one in a written byte. -/
def State.streamIs (s : State) (bs : List Bool) : Prop :=
  s.bsLen.toNat = bs.length ∧ ∀ k (h : k < bs.length), s.bit k = some bs[k]

/-- The code of a symbol as a list of bits, in emission order: empty where the symbol is absent (R38). -/
def State.codeOf (s : State) (c : Byte) : List Bool := (s.code.at c).bits

/-- The stream of a sequence of symbols: their codes in input order (R151). -/
def State.codesOf (s : State) (xs : List Byte) : List Bool := xs.flatMap s.codeOf

/-- A symbol is absent from the code table (R38). -/
def State.unknown (s : State) (c : Byte) : Bool := decide ((s.code.at c).len = 0)

/-- `t` holds a bit string as its stream where `s` held another: the bits in order, the last byte padded with zeros, the bytes past it
as they were (R68, R153). -/
def storesStream (s t : State) (bits : List Bool) : Prop :=
  (∀ k (h : k < bits.length), t.bit k = some bits[k]) ∧
  (∀ k, bits.length ≤ k → k < 8 * ((bits.length + 7) / 8) → t.bit k = some false) ∧
  ∀ j, (bits.length + 7) / 8 ≤ j → t.bsMem.read j = s.bsMem.read j

/-- `t` holds a list of symbols at the front of OUT_MEM where `s` held others, the bytes past it as they were (R43, R177). -/
def storesOutput (s t : State) (syms : List Byte) : Prop :=
  (∀ j (h : j < syms.length), t.outMem.read j = some syms[j]) ∧
  ∀ j, syms.length ≤ j → t.outMem.read j = s.outMem.read j

/-! ### Paths of the tree -/

/-- The node a bit string leads to from a node, through internal nodes only, 0 to the left and 1 to the right. A synthetic root
has a left step only. -/
def Arena.descend (a : Arena) : NodeIdx → List Bool → Option NodeIdx
  | p, [] => some p
  | p, b :: bs =>
    match a.at p with
    | .internal l r _ => a.descend (if b then r else l) bs
    | .synth l _ => if b then none else a.descend l bs
    | .leaf _ _ => none
    | .empty => none

/-- Whether a node is a leaf. -/
def Node.isLeaf : Node → Bool
  | .leaf _ _ => true
  | .empty => false
  | .internal _ _ _ => false
  | .synth _ _ => false

/-- A bit string is the path from a node to a leaf that carries a symbol. -/
def Arena.leafPath (a : Arena) (p : NodeIdx) (c : Byte) (bs : List Bool) : Prop :=
  ∃ q f, a.descend p bs = some q ∧ a.at q = .leaf c f

/-- A bit string leads from a node to a node that is no leaf: it is the beginning of a code. -/
def Arena.partialPath (a : Arena) (p : NodeIdx) (bs : List Bool) : Prop :=
  ∃ q, a.descend p bs = some q ∧ (a.at q).isLeaf = false

/-! ### The tree invariant (R35) -/

/-- An arena index is a child of a node. -/
def Node.hasChild (n : Node) (i : NodeIdx) : Bool :=
  match n with
  | .internal l r _ => decide (l = i) || decide (r = i)
  | .synth l _ => decide (l = i)
  | .leaf _ _ => false
  | .empty => false

/-- How many nodes of an arena below an index have a node as a child. -/
def Arena.parents (a : Arena) (below : Nat) (i : NodeIdx) : Nat :=
  ((List.range below).filter fun j => (a.at (BitVec.ofNat 9 j)).hasChild i).length

/-- Case (a) of R35: no tree. -/
def State.treeAbsent (s : State) : Prop :=
  s.root = ⟨0, false, false⟩ ∧ s.nodeCnt = 0 ∧ s.nsym = 0 ∧ ∀ i, s.node.at i = .empty

/-- Case (b) of R35: the one-symbol tree. -/
def State.treeSynth (s : State) : Prop :=
  s.root = ⟨1, true, true⟩ ∧ s.nsym = 1 ∧ s.nodeCnt = 2 ∧
  (∃ c f, s.node.at 0 = .leaf c f ∧ s.node.at 1 = .synth 0 f) ∧
  ∀ i : NodeIdx, 2 ≤ i.toNat → s.node.at i = .empty

/-- Case (c) of R35 for N symbols: N leaves in strictly increasing symbol order, then N - 1 internal nodes whose children come
before them, every node but the root the child of exactly one, and the frequency of an internal node that of its children (R33,
R128). -/
def State.treeFull (s : State) (n : Nat) : Prop :=
  2 ≤ n ∧ n ≤ 256 ∧
  s.root = ⟨BitVec.ofNat 9 (2 * n - 2), true, false⟩ ∧ s.nsym = BitVec.ofNat 9 n ∧
  s.nodeCnt = BitVec.ofNat 10 (2 * n - 1) ∧
  (∀ i : NodeIdx, i.toNat < n → (s.node.at i).isLeaf = true) ∧
  (∀ i j : NodeIdx, i < j → j.toNat < n → (s.node.at i).sym < (s.node.at j).sym) ∧
  (∀ i : NodeIdx, n ≤ i.toNat → i.toNat < 2 * n - 1 →
    ∃ l r f, s.node.at i = .internal l r f ∧ l < i ∧ r < i ∧ l ≠ r ∧
      f.toNat = (s.node.at l).freq.toNat + (s.node.at r).freq.toNat) ∧
  (∀ i : NodeIdx, i.toNat < 2 * n - 2 → s.node.parents (2 * n - 1) i = 1) ∧
  (∀ i : NodeIdx, 2 * n - 1 ≤ i.toNat → s.node.at i = .empty)

/-- The tree invariant (R35). -/
def State.treeInv (s : State) : Prop :=
  s.treeAbsent ∨ s.treeSynth ∨ ∃ n, s.treeFull n

/-! ### The other invariants -/

/-- The memory invariant: the configuration is one R8 allows, and the three RAMs are canonical and hold no byte past their
capacity. -/
def State.memInv (s : State) : Prop :=
  s.params.ok ∧
  (s.inMem.wf = true ∧ s.inMem.within s.params.maxIn = true) ∧
  (s.bsMem.wf = true ∧ s.bsMem.within s.params.bsBytes = true) ∧
  (s.outMem.wf = true ∧ s.outMem.within s.params.maxOut = true)

/-- The status invariant: ERR shows exactly a nonzero ERRCODE, ERR_POS and ERR_SYM are 0 without an error, and while a command is in
flight DONE and ERR are 0 and LAST_OPC shows its opcode (R26, R200, R202, R222). -/
def State.statusInv (s : State) : Prop :=
  (s.status.err = true ↔ s.status.errCode ≠ .none) ∧
  (s.status.err = false → s.errPos = 0 ∧ s.errSym = 0) ∧
  (∀ w, s.inFlight = some w →
    s.status.done = false ∧ s.status.err = false ∧ s.status.lastOpc = w.extractLsb' 0 8)

/-- The code-table invariant: a code's value fits its length, so an absent symbol has value 0 (R38). -/
def State.codeInv (s : State) : Prop :=
  ∀ c, (s.code.at c).val.toNat < 2 ^ (s.code.at c).len.toNat

/-- The output invariant: the symbols DECODE counts are written and fit OUT_MEM, and the anomaly counters are within the input and
the stream (R43, R171, R174). -/
def State.outputInv (s : State) : Prop :=
  s.outLen.toNat ≤ s.params.maxOut ∧
  (∀ j, j < s.outLen.toNat → (s.outMem.read j).isSome = true) ∧
  s.unkCnt.toNat ≤ s.params.maxIn ∧ s.trailBits.toNat ≤ s.params.bsBits

/-! ### The operands of a command (R91) -/

/-- Two states agree on everything a command reads (R91, the column "reads", with the configuration). -/
def sameOperands (i : Instr) (s s' : State) : Prop :=
  match i with
  | .nop => True
  | .count => s.params = s'.params ∧ s.inLen = s'.inLen ∧ s.inMem = s'.inMem
  | .build => s.hist = s'.hist
  | .generate => s.root = s'.root ∧ s.node = s'.node
  | .encode =>
    s.params = s'.params ∧ s.inLen = s'.inLen ∧ s.inMem = s'.inMem ∧ s.code = s'.code ∧
      s.ctrl.strictEnc = s'.ctrl.strictEnc
  | .decode =>
    s.params = s'.params ∧ s.bsLen = s'.bsLen ∧ s.bsMem = s'.bsMem ∧ s.root = s'.root ∧ s.node = s'.node ∧
      s.ctrl.strictDec = s'.ctrl.strictDec
  | .stats => s.params = s'.params ∧ s.inLen = s'.inLen ∧ s.bsLen = s'.bsLen
  | .clear => True
  | .illegal _ _ => True

/-- Two states agree on everything a command writes when it ends without LEN_RANGE (R91, the column "writes"): of a buffer, the
bytes the command defines. -/
def sameOutputs (i : Instr) (t t' : State) : Prop :=
  match i with
  | .nop => True
  | .count => t.hist = t'.hist
  | .build => t.node = t'.node ∧ t.root = t'.root ∧ t.nsym = t'.nsym ∧ t.nodeCnt = t'.nodeCnt
  | .generate => t.code = t'.code
  | .encode =>
    t.bsLen = t'.bsLen ∧ t.unkCnt = t'.unkCnt ∧
      ∀ j, j < (t.bsLen.toNat + 7) / 8 → t.bsMem.read j = t'.bsMem.read j
  | .decode =>
    t.outLen = t'.outLen ∧ t.trailBits = t'.trailBits ∧
      ∀ j, j < t.outLen.toNat → t.outMem.read j = t'.outMem.read j
  | .stats =>
    t.statOrig = t'.statOrig ∧ t.statEnc = t'.statEnc ∧ t.statSave = t'.statSave ∧ t.statPct = t'.statPct
  | .clear =>
    t.hist = t'.hist ∧ t.node = t'.node ∧ t.root = t'.root ∧ t.nsym = t'.nsym ∧ t.nodeCnt = t'.nodeCnt ∧
      t.code = t'.code ∧ t.outLen = t'.outLen ∧ t.trailBits = t'.trailBits ∧ t.unkCnt = t'.unkCnt ∧
      t.statOrig = t'.statOrig ∧ t.statEnc = t'.statEnc ∧ t.statSave = t'.statSave ∧ t.statPct = t'.statPct
  | .illegal _ _ => True

end Sys2Proof.Machine
end

