-- ==== Sys2Proof/Certificates/Slice0/Obligations.lean ====
section
/-! DEFINITION. The statements for the provers. Each docstring names the rules of spec/ it formalises, or says which clause is the model's
own choice and names its log entry. -/

open Sys2Proof Sys2Proof.Machine

/-! ### Encoding (R90 to R94) -/

/-- R90, R93: decoding the bytes of any well-formed command, whatever follows them, gives the command and what follows. -/
def Obligations.DecodeReadsBackEncodedBytes : Prop :=
  ∀ (i : Instr) (rest : List Byte), i.wf = true → decodeBytes (encodeBytes i ++ rest) = .ok (i, rest)

/-- R93, R94: every word decodes to a well-formed command, and encoding that command gives the word back: no bit is dropped. -/
def Obligations.EncodeWritesBackEveryWord : Prop :=
  ∀ w : Word, (decode w).wf = true ∧ encode (decode w) = w

/-- R93 (with the opcode map of R91): a word is illegal exactly when RSVD is not 0 or OPC is above 0x07, the legal words are exactly 0 to
7, and each of them is its row's command. -/
def Obligations.LegalWordsAreZeroToSeven : Prop :=
  (∀ w : Word,
    ((∃ opc rsvd, decode w = .illegal opc rsvd) ↔
      w.extractLsb' 8 24 ≠ 0 ∨ 7 < (w.extractLsb' 0 8).toNat) ∧
    ((∃ opc rsvd, decode w = .illegal opc rsvd) ↔ 7 < w.toNat)) ∧
  decode 0 = .nop ∧ decode 1 = .count ∧ decode 2 = .build ∧ decode 3 = .generate ∧
  decode 4 = .encode ∧ decode 5 = .decode ∧ decode 6 = .stats ∧ decode 7 = .clear

/-- R90, R91: words written out from the opcode map, in the opcode table's numbering and as the bytes of a little-endian word. -/
def Obligations.SampleCommandWordsDecode : Prop :=
  decodeTableWord 32 0x00000000 = some .nop ∧ decodeTableWord 32 0x00000001 = some .count ∧
  decodeTableWord 32 0x00000006 = some .stats ∧ decodeBytes [0x04, 0x00, 0x00, 0x00] = .ok (.encode, []) ∧
  decodeBytes [0x05, 0x00, 0x00, 0x00, 0x07] = .ok (.decode, [0x07]) ∧
  decodeTableWord 32 0x00000108 = some (.illegal 0x08 0x000001) ∧
  decodeTableWord 32 0x80000001 = some (.illegal 0x01 0x800000)

/-! ### A step (R20, R202, R203, R250) -/

/-- R20, R202, R250: on the engine's turn a machine with a command in flight performs the command its latched word decodes to, and one
without has no step; on the host's turn the host makes one access; on a reset turn the block is reset. Where no turn is prescribed the
engine moves if it has a step, and the host else. The turns are the model's own (log entry 6). -/
def Obligations.StepPerformsTheAgentsTurn : Prop :=
  ∀ (s : State) (ts : List Turn),
    (s.env.turns = .host :: ts → step s = .next (s.withTurns ts).hostStep) ∧
    (s.env.turns = .reset :: ts → step s = .next (s.withTurns ts).resetEvent) ∧
    (s.env.turns = .engine :: ts →
      (∀ w, s.inFlight = some w → step s = exec (decode w) (s.withTurns ts)) ∧
      (s.inFlight = none → step s = .next (s.withTurns ts))) ∧
    (s.env.turns = [] →
      (∀ w, s.inFlight = some w → step s = exec (decode w) s) ∧
      (s.inFlight = none → step s = .next s.hostStep))

/-- R200, R202: on a machine that is not BUSY, placing a word as the next command run is a full write of CMD (R200) with the engine's
turn put first, and the step after it performs exactly that word's command (R202) on the state its issue leaves. That placement is the
model's own (log entry 10, DESIGN CHOICE), and so is the turn that makes the engine's step the next one (log entry 6, DESIGN CHOICE): the
rules bound no number of host steps before a completion. -/
def Obligations.FetchedWordRunsNext : Prop :=
  ∀ (s : State) (w : Nat), s.busy = false →
    s.withFetchWord 32 w =
      (s.portWrite 0x014 0xF (BitVec.ofNat 32 w)).1.withTurns (.engine :: s.env.turns) ∧
    step (s.withFetchWord 32 w) = exec (decode (BitVec.ofNat 32 w)) (s.issue (BitVec.ofNat 32 w))

/-- R78, R201, R203: whatever accesses the host makes while a command is in flight, however many, the command stays in flight, nothing
changes but DONE, OVERRUN and the record of the world outside, and then the command is performed. R203 gives no order of the agents'
steps: that the engine's step comes directly after the host's turns, where no turn is prescribed any more, is the model's order of turns
(log entry 6, DESIGN CHOICE). -/
def Obligations.HostCannotDisturbCommandInFlight : Prop :=
  ∀ (n : Nat) (s : State) (w : Word), s.inFlight = some w → s.env.turns = List.replicate n .host →
    ∃ (t : State) (done overrun : Bool) (env : Env),
      runFor n s = .next t ∧
      t = { s with status := { s.status with done := done, overrun := overrun }, env := env } ∧
      runFor (n + 1) s = exec (decode w) t

/-! ### Issue, completion and errors (R200 to R206, R220 to R226) -/

/-- R200, R201: a full write of CMD while BUSY = 0 issues the word, and changes no other state; one while BUSY = 1 is ignored and sets
OVERRUN. -/
def Obligations.CmdWriteIssuesOrIsDropped : Prop :=
  ∀ (s : State) (w : Word),
    (s.busy = false →
      s.portWrite 0x014 0xF w =
        ({ s with
            inFlight := some w
            status := ⟨false, false, s.status.overrun, .none, w.extractLsb' 0 8⟩
            errPos := 0
            errSym := 0 }, .okay)) ∧
    (s.busy = true →
      s.portWrite 0x014 0xF w = ({ s with status := { s.status with overrun := true } }, .okay))

/-- R202, R27: every command that completes clears BUSY and sets DONE, keeps OVERRUN and LAST_OPC, and either leaves ERR, ERRCODE, ERR_POS
and ERR_SYM as the issue left them or ends in an error with a nonzero code. -/
def Obligations.CompletionBookkeeping : Prop :=
  ∀ (i : Instr) (s t : State), exec i s = .next t →
    t.inFlight = none ∧ t.status.done = true ∧ t.status.overrun = s.status.overrun ∧
    t.status.lastOpc = s.status.lastOpc ∧
    ((t.status.err = s.status.err ∧ t.status.errCode = s.status.errCode ∧ t.errPos = s.errPos ∧ t.errSym = s.errSym) ∨
      (t.status.err = true ∧ t.status.errCode ≠ .none))

/-- R27, R113, R132, R145, R156, R177, R195, R205: what each command leaves alone. CTRL, IN_LEN, IN_MEM, the configuration and the host
are left by all; every other register and structure is left by all but the commands that write it. In a configuration R8 allows, ENCODE leaves
the bytes of BS_MEM past its stream and DECODE the bytes of OUT_MEM past its symbols, whether they end in an error or not. The unspecified
contents of bytes never written are left by all (log entry 3). -/
def Obligations.CommandsWriteOnlyTheirOutputs : Prop :=
  ∀ (i : Instr) (s t : State), exec i s = .next t →
    (t.params = s.params ∧ t.ctrl = s.ctrl ∧ t.inLen = s.inLen ∧ t.inMem = s.inMem ∧ t.ramEra = s.ramEra ∧
      t.env = s.env) ∧
    (i ≠ .encode → t.bsLen = s.bsLen ∧ t.bsMem = s.bsMem) ∧
    (i ≠ .encode → i ≠ .clear → t.unkCnt = s.unkCnt) ∧
    (i ≠ .decode → t.outMem = s.outMem) ∧
    (i ≠ .decode → i ≠ .clear → t.outLen = s.outLen ∧ t.trailBits = s.trailBits) ∧
    (i ≠ .build → i ≠ .clear →
      t.node = s.node ∧ t.root = s.root ∧ t.nsym = s.nsym ∧ t.nodeCnt = s.nodeCnt) ∧
    (i ≠ .count → i ≠ .clear → t.hist = s.hist) ∧
    (i ≠ .generate → i ≠ .clear → t.code = s.code) ∧
    (i ≠ .stats → i ≠ .clear →
      t.statOrig = s.statOrig ∧ t.statEnc = s.statEnc ∧ t.statSave = s.statSave ∧ t.statPct = s.statPct) ∧
    (s.params.ok →
      (i = .encode → ∀ j, (t.bsLen.toNat + 7) / 8 ≤ j → t.bsMem.read j = s.bsMem.read j) ∧
      (i = .decode → ∀ j, t.outLen.toNat ≤ j → t.outMem.read j = s.outMem.read j))

/-- R221 (with R222): a command that completes from a state without an error has one only if its cause holds, with the recorded position
and symbol of the table; the codes are the table's. After DECODE_MALFORMED ERR_POS and TRAIL_BITS add up to BS_LEN (R223), and on a
tree as R35 says the stream is whole codes, ERR_POS bits long together, and then the beginning of one more code, of at least one bit. -/
def Obligations.ErrorsHaveTheirCauses : Prop :=
  (∀ (i : Instr) (s t : State), s.params.ok → s.status.errCode = .none → s.errPos = 0 → s.errSym = 0 →
    exec i s = .next t →
    match t.status.errCode with
    | .none => t.errPos = 0 ∧ t.errSym = 0
    | .illegalCmd => (∃ opc rsvd, i = .illegal opc rsvd) ∧ t.errPos = 0 ∧ t.errSym = 0
    | .lenRange =>
      (((i = .count ∨ i = .encode ∨ i = .stats) ∧ s.params.maxIn < s.inLen.toNat) ∨
        ((i = .decode ∨ i = .stats) ∧ 8 * s.params.bsBytes < s.bsLen.toNat)) ∧
      t.errPos = 0 ∧ t.errSym = 0
    | .unknownSymbol =>
      i = .encode ∧ s.ctrl.strictEnc = true ∧ t.errPos.toNat < s.inLen.toNat ∧
      s.inMem.read t.errPos.toNat = some t.errSym ∧ (s.code.at t.errSym).len = 0
    | .decodeMalformed =>
      i = .decode ∧ s.ctrl.strictDec = true ∧ s.root.present = true ∧ s.root.synth = false ∧
      t.errSym = 0 ∧ t.errPos.toNat < s.bsLen.toNat ∧
      t.errPos.toNat + t.trailBits.toNat = s.bsLen.toNat ∧
      (s.treeInv → ∃ (codes : List (Byte × List Bool)) (tail : List Bool),
        (∀ p ∈ codes, s.node.leafPath s.root.idx p.1 p.2) ∧ tail ≠ [] ∧ s.node.partialPath s.root.idx tail ∧
        s.streamIs (codes.flatMap Prod.snd ++ tail) ∧ t.errPos.toNat = (codes.flatMap Prod.snd).length)
    | .bsOverflow =>
      i = .encode ∧ t.errPos.toNat < s.inLen.toNat ∧ s.inMem.read t.errPos.toNat = some t.errSym ∧
      8 * s.params.bsBytes < t.bsLen.toNat + (s.code.at t.errSym).len.toNat) ∧
  ErrCode.none.byte = 0x00 ∧ ErrCode.illegalCmd.byte = 0x01 ∧ ErrCode.lenRange.byte = 0x02 ∧
  ErrCode.unknownSymbol.byte = 0x03 ∧ ErrCode.decodeMalformed.byte = 0x04 ∧ ErrCode.bsOverflow.byte = 0x05

/-- R110, R150, R170, R190, R223: a length beyond its buffer ends the command with LEN_RANGE, and nothing outside the status registers
changes. -/
def Obligations.LengthOutOfRangeChangesNothing : Prop :=
  ∀ s : State,
    let ended : Result :=
      .next { s with
        inFlight := none
        status := { s.status with done := true, err := true, errCode := .lenRange } }
    (s.params.maxIn < s.inLen.toNat → exec .count s = ended ∧ exec .encode s = ended ∧ exec .stats s = ended) ∧
    (8 * s.params.bsBytes < s.bsLen.toNat → exec .decode s = ended ∧ exec .stats s = ended)

/-- R204: NOP only completes; after it STATUS is 0x00000002, or 0x0000000A where OVERRUN was set. -/
def Obligations.NopOnlyCompletes : Prop :=
  ∀ s : State,
    exec .nop s = .next { s with inFlight := none, status := { s.status with done := true } } ∧
    ∃ t, exec .nop (s.issue 0) = .next t ∧
      t.statusWord = if s.status.overrun then 0x0000000A else 0x00000002

/-- R205: CLEAR gives every derived structure and register its reset value, and changes nothing else but the completion fields. -/
def Obligations.ClearResetsDerivedStructures : Prop :=
  ∀ s : State, ∃ (h : Hist) (a : Arena) (t : CodeTable),
    exec .clear s =
      .next
        { s with
          inFlight := none
          status := { s.status with done := true }
          hist := h
          node := a
          root := ⟨0, false, false⟩
          nsym := 0
          nodeCnt := 0
          code := t
          outLen := 0
          trailBits := 0
          unkCnt := 0
          statOrig := 0
          statEnc := 0
          statSave := 0
          statPct := 0 } ∧
    (∀ c, h.at c = 0) ∧ (∀ i, a.at i = .empty) ∧ ∀ c, t.at c = ⟨0, 0⟩

/-- R206: a word that is none of the eight commands is issued like any other, completes with ILLEGAL_CMD and has no other effect, and
LAST_OPC shows its bits [7:0]; and so does the illegal command itself on every state. -/
def Obligations.IllegalWordCompletesWithIllegalCmd : Prop :=
  (∀ (s : State) (w : Word), 7 < (w.extractLsb' 0 8).toNat ∨ w.extractLsb' 8 24 ≠ 0 →
    exec (decode w) (s.issue w) =
      .next
        { s with
          inFlight := none
          status := ⟨true, true, s.status.overrun, .illegalCmd, w.extractLsb' 0 8⟩
          errPos := 0
          errSym := 0 }) ∧
  ∀ (s : State) (opc : BitVec 8) (rsvd : BitVec 24),
    exec (.illegal opc rsvd) s =
      .next
        { s with
          inFlight := none
          status := { s.status with done := true, err := true, errCode := .illegalCmd } }

/-- R70 (a): COUNT, ENCODE and DECODE fault at the first byte they read that nothing has written. (ENCODE stops before it at an error.) -/
def Obligations.UnwrittenByteFaults : Prop :=
  ∀ s : State,
    (∀ xs, s.inputBegins xs → xs.length < s.inLen.toNat → s.inLen.toNat ≤ s.params.maxIn →
      s.inMem.read xs.length = none →
      exec .count s = .fault (.uninitRead .inMem xs.length) ∧
      ((s.ctrl.strictEnc = true → ∀ x ∈ xs, s.unknown x = false) →
        (s.codesOf xs).length ≤ 8 * s.params.bsBytes →
        exec .encode s = .fault (.uninitRead .inMem xs.length))) ∧
    (∀ bs : List Bool, s.treeInv → s.root.present = true → s.root.synth = false →
      bs.length < s.bsLen.toNat → s.bsLen.toNat ≤ 8 * s.params.bsBytes →
      (∀ k (h : k < bs.length), s.bit k = some bs[k]) → s.bit bs.length = none →
      exec .decode s = .fault (.uninitRead .bsMem (bs.length / 8)))

/-! ### COUNT (R110 to R113) -/

/-- R111 (with R110, R113): COUNT completes on a written input within IN_MEM, HIST[s] is the number of times s occurs, HIST is nonzero
exactly at the symbols that occur, its sum is IN_LEN, and nothing else changes but the completion fields. -/
def Obligations.CountTalliesInput : Prop :=
  ∀ (s : State) (xs : List Byte), s.inputIs xs → xs.length ≤ s.params.maxIn →
    ∃ h : Hist,
      exec .count s =
        .next { s with hist := h, inFlight := none, status := { s.status with done := true } } ∧
      (∀ c, (h.at c).toNat = xs.count c) ∧ (∀ c, 0 < (h.at c).toNat ↔ c ∈ xs) ∧
      (allSyms.map fun c => (h.at c).toNat).sum = xs.length

/-- R112: two inputs with the same multiset of symbols give the same histogram and the same tree. -/
def Obligations.TreeDependsOnlyOnSymbolMultiset : Prop :=
  ∀ (s s' : State) (xs ys : List Byte), s.inputIs xs → s'.inputIs ys → xs.Perm ys →
    xs.length ≤ s.params.maxIn → ys.length ≤ s'.params.maxIn →
    ∃ t t' u u' : State,
      exec .count s = .next t ∧ exec .count s' = .next t' ∧ t.hist = t'.hist ∧
      exec .build t = .next u ∧ exec .build t' = .next u' ∧
      u.node = u'.node ∧ u.root = u'.root ∧ u.nsym = u'.nsym ∧ u.nodeCnt = u'.nodeCnt

/-! ### BUILD (R121 to R132) -/

/-- R126 (with R132): a histogram of zeros gives the absent tree. -/
def Obligations.BuildOfNoSymbols : Prop :=
  ∀ s : State, (∀ c, s.hist.at c = 0) →
    ∃ a : Arena,
      exec .build s =
        .next
          { s with
            node := a
            root := ⟨0, false, false⟩
            nsym := 0
            nodeCnt := 0
            inFlight := none
            status := { s.status with done := true } } ∧
      ∀ i, a.at i = .empty

/-- R125 (with R132): one symbol gives its leaf at 0 under the synthetic root at 1. -/
def Obligations.BuildOfOneSymbol : Prop :=
  ∀ (s : State) (c : Byte), s.hist.at c ≠ 0 → (∀ d, d ≠ c → s.hist.at d = 0) →
    ∃ a : Arena,
      exec .build s =
        .next
          { s with
            node := a
            root := ⟨1, true, true⟩
            nsym := 1
            nodeCnt := 2
            inFlight := none
            status := { s.status with done := true } } ∧
      a.at 0 = .leaf c ((s.hist.at c).setWidth 40) ∧ a.at 1 = .synth 0 ((s.hist.at c).setWidth 40) ∧
      ∀ i : NodeIdx, 2 ≤ i.toNat → a.at i = .empty

/-- R122, R127 (with R132): N >= 2 symbols give leaves 0 to N-1 in ascending symbol order with their counts, internal nodes N to 2N-2, the
last of them the root, and no node at 511 (NIL). -/
def Obligations.BuildOfManySymbols : Prop :=
  ∀ (s : State) (syms : List Byte),
    syms.Pairwise (· < ·) → (∀ c, c ∈ syms ↔ s.hist.at c ≠ 0) → 2 ≤ syms.length →
    ∃ a : Arena,
      exec .build s =
        .next
          { s with
            node := a
            root := ⟨BitVec.ofNat 9 (2 * syms.length - 2), true, false⟩
            nsym := BitVec.ofNat 9 syms.length
            nodeCnt := BitVec.ofNat 10 (2 * syms.length - 1)
            inFlight := none
            status := { s.status with done := true } } ∧
      2 * syms.length - 2 < 511 ∧
      (∀ k (h : k < syms.length),
        a.at (BitVec.ofNat 9 k) = .leaf syms[k] ((s.hist.at syms[k]).setWidth 40)) ∧
      (∀ k, syms.length ≤ k → k < 2 * syms.length - 1 → ∃ l r f, a.at (BitVec.ofNat 9 k) = .internal l r f) ∧
      ∀ k, 2 * syms.length - 1 ≤ k → k < 512 → a.at (BitVec.ofNat 9 k) = .empty

/-- R123, R124: every internal node that BUILD makes has as children the two candidates of its time with the least keys (freq, index), the
least on the left, and their sum as its frequency. The candidates of a node's time are the nodes before it that are no child of a
node before it. -/
def Obligations.BuildMergesTheLeastPair : Prop :=
  ∀ (s t : State), exec .build s = .next t →
    ∀ (k l r : NodeIdx) (f : Freq), t.node.at k = .internal l r f →
      let candidate (i : NodeIdx) : Prop := i < k ∧ ∀ m : NodeIdx, m < k → (t.node.at m).hasChild i = false
      let before (i j : NodeIdx) : Prop :=
        (t.node.at i).freq < (t.node.at j).freq ∨ ((t.node.at i).freq = (t.node.at j).freq ∧ i < j)
      candidate l ∧ candidate r ∧ l ≠ r ∧
      (∀ i, candidate i → i ≠ l → before l i) ∧
      (∀ i, candidate i → i ≠ l → i ≠ r → before r i) ∧
      f = (t.node.at l).freq + (t.node.at r).freq

/-- R128 (with R36): the frequency of an internal node is exactly the sum of its children's, and the root's is exactly the sum of HIST: no
sum overflows. -/
def Obligations.BuildFrequenciesAreExactSums : Prop :=
  ∀ (s t : State), exec .build s = .next t →
    (∀ i l r f, t.node.at i = .internal l r f →
      f.toNat = (t.node.at l).freq.toNat + (t.node.at r).freq.toNat) ∧
    (t.root.present = true →
      (t.node.at t.root.idx).freq.toNat = (allSyms.map fun c => (s.hist.at c).toNat).sum)

/-- R35, R132: from every state whatsoever BUILD completes, what it leaves is a tree as R35 says, and it writes nothing but NODE, ROOT, NSYM,
NODE_CNT and the completion fields. -/
def Obligations.BuildMakesATree : Prop :=
  ∀ s : State, ∃ t : State, exec .build s = .next t ∧ t.treeInv ∧
    t = { s with
          node := t.node
          root := t.root
          nsym := t.nsym
          nodeCnt := t.nodeCnt
          inFlight := none
          status := { s.status with done := true } }

/-! ### GENERATE (R140 to R145) -/

/-- R140, R145: GENERATE on the absent tree gives the empty code table. -/
def Obligations.GenerateOfAbsentTree : Prop :=
  ∀ s : State, s.root.present = false →
    ∃ t : CodeTable,
      exec .generate s =
        .next { s with code := t, inFlight := none, status := { s.status with done := true } } ∧
      ∀ c, t.at c = ⟨0, 0⟩

/-- R39 (with R140, R145): GENERATE on a present tree completes, the symbols with a code are exactly the leaves' symbols, each code is the
path from the root to its leaf, and no code is the beginning of another's. -/
def Obligations.GenerateGivesLeafPaths : Prop :=
  ∀ s : State, s.treeInv → s.root.present = true →
    ∃ t : CodeTable,
      exec .generate s =
        .next { s with code := t, inFlight := none, status := { s.status with done := true } } ∧
      (∀ c, (t.at c).len ≠ 0 ↔ ∃ i f, s.node.at i = .leaf c f) ∧
      (∀ c, (t.at c).len ≠ 0 → s.node.leafPath s.root.idx c (t.at c).bits) ∧
      (∀ a b, a ≠ b → (t.at a).len ≠ 0 → (t.at b).len ≠ 0 → ¬ (t.at a).bits <+: (t.at b).bits)

/-- R144 (c): the Kraft sum of the codes is 1 for a tree of two symbols or more and 1/2 for the synthetic tree (in units of 2 to the
power -256). -/
def Obligations.GeneratedCodesHaveKraftSum : Prop :=
  ∀ (s t : State), s.treeInv → s.root.present = true → exec .generate s = .next t →
    (allSyms.map fun c => if (t.code.at c).len = 0 then 0 else 2 ^ (256 - (t.code.at c).len.toNat)).sum =
      if s.root.synth then 2 ^ 255 else 2 ^ 256

/-! ### ENCODE (R150 to R156) -/

/-- R151 (with R150, R152, R153, R156): ENCODE completes when the codes fit and, in strict mode, every symbol has one. The stream is the
codes in input order, unknown symbols contributing nothing and counted; the last byte is padded with zeros; nothing else
changes but the completion fields. -/
def Obligations.EncodeConcatenatesCodes : Prop :=
  ∀ (s : State) (xs : List Byte), s.params.ok → s.inputIs xs → xs.length ≤ s.params.maxIn →
    (s.ctrl.strictEnc = true → ∀ x ∈ xs, s.unknown x = false) →
    (s.codesOf xs).length ≤ 8 * s.params.bsBytes →
    ∃ t : State, exec .encode s = .next t ∧
      t = { s with
            bsMem := t.bsMem
            bsLen := t.bsLen
            unkCnt := t.unkCnt
            inFlight := none
            status := { s.status with done := true } } ∧
      storesStream s t (s.codesOf xs) ∧
      t.bsLen.toNat = (xs.map fun x => (s.code.at x).len.toNat).sum ∧
      t.bsLen.toNat = (s.codesOf xs).length ∧
      t.unkCnt.toNat = (xs.filter s.unknown).length

/-- R150, R152, R153, R222: in strict mode the first unknown symbol ends ENCODE with UNKNOWN_SYMBOL, its index and itself recorded, the
stream holding the codes before it and nothing else changed. -/
def Obligations.EncodeStrictStopsAtUnknownSymbol : Prop :=
  ∀ (s : State) (xs : List Byte) (c : Byte), s.params.ok → s.inputBegins (xs ++ [c]) →
    s.inLen.toNat ≤ s.params.maxIn → s.ctrl.strictEnc = true → (∀ x ∈ xs, s.unknown x = false) →
    s.unknown c = true → (s.codesOf xs).length ≤ 8 * s.params.bsBytes →
    ∃ t : State, exec .encode s = .next t ∧
      t = { s with
            bsMem := t.bsMem
            bsLen := BitVec.ofNat 32 (s.codesOf xs).length
            unkCnt := 0
            errPos := BitVec.ofNat 32 xs.length
            errSym := c
            inFlight := none
            status := { s.status with done := true, err := true, errCode := .unknownSymbol } } ∧
      storesStream s t (s.codesOf xs)

/-- R150, R153, R222, R223: the first symbol whose code would pass BS_BITS ends ENCODE with BS_OVERFLOW, its index and itself recorded,
the stream holding the codes before it, the symbols skipped before it counted, and nothing else changed. -/
def Obligations.EncodeStopsAtOverflow : Prop :=
  ∀ (s : State) (xs : List Byte) (c : Byte), s.params.ok → s.inputBegins (xs ++ [c]) →
    s.inLen.toNat ≤ s.params.maxIn → (s.ctrl.strictEnc = true → ∀ x ∈ xs, s.unknown x = false) →
    s.unknown c = false → (s.codesOf xs).length ≤ 8 * s.params.bsBytes →
    8 * s.params.bsBytes < (s.codesOf xs).length + (s.codeOf c).length →
    ∃ t : State, exec .encode s = .next t ∧
      t = { s with
            bsMem := t.bsMem
            bsLen := BitVec.ofNat 32 (s.codesOf xs).length
            unkCnt := BitVec.ofNat 32 (xs.filter s.unknown).length
            errPos := BitVec.ofNat 32 xs.length
            errSym := c
            inFlight := none
            status := { s.status with done := true, err := true, errCode := .bsOverflow } } ∧
      storesStream s t (s.codesOf xs)

/-! ### DECODE (R170 to R177) -/

/-- R174 (with R170, R177): on a tree of two symbols or more, a stream of leaf paths followed by the beginning of one decodes to the leaves'
symbols. TRAIL_BITS counts the bits left over; they are dropped in lenient mode, and in strict mode they raise DECODE_MALFORMED with
the position where they start. Nothing else changes. -/
def Obligations.DecodeWalksTheTree : Prop :=
  ∀ (s : State) (codes : List (Byte × List Bool)) (tail : List Bool), s.params.ok → s.treeInv →
    s.root.present = true → s.root.synth = false →
    (∀ p ∈ codes, s.node.leafPath s.root.idx p.1 p.2) → s.node.partialPath s.root.idx tail →
    s.streamIs (codes.flatMap Prod.snd ++ tail) → s.bsLen.toNat ≤ 8 * s.params.bsBytes →
    ∃ (t : State) (m : Memory), exec .decode s = .next t ∧ t.outMem = m ∧
      storesOutput s t (codes.map Prod.fst) ∧
      (tail = [] ∨ s.ctrl.strictDec = false →
        t = { s with
              outMem := m
              outLen := BitVec.ofNat 32 codes.length
              trailBits := BitVec.ofNat 32 tail.length
              inFlight := none
              status := { s.status with done := true } }) ∧
      (tail ≠ [] → s.ctrl.strictDec = true →
        t = { s with
              outMem := m
              outLen := BitVec.ofNat 32 codes.length
              trailBits := BitVec.ofNat 32 tail.length
              errPos := s.bsLen - BitVec.ofNat 32 tail.length
              errSym := 0
              inFlight := none
              status := { s.status with done := true, err := true, errCode := .decodeMalformed } })

/-- R170, R171: DECODE completes on every written stream within BS_MEM, and emits at most one symbol a bit. -/
def Obligations.DecodeCompletesOnEveryStream : Prop :=
  ∀ (s : State) (bs : List Bool), s.params.ok → s.treeInv → s.streamIs bs →
    bs.length ≤ 8 * s.params.bsBytes →
    ∃ t : State, exec .decode s = .next t ∧ t.outLen.toNat ≤ bs.length ∧ t.outLen.toNat ≤ s.params.maxOut

/-- R172 (with R177): on the synthetic tree DECODE gives one copy of the one symbol for every bit, whatever the bits are, with no bit left
over and no error, in either mode. That no stream byte is then read is DEDUCED (log entry 8). -/
def Obligations.DecodeOfSyntheticTree : Prop :=
  ∀ (s : State) (c : Byte) (f : Freq), s.params.ok → s.treeSynth → s.node.at 0 = .leaf c f →
    s.bsLen.toNat ≤ 8 * s.params.bsBytes →
    ∃ (t : State) (m : Memory), exec .decode s = .next t ∧ t.outMem = m ∧
      t = { s with
            outMem := m
            outLen := s.bsLen
            trailBits := 0
            inFlight := none
            status := { s.status with done := true } } ∧
      storesOutput s t (List.replicate s.bsLen.toNat c)

/-- R173 (with R177): on the absent tree DECODE gives no symbol and leaves every bit over, without an error in either mode. -/
def Obligations.DecodeOfAbsentTree : Prop :=
  ∀ s : State, s.root.present = false → s.bsLen.toNat ≤ 8 * s.params.bsBytes →
    exec .decode s =
      .next
        { s with
          outLen := 0
          trailBits := s.bsLen
          inFlight := none
          status := { s.status with done := true } }

/-! ### STATS (R190 to R195) -/

/-- R191, R192 (with R190, R195): STATS computes the lengths and the signed savings exactly, and the percentage as the nearest hundredth
with halves away from zero, 0 where the original length is 0; nothing else changes but the completion fields. -/
def Obligations.StatsAreExact : Prop :=
  ∀ s : State, s.params.ok → s.inLen.toNat ≤ s.params.maxIn → s.bsLen.toNat ≤ 8 * s.params.bsBytes →
    ∃ orig enc save pct : Word,
      exec .stats s =
        .next
          { s with
            statOrig := orig
            statEnc := enc
            statSave := save
            statPct := pct
            inFlight := none
            status := { s.status with done := true } } ∧
      orig.toNat = 8 * s.inLen.toNat ∧ enc = s.bsLen ∧
      save.toInt = 8 * (s.inLen.toNat : Int) - (s.bsLen.toNat : Int) ∧
      (s.inLen = 0 → pct = 0) ∧
      (s.inLen ≠ 0 →
        2 * (pct.toInt * (orig.toNat : Int) - save.toInt * 10000).natAbs ≤ orig.toNat ∧
        (2 * (pct.toInt * (orig.toNat : Int) - save.toInt * 10000).natAbs = orig.toNat →
          (save.toInt * 10000).natAbs < (pct.toInt * (orig.toNat : Int)).natAbs))

/-! ### The pipeline (R176) and purity (R6) -/

/-- R176, without its bound on the encoded length (which rests on the optimality of R129): for a non-empty input whose codes fit BS_MEM,
COUNT, BUILD, GENERATE, ENCODE and DECODE one after the other give the input back, with no bit left over and no error, in every mode. -/
def Obligations.PipelineRoundTrip : Prop :=
  ∀ (s : State) (xs : List Byte), s.params.ok → s.inputIs xs → xs ≠ [] → xs.length ≤ s.params.maxIn →
    ∃ s1 s2 s3 : State,
      exec .count s = .next s1 ∧ exec .build s1 = .next s2 ∧ exec .generate s2 = .next s3 ∧
      ((s3.codesOf xs).length ≤ 8 * s.params.bsBytes →
        ∃ s4 s5 : State,
          exec .encode s3 = .next s4 ∧ exec .decode s4 = .next s5 ∧
          s4.bsLen.toNat = (s3.codesOf xs).length ∧ s4.unkCnt = 0 ∧
          s5.outLen.toNat = xs.length ∧ (∀ i (h : i < xs.length), s5.outMem.read i = some xs[i]) ∧
          s5.trailBits = 0 ∧ s5.status.err = s.status.err ∧ s5.status.errCode = s.status.errCode)

/-- R6, R25, R91, R130: every command is a pure function of the structures it reads: from two states that agree on them, an issued command
ends in the same error or none, and unless that is LEN_RANGE (which writes nothing) leaves the same outputs, or faults the same. -/
def Obligations.CommandsReadOnlyTheirOperands : Prop :=
  ∀ (i : Instr) (s s' : State) (w : Word), sameOperands i s s' →
    (∀ t, exec i (s.issue w) = .next t → ∃ t', exec i (s'.issue w) = .next t' ∧
      t.status.err = t'.status.err ∧ t.status.errCode = t'.status.errCode ∧
      t.errPos = t'.errPos ∧ t.errSym = t'.errSym ∧
      (s.params.ok → t.status.errCode ≠ .lenRange → sameOutputs i t t')) ∧
    (∀ f, exec i (s.issue w) = .fault f → exec i (s'.issue w) = .fault f) ∧
    (∀ r, exec i (s.issue w) ≠ .refused r)

/-! ### The host port (R60 to R70, R23 to R28) -/

/-- R61: an access that is misaligned, or does not enable all four byte lanes, answers SLVERR, a read with data 0, and has no effect. That
such a write sets no OVERRUN while BUSY is DEDUCED (log entry 9). -/
def Obligations.ImproperAccessHasNoEffect : Prop :=
  ∀ (s : State) (a : Offset) (lanes : BitVec 4) (v : Word), a.toNat % 4 ≠ 0 ∨ lanes ≠ 0xF →
    s.portRead a lanes = (.slverr, 0) ∧ s.portWrite a lanes v = (s, .slverr)

/-- R66: accesses while BUSY = 1. A read of a register returns its current value; a write of STATUS applies its W1C fields; any other write
to the register block is ignored and sets OVERRUN; a window answers SLVERR to a read and to a write, and a write sets OVERRUN. -/
def Obligations.BusyAccessRules : Prop :=
  ∀ (s : State) (v : Word), s.busy = true →
    (∀ r, s.portRead (Reg.offset r) 0xF = (.okay, s.readReg r)) ∧
    s.portWrite 0x018 0xF v =
      ({ s with
          status :=
            { s.status with
              done := s.status.done && !v.getLsbD 1, overrun := s.status.overrun && !v.getLsbD 3 } }, .okay) ∧
    ∀ a : Offset, a.toNat % 4 = 0 →
      (a.toNat < 0x400 → a ≠ 0x018 → s.portWrite a 0xF v = (s.setOverrun, .okay)) ∧
      ((0x400 ≤ a.toNat ∧ a.toNat < 0x800) ∨ (0x2000 ≤ a.toNat ∧ a.toNat < 0x8000) ∨ 0x10000 ≤ a.toNat →
        s.portRead a 0xF = (.slverr, 0) ∧ s.portWrite a 0xF v = (s.setOverrun, .slverr))

/-- R63: the error responses of the address map. Unmapped offsets always; while BUSY = 0, writes to the read-only windows and accesses at or
past a buffer's capacity. None has an effect. That an unmapped write while BUSY sets no OVERRUN is DEDUCED (log
entry 14). -/
def Obligations.AddressMapErrors : Prop :=
  ∀ (s : State) (a : Offset) (v : Word),
    ((0x800 ≤ a.toNat ∧ a.toNat < 0x2000) ∨ (0x8000 ≤ a.toNat ∧ a.toNat < 0x10000) →
      s.portRead a 0xF = (.slverr, 0) ∧ s.portWrite a 0xF v = (s, .slverr)) ∧
    (s.busy = false →
      ((0x2000 ≤ a.toNat ∧ a.toNat < 0x8000) ∨ 0x30000 ≤ a.toNat → s.portWrite a 0xF v = (s, .slverr)) ∧
      (0x10000 + s.params.maxIn ≤ a.toNat → a.toNat < 0x20000 →
        s.portRead a 0xF = (.slverr, 0) ∧ s.portWrite a 0xF v = (s, .slverr)) ∧
      (0x20000 + s.params.bsBytes ≤ a.toNat → a.toNat < 0x30000 →
        s.portRead a 0xF = (.slverr, 0) ∧ s.portWrite a 0xF v = (s, .slverr)) ∧
      (0x30000 + s.params.maxOut ≤ a.toNat → s.portRead a 0xF = (.slverr, 0)))

/-- R65 (with R33, R38): the word layout of the NODE and CODE windows, as numbers, so that every bit not named reads 0. -/
def Obligations.StructureWindowLayout : Prop :=
  ∀ s : State, s.busy = false →
    (∀ i : NodeIdx, ∃ w0 w1 w2 w3 : Word,
      s.portRead (BitVec.ofNat 18 (0x2000 + 16 * i.toNat)) 0xF = (.okay, w0) ∧
      s.portRead (BitVec.ofNat 18 (0x2000 + 16 * i.toNat + 4)) 0xF = (.okay, w1) ∧
      s.portRead (BitVec.ofNat 18 (0x2000 + 16 * i.toNat + 8)) 0xF = (.okay, w2) ∧
      s.portRead (BitVec.ofNat 18 (0x2000 + 16 * i.toNat + 12)) 0xF = (.okay, w3) ∧
      w0.toNat = (match s.node.at i with
        | .empty => 0 | .leaf c _ => 1 + 256 * c.toNat | .internal _ _ _ => 2 | .synth _ _ => 3) ∧
      w1.toNat = (match s.node.at i with
        | .empty => 0 | .leaf _ _ => 0x01FF01FF | .internal l r _ => l.toNat + 65536 * r.toNat
        | .synth l _ => l.toNat + 65536 * 0x1FF) ∧
      w2.toNat = (s.node.at i).freq.toNat % 2 ^ 32 ∧ w3.toNat = (s.node.at i).freq.toNat / 2 ^ 32) ∧
    (∀ c : Byte, ∃ w : Word,
      s.portRead (BitVec.ofNat 18 (0x4000 + 64 * c.toNat)) 0xF = (.okay, w) ∧
      w.toNat = (s.code.at c).len.toNat) ∧
    (∀ (c : Byte) (j : Nat), j < 8 → ∃ w : Word,
      s.portRead (BitVec.ofNat 18 (0x4000 + 64 * c.toNat + 4 + 4 * j)) 0xF = (.okay, w) ∧
      w.toNat = (s.code.at c).val.toNat / 2 ^ (32 * j) % 2 ^ 32) ∧
    (∀ (c : Byte) (j : Nat), 9 ≤ j → j < 16 →
      s.portRead (BitVec.ofNat 18 (0x4000 + 64 * c.toNat + 4 * j)) 0xF = (.okay, 0))

/-- R30, R63: while BUSY = 0 the host reads HIST[s] at 0x00400 + 4*s, and a write there stores the word and changes nothing else. -/
def Obligations.HistWindowReadsAndWrites : Prop :=
  ∀ (s : State) (c : Byte) (v : Word), s.busy = false →
    s.portRead (BitVec.ofNat 18 (0x400 + 4 * c.toNat)) 0xF = (.okay, s.hist.at c) ∧
    ∃ h : Hist,
      s.portWrite (BitVec.ofNat 18 (0x400 + 4 * c.toNat)) 0xF v = ({ s with hist := h }, .okay) ∧
      h.at c = v ∧ ∀ d, d ≠ c → h.at d = s.hist.at d

/-- R62, R63, R75: while BUSY = 0 a word written to IN_MEM or BS_MEM stores its four bytes, the least significant at the lowest offset, leaves
every other byte and everything else alone, and is read back. -/
def Obligations.BufferWriteStoresLittleEndian : Prop :=
  ∀ (s : State) (j : Nat) (v : Word), s.params.ok → s.busy = false → j % 4 = 0 →
    (j < s.params.maxIn → ∃ m : Memory,
      s.portWrite (BitVec.ofNat 18 (0x10000 + j)) 0xF v = ({ s with inMem := m }, .okay) ∧
      (∀ i, i < 4 → m.read (j + i) = some (v.extractLsb' (8 * i) 8)) ∧
      (∀ x, x < j ∨ j + 4 ≤ x → m.read x = s.inMem.read x) ∧
      { s with inMem := m }.portRead (BitVec.ofNat 18 (0x10000 + j)) 0xF = (.okay, v)) ∧
    (j < s.params.bsBytes → ∃ m : Memory,
      s.portWrite (BitVec.ofNat 18 (0x20000 + j)) 0xF v = ({ s with bsMem := m }, .okay) ∧
      (∀ i, i < 4 → m.read (j + i) = some (v.extractLsb' (8 * i) 8)) ∧
      (∀ x, x < j ∨ j + 4 ≤ x → m.read x = s.bsMem.read x) ∧
      { s with bsMem := m }.portRead (BitVec.ofNat 18 (0x20000 + j)) 0xF = (.okay, v))

/-- R67 (with R62, R70 (b)): while BUSY = 0 the word the host reads at byte 4w of a buffer holds byte 4w + i in bits [8i+7:8i], exactly, for
every byte of it that has been written. The other lanes hold free values (log entry 3), of which nothing is said. -/
def Obligations.HostReadReturnsWrittenLanes : Prop :=
  ∀ (s : State) (w i : Nat) (b : Byte), s.params.ok → s.busy = false → i < 4 →
    (4 * w < s.params.maxIn → s.inMem.read (4 * w + i) = some b →
      ∃ d : Word, s.portRead (BitVec.ofNat 18 (0x10000 + 4 * w)) 0xF = (.okay, d) ∧ d.extractLsb' (8 * i) 8 = b) ∧
    (4 * w < s.params.bsBytes → s.bsMem.read (4 * w + i) = some b →
      ∃ d : Word, s.portRead (BitVec.ofNat 18 (0x20000 + 4 * w)) 0xF = (.okay, d) ∧ d.extractLsb' (8 * i) 8 = b) ∧
    (4 * w < s.params.maxOut → s.outMem.read (4 * w + i) = some b →
      ∃ d : Word, s.portRead (BitVec.ofNat 18 (0x30000 + 4 * w)) 0xF = (.okay, d) ∧ d.extractLsb' (8 * i) 8 = b)

/-- R68: the host finds bit k of the stream at word offset 0x20000 + 4*(k div 32), bit position 8*((k div 8) mod 4) + 7 - (k mod 8). -/
def Obligations.StreamBitsAreMsbFirst : Prop :=
  ∀ (s : State) (k : Nat) (b : Bool), s.params.ok → s.busy = false → k < 8 * s.params.bsBytes → s.bit k = some b →
    ∃ d : Word, s.portRead (BitVec.ofNat 18 (0x20000 + 4 * (k / 32))) 0xF = (.okay, d) ∧
      d.getLsbD (8 * (k / 8 % 4) + 7 - k % 8) = b

/-- R69: a host read changes nothing but the host's record of its answer: nothing of the block, and no answer of a later read. So it is
idempotent, also in the lanes of bytes that nothing has written: the same read made again leaves the same state (log entry 3). -/
def Obligations.HostReadHasNoSideEffect : Prop :=
  ∀ (s : State) (a : Offset) (lanes : BitVec 4),
    s.hostRead a lanes =
      { s with
        env := { s.env with reply := some (.read (s.portRead a lanes).1 (s.portRead a lanes).2) } } ∧
    (s.hostRead a lanes).hostRead a lanes = s.hostRead a lanes ∧
    ∀ (b : Offset) (lanes' : BitVec 4), (s.hostRead a lanes).portRead b lanes' = s.portRead b lanes'

/-- R97 (with R96): RUN of a command, from an idle machine and with no turn prescribed: the command is issued, performed, and waited out, and
the host goes on with the rest of its program. What the command leaves is what it leaves where it is issued; the host's record of the world
outside is the model's own (log entries 6, 7). -/
def Obligations.RunPerformsTheCommand : Prop :=
  ∀ (i : Instr) (s t : State) (rest : List HostOp), i.wf = true → s.busy = false → s.env.turns = [] →
    s.env.prog = runCmd i ++ rest → exec i (s.issue (encode i)) = .next t →
    ∃ env : Env,
      runFor 3 s = .next { t with env := env } ∧ env.prog = rest ∧ env.turns = [] ∧
      env.reply = some (.read .okay t.statusWord) ∧ env.expectFailed = s.env.expectFailed

/-- R98 (with R62, R95): LOADIN, from an idle machine and with no turn prescribed: the bytes are in IN_MEM from index 0, the unused bytes of the
last word are 0, IN_LEN is their number, nothing else changes, and the host goes on with the rest of its program. -/
def Obligations.LoadInStoresTheInput : Prop :=
  ∀ (s : State) (xs : List Byte) (rest : List HostOp), s.params.ok → s.busy = false → s.env.turns = [] →
    s.env.prog = loadIn xs ++ rest → xs.length ≤ s.params.maxIn →
    ∃ (m : Memory) (env : Env),
      runFor ((xs.length + 3) / 4 + 1) s =
        .next { s with inMem := m, inLen := BitVec.ofNat 32 xs.length, env := env } ∧
      env.prog = rest ∧
      (∀ j (h : j < xs.length), m.read j = some xs[j]) ∧
      (∀ j, xs.length ≤ j → j < 4 * ((xs.length + 3) / 4) → m.read j = some 0) ∧
      ∀ j, 4 * ((xs.length + 3) / 4) ≤ j → m.read j = s.inMem.read j

/-- R23, R24: what the host reads at each register's offset, BUSY or not, and that reserved offsets read 0. -/
def Obligations.RegisterReads : Prop :=
  ∀ s : State,
    s.portRead 0x000 0xF = (.okay, 0x48434531) ∧
    s.portRead 0x004 0xF = (.okay, BitVec.ofNat 32 s.params.maxIn) ∧
    s.portRead 0x008 0xF = (.okay, BitVec.ofNat 32 s.params.bsBytes) ∧
    s.portRead 0x00C 0xF = (.okay, BitVec.ofNat 32 s.params.maxOut) ∧
    s.portRead 0x010 0xF = (.okay, s.ctrl.word) ∧ s.portRead 0x014 0xF = (.okay, 0) ∧
    s.portRead 0x018 0xF = (.okay, s.statusWord) ∧ s.portRead 0x01C 0xF = (.okay, s.errPos) ∧
    s.portRead 0x020 0xF = (.okay, s.errSym.setWidth 32) ∧ s.portRead 0x024 0xF = (.okay, s.inLen) ∧
    s.portRead 0x028 0xF = (.okay, s.bsLen) ∧ s.portRead 0x02C 0xF = (.okay, s.outLen) ∧
    s.portRead 0x030 0xF = (.okay, s.unkCnt) ∧ s.portRead 0x034 0xF = (.okay, s.trailBits) ∧
    s.portRead 0x038 0xF = (.okay, s.nsym.setWidth 32) ∧ s.portRead 0x03C 0xF = (.okay, s.nodeCnt.setWidth 32) ∧
    s.portRead 0x040 0xF = (.okay, s.root.word) ∧ s.portRead 0x044 0xF = (.okay, s.statOrig) ∧
    s.portRead 0x048 0xF = (.okay, s.statEnc) ∧ s.portRead 0x04C 0xF = (.okay, s.statSave) ∧
    s.portRead 0x050 0xF = (.okay, s.statPct) ∧
    ∀ a : Offset, a.toNat % 4 = 0 → 0x54 ≤ a.toNat → a.toNat < 0x400 → s.portRead a 0xF = (.okay, 0)

/-- R23, R25, R26, R28: the fields of CTRL, STATUS and ROOT as numbers, so that every bit not named reads 0. -/
def Obligations.RegisterFieldLayout : Prop :=
  ∀ s : State,
    s.ctrl.word.toNat = s.ctrl.strictEnc.toNat + 2 * s.ctrl.strictDec.toNat + 4 * s.ctrl.irqEn.toNat ∧
    s.statusWord.toNat =
      s.busy.toNat + 2 * s.status.done.toNat + 4 * s.status.err.toNat + 8 * s.status.overrun.toNat +
        256 * s.status.errCode.byte.toNat + 65536 * s.status.lastOpc.toNat ∧
    s.root.word.toNat = s.root.idx.toNat + 65536 * s.root.present.toNat + 131072 * s.root.synth.toNat

/-- R24 (with R23, R27): writes of the register block while BUSY = 0. CTRL keeps bits [2:0], IN_LEN and BS_LEN keep the word, STATUS clears
what is written 1, and a write of a read-only register or a reserved offset is ignored, all with OKAY. -/
def Obligations.RegisterWrites : Prop :=
  ∀ (s : State) (v : Word), s.busy = false →
    s.portWrite 0x010 0xF v = ({ s with ctrl := ⟨v.getLsbD 0, v.getLsbD 1, v.getLsbD 2⟩ }, .okay) ∧
    s.portWrite 0x024 0xF v = ({ s with inLen := v }, .okay) ∧
    s.portWrite 0x028 0xF v = ({ s with bsLen := v }, .okay) ∧
    s.portWrite 0x018 0xF v =
      ({ s with
          status :=
            { s.status with
              done := s.status.done && !v.getLsbD 1, overrun := s.status.overrun && !v.getLsbD 3 } }, .okay) ∧
    ∀ a : Offset, a.toNat % 4 = 0 → a.toNat < 0x400 →
      a ≠ 0x010 → a ≠ 0x014 → a ≠ 0x018 → a ≠ 0x024 → a ≠ 0x028 → s.portWrite a 0xF v = (s, .okay)

/-! ### The interrupt and reset (R230, R250, R251) -/

/-- R230: irq is DONE and IRQ_EN. Every command that completes, with or without an error, raises it where IRQ_EN is 1; writing 1 to DONE, the
next issue, and IRQ_EN = 0 lower it, the last without clearing DONE; OVERRUN does not raise it; IRQ_EN is 0 at reset. -/
def Obligations.IrqIsDoneAndEnabled : Prop :=
  (∀ s : State, s.irq = (s.status.done && s.ctrl.irqEn)) ∧
  (∀ (i : Instr) (s t : State), exec i s = .next t → t.irq = s.ctrl.irqEn) ∧
  (∀ (s : State) (v : Word), v.getLsbD 1 = true → (s.portWrite 0x018 0xF v).1.irq = false) ∧
  (∀ (s : State) (w : Word), s.busy = false → (s.portWrite 0x014 0xF w).1.irq = false) ∧
  (∀ (s : State) (v : Word), s.busy = false → v.getLsbD 2 = false →
    (s.portWrite 0x010 0xF v).1.irq = false ∧ (s.portWrite 0x010 0xF v).1.status.done = s.status.done) ∧
  (∀ s : State, s.setOverrun.irq = s.irq) ∧ State.reset.ctrl.irqEn = false

/-- R250, R251: the state after an assertion of reset, from every state, a command in flight or not: every register 0, the tree absent, HIST and
CODE empty, every buffer byte unwritten, nothing in flight, irq 0. The configuration stays, and so does the world outside. The
unspecified contents of the buffers are new ones (log entry 3). -/
def Obligations.ResetTurnGivesResetState : Prop :=
  ∀ (s : State) (ts : List Turn), s.env.turns = .reset :: ts →
    ∃ (h : Hist) (a : Arena) (c : CodeTable),
      step s =
        .next
          { params := s.params
            ctrl := ⟨false, false, false⟩
            status := ⟨false, false, false, .none, 0⟩
            inFlight := none
            errPos := 0
            errSym := 0
            inLen := 0
            bsLen := 0
            outLen := 0
            unkCnt := 0
            trailBits := 0
            nsym := 0
            nodeCnt := 0
            root := ⟨0, false, false⟩
            statOrig := 0
            statEnc := 0
            statSave := 0
            statPct := 0
            hist := h
            node := a
            code := c
            inMem := []
            bsMem := []
            outMem := []
            ramEra := s.ramEra + 1
            env := { s.env with turns := ts } } ∧
      (∀ b, h.at b = 0) ∧ (∀ i, a.at i = .empty) ∧ ∀ b, c.at b = ⟨0, 0⟩

/-! ### Invariants -/

/-- R35, R38, R251: every invariant holds at reset, in every configuration R8 allows. -/
def Obligations.ResetKeepsEveryInvariant : Prop :=
  (∀ p : Params, p.ok →
    (State.resetOf p).memInv ∧ (State.resetOf p).statusInv ∧ (State.resetOf p).treeInv ∧
      (State.resetOf p).codeInv ∧ (State.resetOf p).outputInv) ∧
  State.reset = State.resetOf Params.reference ∧ Params.reference.ok

/-- R8, R41 to R43, R63, R171: every step keeps the three RAMs canonical and within their capacities. -/
def Obligations.StepKeepsMemories : Prop :=
  ∀ s t : State, s.memInv → step s = .next t → t.memInv

/-- R26, R200, R202, R222: every step keeps the status invariant. -/
def Obligations.StepKeepsStatus : Prop :=
  ∀ s t : State, s.statusInv → step s = .next t → t.statusInv

/-- R35: every step keeps NODE, ROOT, NSYM and NODE_CNT in one of the three cases of the tree invariant. -/
def Obligations.StepKeepsTheTree : Prop :=
  ∀ s t : State, s.treeInv → step s = .next t → t.treeInv

/-- R38 (with R35): every step keeps every code's value below 2 to the power of its length. -/
def Obligations.StepKeepsCodesWithinLength : Prop :=
  ∀ s t : State, s.treeInv → s.codeInv → step s = .next t → t.codeInv

/-- R43, R171, R174: every step keeps OUT_LEN within OUT_MEM and its bytes written, and the anomaly counters within their buffers. -/
def Obligations.StepKeepsOutputs : Prop :=
  ∀ s t : State, s.memInv → s.outputInv → step s = .next t → t.outputInv

/-- R143, R170 (with R35): in a state that keeps the tree invariant no step is stuck in the tree: the only fault is a read of a byte that
nothing has written. -/
def Obligations.TreeNeverSticksTheEngine : Prop :=
  ∀ (s : State) (f : Fault), s.treeInv → step s = .fault f → ∃ buf i, f = .uninitRead buf i ∧ (s.ram buf).read i = none
end

