-- ==== Sys2Proof/Laws/Tables.lean ====
section
/-! SUPPORT. The laws of HIST, NODE and CODE: an entry after a write, an entry of the empty structure. -/

namespace Sys2Proof.Machine

theorem Hist.at_put (h : Hist) (c d : Byte) (v : Word) : (h.put c v).at d = if d = c then v else h.at d := by
  simp only [Hist.at, Hist.put, Vector.getElem_set]
  by_cases hcd : d = c
  · subst hcd; simp
  · have : c.toNat ≠ d.toNat := fun h => hcd (BitVec.eq_of_toNat_eq h.symm)
    simp [hcd, this]

@[simp] theorem Hist.at_zero (c : Byte) : Hist.zero.at c = 0 := by
  simp [Hist.at, Hist.zero]

theorem Arena.at_put (a : Arena) (i j : NodeIdx) (n : Node) : (a.put i n).at j = if j = i then n else a.at j := by
  simp only [Arena.at, Arena.put, Vector.getElem_set]
  by_cases hij : j = i
  · subst hij; simp
  · have : i.toNat ≠ j.toNat := fun h => hij (BitVec.eq_of_toNat_eq h.symm)
    simp [hij, this]

@[simp] theorem Arena.at_put_same (a : Arena) (i : NodeIdx) (n : Node) : (a.put i n).at i = n := by
  simp [Arena.at_put]

@[simp] theorem Arena.at_empty (i : NodeIdx) : Arena.empty.at i = .empty := by
  simp [Arena.at, Arena.empty]

theorem CodeTable.at_put (t : CodeTable) (c d : Byte) (e : CodeEntry) :
    (t.put c e).at d = if d = c then e else t.at d := by
  simp only [CodeTable.at, CodeTable.put, Vector.getElem_set]
  by_cases hcd : d = c
  · subst hcd; simp
  · have : c.toNat ≠ d.toNat := fun h => hcd (BitVec.eq_of_toNat_eq h.symm)
    simp [hcd, this]

@[simp] theorem CodeTable.at_empty (c : Byte) : CodeTable.empty.at c = ⟨0, 0⟩ := by
  simp [CodeTable.at, CodeTable.empty]

/-- Two arenas with the same entries are the same. -/
theorem Arena.ext {a b : Arena} (h : ∀ i, a.at i = b.at i) : a = b := by
  apply Vector.ext
  intro k hk
  have := h (BitVec.ofNat 9 k)
  simpa [Arena.at, Nat.mod_eq_of_lt hk] using this

/-- Two histograms with the same entries are the same. -/
theorem Hist.ext {a b : Hist} (h : ∀ c, a.at c = b.at c) : a = b := by
  apply Vector.ext
  intro k hk
  have := h (BitVec.ofNat 8 k)
  simpa [Hist.at, Nat.mod_eq_of_lt hk] using this

/-- Two code tables with the same entries are the same. -/
theorem CodeTable.ext {a b : CodeTable} (h : ∀ c, a.at c = b.at c) : a = b := by
  apply Vector.ext
  intro k hk
  have := h (BitVec.ofNat 8 k)
  simpa [CodeTable.at, Nat.mod_eq_of_lt hk] using this

/-- The symbols in ascending order, each once. -/
theorem mem_symbols (c : Byte) : c ∈ (List.range 256).map (BitVec.ofNat 8) := by
  simp only [List.mem_map, List.mem_range]
  exact ⟨c.toNat, c.isLt, by simp⟩

end Sys2Proof.Machine
end

