-- ==== Sys2Proof/Laws/Build.lean ====
section
/-! SUPPORT. What BUILD leaves: the leaves, the least candidate, the invariant of the merge loop, and the three shapes of its result. -/

namespace Sys2Proof.Machine

/-! ### The symbols of a histogram (R122) -/

theorem allSyms_sorted : allSyms.Pairwise (· < ·) := by
  rw [allSyms, List.pairwise_map]
  refine List.Pairwise.imp_of_mem ?_ List.pairwise_lt_range
  intro i j hi hj hij
  simp only [List.mem_range] at hi hj
  rw [BitVec.lt_def, BitVec.toNat_ofNat, BitVec.toNat_ofNat]
  omega

theorem allSyms_nodup : allSyms.Nodup :=
  allSyms_sorted.imp fun {a b} (h : a < b) (e : a = b) => by rw [e, BitVec.lt_def] at h; omega

theorem mem_allSyms (c : Byte) : c ∈ allSyms := mem_symbols c

@[simp] theorem length_allSyms : allSyms.length = 256 := by simp [allSyms]

theorem Hist.mem_present {h : Hist} {c : Byte} : c ∈ h.present ↔ h.at c ≠ 0 := by
  simp [Hist.present, mem_allSyms]

theorem Hist.present_sorted (h : Hist) : h.present.Pairwise (· < ·) := allSyms_sorted.filter _

theorem Hist.present_nodup (h : Hist) : h.present.Nodup := allSyms_nodup.filter _

theorem Hist.length_present_le (h : Hist) : h.present.length ≤ 256 := by
  have := List.length_filter_le (fun c => h.at c != 0) allSyms
  rwa [length_allSyms] at this

/-- The sum of a histogram. -/
def Hist.total (h : Hist) : Nat := (allSyms.map fun c => (h.at c).toNat).sum

theorem sum_map_filter_ne_zero (f : Byte → Nat) (p : Byte → Bool) (hp : ∀ c, p c = false → f c = 0) (l : List Byte) :
    ((l.filter p).map f).sum = (l.map f).sum := by
  induction l with
  | nil => rfl
  | cons c l ih =>
    cases hc : p c
    · rw [List.filter_cons_of_neg (by simp [hc]), ih, List.map_cons, List.sum_cons, hp c hc, Nat.zero_add]
    · rw [List.filter_cons_of_pos hc, List.map_cons, List.sum_cons, ih, List.map_cons, List.sum_cons]

/-- A sum over all symbols is the sum over those outside which the summand is 0. -/
theorem sum_allSyms (f : Byte → Nat) {l : List Byte} (hl : l.Nodup) (h : ∀ c, c ∉ l → f c = 0) :
    (allSyms.map f).sum = (l.map f).sum := by
  rw [← sum_map_filter_ne_zero f (fun c => decide (c ∈ l)) fun c hc => h c (by simpa using hc)]
  refine List.Perm.sum_eq (List.Perm.map _ ?_)
  rw [List.perm_ext_iff_of_nodup (allSyms_nodup.filter _) hl]
  intro c
  simp [mem_allSyms]

/-- The counts of the symbols present add up to the whole histogram. -/
theorem Hist.sum_present (h : Hist) : (h.present.map fun c => (h.at c).toNat).sum = h.total := by
  refine sum_map_filter_ne_zero _ _ (fun c hc => ?_) _
  have : h.at c = 0 := by simpa using hc
  simp [this]

theorem sum_le_of_le (f : Byte → Nat) (b : Nat) (l : List Byte) (h : ∀ c ∈ l, f c ≤ b) :
    (l.map f).sum ≤ l.length * b := by
  induction l with
  | nil => simp
  | cons c l ih =>
    have h1 := h c (by simp)
    have h2 := ih fun d hd => h d (List.mem_cons_of_mem _ hd)
    rw [List.map_cons, List.sum_cons, List.length_cons, Nat.add_mul]
    omega

/-- The sum of a histogram fits 40 bits (R36). -/
theorem Hist.total_lt (h : Hist) : h.total < 2 ^ 40 := by
  have := sum_le_of_le (fun c => (h.at c).toNat) (2 ^ 32 - 1) allSyms fun c _ => by have := (h.at c).isLt; omega
  rw [length_allSyms] at this
  unfold Hist.total
  omega

/-! ### Seeding the leaves (R122) -/

theorem seedLeaves_at (h : Hist) (cs : List Byte) (k : NodeIdx) (a : Arena) (hk : k.toNat + cs.length < 512)
    (i : NodeIdx) :
    (seedLeaves h cs k a).at i =
      if hi : k.toNat ≤ i.toNat ∧ i.toNat < k.toNat + cs.length then
        .leaf (cs[i.toNat - k.toNat]'(by omega)) ((h.at (cs[i.toNat - k.toNat]'(by omega))).setWidth 40)
      else a.at i := by
  induction cs generalizing k a with
  | nil =>
    rw [dif_neg (by simp)]
    rfl
  | cons c cs ih =>
    rw [List.length_cons] at hk
    have hk1 : (k + 1).toNat = k.toNat + 1 := by
      rw [BitVec.toNat_add]; simp; omega
    rw [seedLeaves, ih (k + 1) _ (by omega)]
    simp only [hk1]
    by_cases h1 : i = k
    · subst h1
      rw [dif_neg (by omega), dif_pos (by rw [List.length_cons]; omega), Arena.at_put_same]
      simp
    · have hne : i.toNat ≠ k.toNat := fun e => h1 (BitVec.eq_of_toNat_eq e)
      by_cases h2 : k.toNat ≤ i.toNat ∧ i.toNat < k.toNat + (c :: cs).length
      · rw [List.length_cons] at h2
        have e : i.toNat - k.toNat = i.toNat - (k.toNat + 1) + 1 := by omega
        rw [dif_pos (by omega), dif_pos (by rw [List.length_cons]; omega)]
        simp only [e, List.getElem_cons_succ]
      · rw [dif_neg (by rw [List.length_cons] at h2; omega), dif_neg h2, Arena.at_put, if_neg h1]

/-! ### The selection order (R123) -/

/-- The selection order as a proposition. -/
def Arena.before (a : Arena) (i j : NodeIdx) : Prop :=
  (a.at i).freq < (a.at j).freq ∨ ((a.at i).freq = (a.at j).freq ∧ i < j)

theorem Arena.keyLess_iff {a : Arena} {i j : NodeIdx} : a.keyLess i j = true ↔ a.before i j := by
  simp [Arena.keyLess, Arena.before]

theorem Arena.before_trans {a : Arena} {i j k : NodeIdx} (h1 : a.before i j) (h2 : a.before j k) : a.before i k := by
  unfold Arena.before at *
  simp only [BitVec.lt_def, ← BitVec.toNat_inj] at *
  omega

theorem Arena.before_total {a : Arena} {i j : NodeIdx} (h : i ≠ j) : a.before i j ∨ a.before j i := by
  unfold Arena.before
  simp only [BitVec.lt_def, ← BitVec.toNat_inj, Ne] at *
  omega

theorem Arena.least_none {a : Arena} {q : List NodeIdx} (h : a.least q = none) : q = [] := by
  cases q with
  | nil => rfl
  | cons i q =>
    rw [Arena.least] at h
    split at h
    · cases h
    · split at h <;> cases h

/-- The least candidate is a candidate, and comes before every other. -/
theorem Arena.least_some {a : Arena} {q : List NodeIdx} {j : NodeIdx} (h : a.least q = some j) :
    j ∈ q ∧ ∀ x ∈ q, x ≠ j → a.before j x := by
  induction q generalizing j with
  | nil => cases h
  | cons i q ih =>
    rw [Arena.least] at h
    split at h
    · next hn =>
      cases h
      rw [Arena.least_none hn]
      exact ⟨by simp, fun x hx hne => absurd (by simpa using hx) hne⟩
    · next m hm =>
      obtain ⟨h1, h2⟩ := ih hm
      split at h
      · next hk =>
        cases h
        rw [Arena.keyLess_iff] at hk
        refine ⟨List.mem_cons_of_mem _ h1, fun x hx hne => ?_⟩
        obtain rfl | hx := List.mem_cons.1 hx
        · exact hk
        · exact h2 x hx hne
      · next hk =>
        cases h
        rw [Arena.keyLess_iff] at hk
        refine ⟨by simp, fun x hx hne => ?_⟩
        obtain hxi | hxq := List.mem_cons.1 hx
        · exact absurd hxi hne
        · by_cases hxm : x = m
          · rw [hxm] at hne ⊢
            exact (Arena.before_total hne).resolve_left hk
          · by_cases hmi : m = i
            · exact hmi ▸ h2 x hxq hxm
            · exact Arena.before_trans ((Arena.before_total hmi).resolve_left hk) (h2 x hxq hxm)

/-! ### The merge loop (R124, R127, R128) -/

/-- A node before index `k` that is no child of a node before `k`: a candidate when node `k` is made. -/
def Arena.candidate (a : Arena) (k i : NodeIdx) : Prop :=
  i < k ∧ ∀ m : NodeIdx, m < k → (a.at m).hasChild i = false

/-- Node `k` was made of the two least candidates of its time, without overflow. -/
structure Arena.merged (a : Arena) (k l r : NodeIdx) (f : Freq) : Prop where
  left : a.candidate k l
  right : a.candidate k r
  ne : l ≠ r
  first : ∀ i, a.candidate k i → i ≠ l → a.before l i
  second : ∀ i, a.candidate k i → i ≠ l → i ≠ r → a.before r i
  sum : f = (a.at l).freq + (a.at r).freq
  exact : f.toNat = (a.at l).freq.toNat + (a.at r).freq.toNat

/-- How a node was made depends on the nodes before it only. -/
theorem Arena.merged.congr {a b : Arena} {k l r : NodeIdx} {f : Freq} (h : a.merged k l r f)
    (he : ∀ m : NodeIdx, m < k → b.at m = a.at m) : b.merged k l r f := by
  have hc : ∀ i, b.candidate k i ↔ a.candidate k i := by
    intro i
    refine and_congr_right fun _ => forall_congr' fun m => ?_
    refine ⟨fun g hm => ?_, fun g hm => ?_⟩
    · rw [← he m hm]; exact g hm
    · rw [he m hm]; exact g hm
  have hb : ∀ i j, i < k → j < k → (b.before i j ↔ a.before i j) := by
    intro i j hi hj
    unfold Arena.before
    rw [he i hi, he j hj]
  have hl := h.left.1
  have hr := h.right.1
  exact
    { left := (hc l).2 h.left
      right := (hc r).2 h.right
      ne := h.ne
      first := fun i hi hne => (hb l i hl hi.1).2 (h.first i ((hc i).1 hi) hne)
      second := fun i hi h1 h2 => (hb r i hr hi.1).2 (h.second i ((hc i).1 hi) h1 h2)
      sum := by rw [he l hl, he r hr]; exact h.sum
      exact := by rw [he l hl, he r hr]; exact h.exact }

/-- The merge loop has made the nodes below `k` out of the leaves of `syms`, and holds the candidates in `q`. -/
structure Merging (h : Hist) (syms : List Byte) (a : Arena) (q : List NodeIdx) (k : Nat) : Prop where
  nodup : q.Nodup
  low : syms.length ≤ k
  size : q.length + k = 2 * syms.length
  leaf : ∀ i : NodeIdx, ∀ hi : i.toNat < syms.length, a.at i = .leaf syms[i.toNat] ((h.at syms[i.toNat]).setWidth 40)
  inner : ∀ i : NodeIdx, syms.length ≤ i.toNat → i.toNat < k → ∃ l r f, a.at i = .internal l r f ∧ a.merged i l r f
  empty : ∀ i : NodeIdx, k ≤ i.toNat → a.at i = .empty
  cand : ∀ i : NodeIdx, i ∈ q ↔ i.toNat < k ∧ ∀ m : NodeIdx, m.toNat < k → (a.at m).hasChild i = false
  parents : ∀ i : NodeIdx, i.toNat < k → a.parents k i = if i ∈ q then 0 else 1
  sum : (q.map fun i => (a.at i).freq.toNat).sum = (syms.map fun c => (h.at c).toNat).sum

theorem ofNat_toNat_of_lt {k : Nat} (h : k < 512) : (BitVec.ofNat 9 k).toNat = k := by
  rw [BitVec.toNat_ofNat]; omega

/-- One turn of the loop. -/
theorem Merging.step {h : Hist} {syms : List Byte} {a : Arena} {q : List NodeIdx} {k : Nat} (hm : Merging h syms a q k)
    (hn : syms.length ≤ 256) (htot : (syms.map fun c => (h.at c).toNat).sum < 2 ^ 40) {i j : NodeIdx}
    (hi : a.least q = some i) (hj : a.least (q.erase i) = some j) :
    Merging h syms (a.put (BitVec.ofNat 9 k) (.internal i j ((a.at i).freq + (a.at j).freq)))
      (BitVec.ofNat 9 k :: (q.erase i).erase j) (k + 1) := by
  obtain ⟨hiq, hi2⟩ := Arena.least_some hi
  obtain ⟨hjq, hj2⟩ := Arena.least_some hj
  have hmem1 : ∀ x, x ∈ q.erase i ↔ x ≠ i ∧ x ∈ q := fun x => hm.nodup.mem_erase_iff
  have hnd1 : (q.erase i).Nodup := hm.nodup.erase i
  have hmem2 : ∀ x, x ∈ (q.erase i).erase j ↔ x ≠ j ∧ x ≠ i ∧ x ∈ q := fun x => by
    rw [hnd1.mem_erase_iff, hmem1]
  have hjq' : j ∈ q := ((hmem1 j).1 hjq).2
  have hne : i ≠ j := fun e => ((hmem1 j).1 hjq).1 e.symm
  have hl1 : (q.erase i).length + 1 = q.length := by rw [List.length_erase_of_mem hiq]; have := List.length_pos_of_mem hiq; omega
  have hl2 : ((q.erase i).erase j).length + 1 = (q.erase i).length := by
    rw [List.length_erase_of_mem hjq]; have := List.length_pos_of_mem hjq; omega
  have hsize := hm.size
  have hk : (BitVec.ofNat 9 k).toNat = k := ofNat_toNat_of_lt (by omega)
  have hilt := ((hm.cand i).1 hiq).1
  have hjlt := ((hm.cand j).1 hjq').1
  have hat : ∀ m : NodeIdx, m.toNat < k →
      (a.put (BitVec.ofNat 9 k) (.internal i j ((a.at i).freq + (a.at j).freq))).at m = a.at m := by
    intro m hmk
    rw [Arena.at_put, if_neg]
    intro e; rw [e, hk] at hmk; omega
  have hnew : (a.put (BitVec.ofNat 9 k) (.internal i j ((a.at i).freq + (a.at j).freq))).at (BitVec.ofNat 9 k) =
      .internal i j ((a.at i).freq + (a.at j).freq) := Arena.at_put_same _ _ _
  have hs1 := List.sum_map_erase (fun x => (a.at x).freq.toNat) hiq
  have hs2 := List.sum_map_erase (fun x => (a.at x).freq.toNat) hjq
  have hsum := hm.sum
  have hexact : ((a.at i).freq + (a.at j).freq).toNat = (a.at i).freq.toNat + (a.at j).freq.toNat := by
    rw [BitVec.toNat_add]; omega
  have hchild : ∀ x : NodeIdx, (Node.internal i j ((a.at i).freq + (a.at j).freq)).hasChild x = true ↔ i = x ∨ j = x := by
    intro x; simp [Node.hasChild]
  have hkq : BitVec.ofNat 9 k ∉ q := by
    intro hq
    have := ((hm.cand _).1 hq).1
    omega
  generalize hb : a.put (BitVec.ofNat 9 k) (.internal i j ((a.at i).freq + (a.at j).freq)) = b at *
  have hcandk : ∀ x : NodeIdx, b.candidate (BitVec.ofNat 9 k) x ↔ x ∈ q := by
    intro x
    rw [hm.cand]
    unfold Arena.candidate
    simp only [BitVec.lt_def, hk]
    refine and_congr_right fun _ => forall_congr' fun m => ?_
    refine ⟨fun g hmk => ?_, fun g hmk => ?_⟩
    · rw [← hat m hmk]; exact g hmk
    · rw [hat m hmk]; exact g hmk
  have hbef : ∀ x y : NodeIdx, x.toNat < k → y.toNat < k → a.before x y → b.before x y := by
    intro x y hx hy g
    unfold Arena.before at *
    rw [hat x hx, hat y hy]
    exact g
  refine
    { nodup := ?_, low := by have := hm.low; omega, size := ?_, leaf := ?_, inner := ?_, empty := ?_, cand := ?_,
      parents := ?_, sum := ?_ }
  · rw [List.nodup_cons]
    exact ⟨fun hx => hkq ((hmem2 _).1 hx).2.2, hnd1.erase j⟩
  · rw [List.length_cons]; omega
  · intro x hx
    rw [hat x (by have := hm.low; omega)]
    exact hm.leaf x hx
  · intro x hx hxk
    by_cases e : x.toNat = k
    · have : x = BitVec.ofNat 9 k := BitVec.eq_of_toNat_eq (by rw [e, hk])
      subst this
      refine ⟨i, j, _, hnew, ?_⟩
      exact
        { left := (hcandk i).2 hiq
          right := (hcandk j).2 hjq'
          ne := hne
          first := fun x hx hxi => by
            have hxq := (hcandk x).1 hx
            exact hbef i x hilt ((hm.cand x).1 hxq).1 (hi2 x hxq hxi)
          second := fun x hx hxi hxj => by
            have hxq := (hcandk x).1 hx
            exact hbef j x hjlt ((hm.cand x).1 hxq).1 (hj2 x ((hmem1 x).2 ⟨hxi, hxq⟩) hxj)
          sum := by rw [hat i hilt, hat j hjlt]
          exact := by rw [hat i hilt, hat j hjlt]; exact hexact }
    · obtain ⟨l, r, f, g1, g2⟩ := hm.inner x hx (by omega)
      refine ⟨l, r, f, by rw [hat x (by omega)]; exact g1, g2.congr fun m hmx => hat m ?_⟩
      rw [BitVec.lt_def] at hmx; omega
  · intro x hx
    rw [← hb, Arena.at_put, if_neg]
    · exact hm.empty x (by omega)
    · intro e; rw [e, hk] at hx; omega
  · intro x
    rw [List.mem_cons, hmem2, hm.cand]
    constructor
    · rintro (rfl | ⟨hxj, hxi, hxk, hxm⟩)
      · refine ⟨by omega, fun m hmk => ?_⟩
        by_cases e : m.toNat = k
        · have : m = BitVec.ofNat 9 k := BitVec.eq_of_toNat_eq (by rw [e, hk])
          subst this
          rw [hnew, Bool.eq_false_iff, Ne, hchild]
          rintro (e | e)
          · rw [e, hk] at hilt; omega
          · rw [e, hk] at hjlt; omega
        · rw [hat m (by omega)]
          by_cases hml : m.toNat < syms.length
          · rw [hm.leaf m hml]; rfl
          · obtain ⟨l, r, f, g1, g2⟩ := hm.inner m (by omega) (by omega)
            have h1 := g2.left.1
            have h2 := g2.right.1
            rw [BitVec.lt_def] at h1 h2
            rw [g1, Bool.eq_false_iff, Ne]
            simp only [Node.hasChild, Bool.or_eq_true, decide_eq_true_eq]
            rintro (e | e)
            · rw [e, hk] at h1; omega
            · rw [e, hk] at h2; omega
      · refine ⟨by omega, fun m hmk => ?_⟩
        by_cases e : m.toNat = k
        · have : m = BitVec.ofNat 9 k := BitVec.eq_of_toNat_eq (by rw [e, hk])
          subst this
          rw [hnew, Bool.eq_false_iff, Ne, hchild]
          rintro (e | e)
          · exact hxi e.symm
          · exact hxj e.symm
        · rw [hat m (by omega)]
          exact hxm m (by omega)
    · rintro ⟨hxk, hxm⟩
      by_cases e : x.toNat = k
      · exact .inl (BitVec.eq_of_toNat_eq (by rw [e, hk]))
      · have g := hxm (BitVec.ofNat 9 k) (by omega)
        rw [hnew, Bool.eq_false_iff, Ne, hchild] at g
        refine .inr ⟨fun e => g (.inr e.symm), fun e => g (.inl e.symm), by omega, fun m hmk => ?_⟩
        rw [← hat m hmk]
        exact hxm m (by omega)
  · intro x hxk
    have hcount : b.parents (k + 1) x =
        a.parents k x + if (Node.internal i j ((a.at i).freq + (a.at j).freq)).hasChild x = true then 1 else 0 := by
      unfold Arena.parents
      rw [List.range_succ, List.filter_append, List.length_append]
      congr 1
      · congr 1
        refine List.filter_congr fun m hmr => ?_
        rw [List.mem_range] at hmr
        rw [hat _ (by rw [ofNat_toNat_of_lt (by omega)]; exact hmr)]
      · rw [List.filter_singleton, hnew]
        cases (Node.internal i j ((a.at i).freq + (a.at j).freq)).hasChild x <;> rfl
    rw [hcount]
    simp only [hchild]
    by_cases e : x.toNat = k
    · have hx : x = BitVec.ofNat 9 k := BitVec.eq_of_toNat_eq (by rw [e, hk])
      have h0 : a.parents k x = 0 := by
        unfold Arena.parents
        rw [List.length_eq_zero_iff, List.filter_eq_nil_iff]
        intro m hmr
        rw [List.mem_range] at hmr
        have hmk : (BitVec.ofNat 9 m).toNat = m := ofNat_toNat_of_lt (by omega)
        by_cases hml : m < syms.length
        · rw [hm.leaf (BitVec.ofNat 9 m) (by omega)]; simp [Node.hasChild]
        · obtain ⟨l, r, f, g1, g2⟩ := hm.inner (BitVec.ofNat 9 m) (by omega) (by omega)
          have h1 := g2.left.1
          have h2 := g2.right.1
          rw [BitVec.lt_def] at h1 h2
          rw [g1]
          simp only [Node.hasChild, Bool.or_eq_true, decide_eq_true_eq]
          rintro (e' | e')
          · rw [e'] at h1; omega
          · rw [e'] at h2; omega
      rw [h0, if_neg, if_pos (by rw [hx]; exact List.mem_cons_self)]
      rintro (e' | e')
      · rw [← e'] at e; omega
      · rw [← e'] at e; omega
    · have hxne : x ≠ BitVec.ofNat 9 k := fun e' => e (by rw [e', hk])
      rw [hm.parents x (by omega)]
      by_cases hxi : i = x
      · subst hxi
        rw [if_pos hiq, if_pos (.inl rfl), if_neg]
        rw [List.mem_cons, hmem2]
        rintro (e' | e')
        · exact hxne e'
        · exact e'.2.1 rfl
      · by_cases hxj : j = x
        · subst hxj
          rw [if_pos hjq', if_pos (.inr rfl), if_neg]
          rw [List.mem_cons, hmem2]
          rintro (e' | e')
          · exact hxne e'
          · exact e'.1 rfl
        · have : x ∈ BitVec.ofNat 9 k :: (q.erase i).erase j ↔ x ∈ q := by
            rw [List.mem_cons, hmem2]
            exact ⟨fun g => g.elim (fun g => absurd g hxne) fun g => g.2.2,
              fun g => .inr ⟨fun e' => hxj e'.symm, fun e' => hxi e'.symm, g⟩⟩
          have hno : ¬ (i = x ∨ j = x) := fun g => g.elim hxi hxj
          rw [if_neg hno, Nat.add_zero]
          simp only [this]
  · rw [List.map_cons, List.sum_cons, hnew]
    have : ((q.erase i).erase j).map (fun x => (b.at x).freq.toNat) =
        ((q.erase i).erase j).map (fun x => (a.at x).freq.toNat) := by
      refine List.map_congr_left fun x hx => ?_
      rw [hat x ((hm.cand x).1 ((hmem2 x).1 hx).2.2).1]
    rw [this, show (Node.internal i j ((a.at i).freq + (a.at j).freq)).freq = (a.at i).freq + (a.at j).freq from rfl,
      hexact, ← hsum, ← hs1, ← hs2]
    omega

/-- The whole loop, with enough fuel, ends with one candidate and all nodes made. -/
theorem mergeLoop_merging {h : Hist} {syms : List Byte} (hn : syms.length ≤ 256) (h1 : 1 ≤ syms.length)
    (htot : (syms.map fun c => (h.at c).toNat).sum < 2 ^ 40) (fuel : Nat) {a : Arena} {q : List NodeIdx} {k : Nat}
    (hm : Merging h syms a q k) (hq : 1 ≤ q.length) (hf : q.length ≤ fuel) :
    ∃ b r, mergeLoop fuel a q (BitVec.ofNat 9 k) = (b, BitVec.ofNat 9 (2 * syms.length - 1)) ∧
      Merging h syms b [r] (2 * syms.length - 1) := by
  induction fuel generalizing a q k with
  | zero => omega
  | succ fuel ih =>
    have hsize := hm.size
    rw [mergeLoop]
    split
    · next hl => rw [Arena.least_none hl] at hq; simp at hq
    · next i hi =>
      have hiq := (Arena.least_some hi).1
      have hl1 : (q.erase i).length + 1 = q.length := by
        rw [List.length_erase_of_mem hiq]; omega
      split
      · next hl =>
        have := Arena.least_none hl
        rw [this, List.length_nil] at hl1
        obtain ⟨r, rfl⟩ := List.length_eq_one_iff.1 hl1.symm
        have hk : k = 2 * syms.length - 1 := by simp at hsize; omega
        subst hk
        exact ⟨a, r, rfl, hm⟩
      · next j hj =>
        have hjq := (Arena.least_some hj).1
        have hl2 : ((q.erase i).erase j).length + 1 = (q.erase i).length := by
          rw [List.length_erase_of_mem hjq]; have := List.length_pos_of_mem hjq; omega
        have hnext : BitVec.ofNat 9 k + 1 = BitVec.ofNat 9 (k + 1) := by
          apply BitVec.eq_of_toNat_eq; simp
        rw [hnext]
        exact ih (hm.step hn htot hi hj) (by rw [List.length_cons]; omega) (by rw [List.length_cons]; omega)

/-- The loop's start: the leaves, all of them candidates. -/
theorem Merging.start {h : Hist} {syms : List Byte} (hn : syms.length ≤ 256) :
    Merging h syms (seedLeaves h syms 0 Arena.empty) ((List.range syms.length).map (BitVec.ofNat 9)) syms.length := by
  have hat := seedLeaves_at h syms 0 Arena.empty (by simp; omega)
  have hleaf : ∀ i : NodeIdx, ∀ hi : i.toNat < syms.length,
      (seedLeaves h syms 0 Arena.empty).at i = .leaf syms[i.toNat] ((h.at syms[i.toNat]).setWidth 40) := by
    intro i hi
    rw [hat, dif_pos (by simpa using hi)]
    simp
  have hmem : ∀ i : NodeIdx, i ∈ (List.range syms.length).map (BitVec.ofNat 9) ↔ i.toNat < syms.length := by
    intro i
    rw [List.mem_map]
    constructor
    · rintro ⟨m, hm, rfl⟩
      rw [List.mem_range] at hm
      rw [ofNat_toNat_of_lt (by omega)]; exact hm
    · intro hi
      exact ⟨i.toNat, List.mem_range.2 hi, by simp⟩
  refine
    { nodup := ?_, low := Nat.le_refl _, size := by simp; omega, leaf := hleaf, inner := fun i h1 h2 => by omega,
      empty := ?_, cand := ?_, parents := ?_, sum := ?_ }
  · refine List.Nodup.map_on ?_ List.nodup_range
    intro x hx y hy e
    rw [List.mem_range] at hx hy
    have := congrArg BitVec.toNat e
    rwa [ofNat_toNat_of_lt (by omega), ofNat_toNat_of_lt (by omega)] at this
  · intro i hi
    rw [hat, dif_neg (by simpa using hi), Arena.at_empty]
  · intro i
    rw [hmem]
    refine ⟨fun hi => ⟨hi, fun m hm => by rw [hleaf m hm]; rfl⟩, fun hi => hi.1⟩
  · intro i hi
    rw [if_pos ((hmem i).2 hi)]
    unfold Arena.parents
    rw [List.length_eq_zero_iff, List.filter_eq_nil_iff]
    intro m hm
    rw [List.mem_range] at hm
    rw [hleaf (BitVec.ofNat 9 m) (by rw [ofNat_toNat_of_lt (by omega)]; exact hm)]
    simp [Node.hasChild]
  · rw [List.map_map]
    congr 1
    apply List.ext_getElem
    · simp
    · intro m h1 h2
      simp only [List.length_map, List.length_range] at h1
      have hmk : (BitVec.ofNat 9 m).toNat = m := ofNat_toNat_of_lt (by omega)
      have hl := hleaf (BitVec.ofNat 9 m) (by omega)
      simp only [hmk] at hl
      simp only [List.getElem_map, List.getElem_range, Function.comp, hl, Node.freq]
      rw [BitVec.toNat_setWidth]
      have := (h.at syms[m]).isLt
      omega

/-! ### The result of BUILD -/

/-- BUILD of no symbol (R126). -/
theorem buildTree_none {h : Hist} (h0 : h.present.length = 0) :
    buildTree h = ⟨Arena.empty, ⟨0, false, false⟩, 0, 0⟩ := by
  have : h.present = [] := List.length_eq_zero_iff.1 h0
  simp only [buildTree, this]
  rfl

/-- BUILD of one symbol (R125). -/
theorem buildTree_one {h : Hist} {c : Byte} (h1 : h.present = [c]) :
    (buildTree h).root = ⟨1, true, true⟩ ∧ (buildTree h).nsym = 1 ∧ (buildTree h).nodeCnt = 2 ∧
    (buildTree h).node.at 0 = .leaf c ((h.at c).setWidth 40) ∧
    (buildTree h).node.at 1 = .synth 0 ((h.at c).setWidth 40) ∧
    ∀ i : NodeIdx, 2 ≤ i.toNat → (buildTree h).node.at i = .empty := by
  have hb : buildTree h =
      ⟨(seedLeaves h [c] 0 Arena.empty).put 1 (.synth 0 ((seedLeaves h [c] 0 Arena.empty).at 0).freq),
        ⟨1, true, true⟩, 1, 2⟩ := by
    simp only [buildTree, h1]
    rfl
  have h0 : (seedLeaves h [c] 0 Arena.empty).at 0 = .leaf c ((h.at c).setWidth 40) := by
    simp [seedLeaves]
  rw [hb]
  refine ⟨rfl, rfl, rfl, ?_, ?_, ?_⟩
  · rw [Arena.at_put, if_neg (by decide), h0]
  · rw [Arena.at_put_same, h0]; rfl
  · intro i hi
    have h2 : i ≠ 1 := by rintro rfl; simp at hi
    have h3 : i ≠ 0 := by rintro rfl; simp at hi
    show (Arena.put _ _ _).at i = _
    rw [Arena.at_put, if_neg h2]
    rw [seedLeaves, seedLeaves, Arena.at_put, if_neg h3, Arena.at_empty]

/-- BUILD of two symbols or more (R127). -/
theorem buildTree_many {h : Hist} (h2 : 2 ≤ h.present.length) :
    ∃ r, (buildTree h).root = ⟨BitVec.ofNat 9 (2 * h.present.length - 2), true, false⟩ ∧
      (buildTree h).nsym = BitVec.ofNat 9 h.present.length ∧
      (buildTree h).nodeCnt = BitVec.ofNat 10 (2 * h.present.length - 1) ∧
      Merging h h.present (buildTree h).node [r] (2 * h.present.length - 1) := by
  have hn := h.length_present_le
  obtain ⟨b, r, hb, hm⟩ := mergeLoop_merging hn (by omega) (by rw [h.sum_present]; exact h.total_lt)
    h.present.length (Merging.start hn) (by simp; omega) (by simp)
  refine ⟨r, ?_⟩
  have ht : buildTree h =
      ⟨b, ⟨BitVec.ofNat 9 (2 * h.present.length - 1) - 1, true, false⟩, BitVec.ofNat 9 h.present.length,
        BitVec.ofNat 10 (2 * h.present.length - 1)⟩ := by
    simp only [buildTree]
    rw [if_neg (by omega), if_neg (by omega), hb]
  rw [ht]
  refine ⟨?_, rfl, rfl, hm⟩
  show Root.mk _ _ _ = _
  congr 1
  apply BitVec.eq_of_toNat_eq
  rw [BitVec.toNat_sub, ofNat_toNat_of_lt (by omega), ofNat_toNat_of_lt (by omega)]
  simp; omega

/-- A finished merge has the last node made as its one candidate. -/
theorem Merging.root {h : Hist} {syms : List Byte} {a : Arena} {r : NodeIdx} (hn : syms.length ≤ 256)
    (h2 : 2 ≤ syms.length) (hm : Merging h syms a [r] (2 * syms.length - 1)) :
    r = BitVec.ofNat 9 (2 * syms.length - 2) := by
  have hk : (BitVec.ofNat 9 (2 * syms.length - 2)).toNat = 2 * syms.length - 2 := ofNat_toNat_of_lt (by omega)
  have : BitVec.ofNat 9 (2 * syms.length - 2) ∈ [r] := by
    rw [hm.cand]
    refine ⟨by omega, fun m hmk => ?_⟩
    by_cases hml : m.toNat < syms.length
    · rw [hm.leaf m hml]; rfl
    · obtain ⟨l, r', f, g1, g2⟩ := hm.inner m (by omega) (by omega)
      have h1 := g2.left.1
      have h2 := g2.right.1
      rw [BitVec.lt_def] at h1 h2
      rw [g1, Bool.eq_false_iff, Ne]
      simp only [Node.hasChild, Bool.or_eq_true, decide_eq_true_eq]
      rintro (e | e)
      · rw [e, hk] at h1; omega
      · rw [e, hk] at h2; omega
  rw [List.mem_singleton] at this
  exact this.symm

/-- A finished merge over symbols in strictly increasing order is a full tree (R35). -/
theorem Merging.treeFull {h : Hist} {syms : List Byte} {s : State} {r : NodeIdx} (hn : syms.length ≤ 256)
    (h2 : 2 ≤ syms.length) (hs : syms.Pairwise (· < ·))
    (hm : Merging h syms s.node [r] (2 * syms.length - 1))
    (hroot : s.root = ⟨BitVec.ofNat 9 (2 * syms.length - 2), true, false⟩)
    (hnsym : s.nsym = BitVec.ofNat 9 syms.length) (hcnt : s.nodeCnt = BitVec.ofNat 10 (2 * syms.length - 1)) :
    s.treeFull syms.length := by
  refine ⟨h2, hn, hroot, hnsym, hcnt, ?_, ?_, ?_, ?_, hm.empty⟩
  · intro i hi; rw [hm.leaf i hi]; rfl
  · intro i j hij hj
    rw [BitVec.lt_def] at hij
    rw [hm.leaf i (by omega), hm.leaf j hj]
    exact List.pairwise_iff_getElem.1 hs _ _ _ _ hij
  · intro i h1 hi
    obtain ⟨l, r', f, g1, g2⟩ := hm.inner i h1 hi
    exact ⟨l, r', f, g1, g2.left.1, g2.right.1, g2.ne, g2.exact⟩
  · intro i hi
    rw [hm.parents i (by omega), if_neg]
    rw [List.mem_singleton, hm.root hn h2]
    intro e
    rw [e, ofNat_toNat_of_lt (by omega)] at hi
    omega

/-- Every internal node BUILD leaves was made of the two least candidates of its time, whatever the histogram. -/
theorem buildTree_merged {h : Hist} {i l r : NodeIdx} {f : Freq} (hi : (buildTree h).node.at i = .internal l r f) :
    (buildTree h).node.merged i l r f := by
  by_cases h0 : h.present.length = 0
  · rw [buildTree_none h0, Arena.at_empty] at hi; cases hi
  by_cases h1 : h.present.length = 1
  · obtain ⟨c, hc⟩ := List.length_eq_one_iff.1 h1
    obtain ⟨-, -, -, h4, h5, h6⟩ := buildTree_one hc
    by_cases e0 : i = 0
    · rw [e0, h4] at hi; cases hi
    by_cases e1 : i = 1
    · rw [e1, h5] at hi; cases hi
    have e0 : i.toNat ≠ 0 := fun e => e0 (BitVec.eq_of_toNat_eq e)
    have e1 : i.toNat ≠ 1 := fun e => e1 (BitVec.eq_of_toNat_eq e)
    rw [h6 i (by omega)] at hi
    cases hi
  · obtain ⟨_, -, -, -, hm⟩ := buildTree_many (h := h) (by omega)
    by_cases h2 : i.toNat < h.present.length
    · rw [hm.leaf i h2] at hi; cases hi
    by_cases h3 : i.toNat < 2 * h.present.length - 1
    · obtain ⟨_, _, _, g1, g2⟩ := hm.inner i (by omega) h3
      rw [hi] at g1
      cases g1
      exact g2
    · rw [hm.empty i (by omega)] at hi; cases hi

/-- The leaves BUILD leaves are the symbols with a count. -/
theorem buildTree_leaf_iff {h : Hist} {c : Byte} : (∃ i f, (buildTree h).node.at i = .leaf c f) ↔ h.at c ≠ 0 := by
  rw [← Hist.mem_present]
  by_cases h0 : h.present.length = 0
  · rw [buildTree_none h0, List.length_eq_zero_iff.1 h0]; simp
  by_cases h1 : h.present.length = 1
  · obtain ⟨d, hd⟩ := List.length_eq_one_iff.1 h1
    obtain ⟨-, -, -, h4, h5, h6⟩ := buildTree_one hd
    rw [hd, List.mem_singleton]
    constructor
    · rintro ⟨i, g, hi⟩
      by_cases e0 : i = 0
      · rw [e0, h4] at hi; cases hi; rfl
      by_cases e1 : i = 1
      · rw [e1, h5] at hi; cases hi
      have e0 : i.toNat ≠ 0 := fun e => e0 (BitVec.eq_of_toNat_eq e)
      have e1 : i.toNat ≠ 1 := fun e => e1 (BitVec.eq_of_toNat_eq e)
      rw [h6 i (by omega)] at hi
      cases hi
    · rintro rfl
      exact ⟨0, _, h4⟩
  · have hn := h.length_present_le
    obtain ⟨_, -, -, -, hm⟩ := buildTree_many (h := h) (by omega)
    constructor
    · rintro ⟨i, f, hi⟩
      by_cases h2 : i.toNat < h.present.length
      · rw [hm.leaf i h2] at hi
        cases hi
        exact List.getElem_mem _
      by_cases h3 : i.toNat < 2 * h.present.length - 1
      · obtain ⟨_, _, _, g1, -⟩ := hm.inner i (by omega) h3
        rw [hi] at g1; cases g1
      · rw [hm.empty i (by omega)] at hi; cases hi
    · intro hc
      obtain ⟨k, hk, rfl⟩ := List.getElem_of_mem hc
      have hkk := ofNat_toNat_of_lt (k := k) (by omega)
      have := hm.leaf (BitVec.ofNat 9 k) (by omega)
      simp only [hkk] at this
      exact ⟨_, _, this⟩

/-- A state that holds what BUILD makes of some histogram keeps R35. -/
theorem buildTree_treeInv {s : State} {h : Hist} (hn : s.node = (buildTree h).node) (hr : s.root = (buildTree h).root)
    (hs : s.nsym = (buildTree h).nsym) (hc : s.nodeCnt = (buildTree h).nodeCnt) : s.treeInv := by
  by_cases h0 : h.present.length = 0
  · rw [buildTree_none h0] at hn hr hs hc
    exact .inl ⟨hr, hc, hs, fun i => by rw [hn]; exact Arena.at_empty i⟩
  by_cases h1 : h.present.length = 1
  · obtain ⟨c, hcc⟩ := List.length_eq_one_iff.1 h1
    obtain ⟨h2, h3, h4, h5, h6, h7⟩ := buildTree_one hcc
    exact .inr (.inl ⟨hr.trans h2, hs.trans h3, hc.trans h4,
      ⟨c, _, by rw [hn]; exact h5, by rw [hn]; exact h6⟩, fun i hi => by rw [hn]; exact h7 i hi⟩)
  · obtain ⟨r, h2, h3, h4, hm⟩ := buildTree_many (h := h) (by omega)
    rw [← hn] at hm
    exact .inr (.inr ⟨_, hm.treeFull h.length_present_le (by omega) h.present_sorted (hr.trans h2) (hs.trans h3)
      (hc.trans h4)⟩)

end Sys2Proof.Machine
end

