-- ==== Sys2Proof/Laws/CountLoop.lean ====
section
/-! SUPPORT. What the counting loop of COUNT leaves, and where it faults. -/

namespace Sys2Proof.Machine

/-- The loop over written symbols counts them one after the other and goes on behind them. -/
theorem countLoop_run (s : State) (xs : List Byte) (m i : Nat) (h : Hist)
    (hx : ∀ k (hk : k < xs.length), s.inMem.read (i + k) = some xs[k]) :
    countLoop s (xs.length + m) i h = countLoop s m (i + xs.length) (xs.foldl Hist.bump h) := by
  induction xs generalizing i h with
  | nil => simp
  | cons x xs ih =>
    have h0 := hx 0 (by simp)
    simp only [Nat.add_zero, List.getElem_cons_zero] at h0
    rw [List.length_cons, show xs.length + 1 + m = (xs.length + m) + 1 by omega, countLoop]
    simp only [State.inSymbol, h0]
    rw [ih (i + 1) (h.bump x)]
    · rw [List.foldl_cons, show i + 1 + xs.length = i + (xs.length + 1) by omega]
    · intro k hk
      have := hx (k + 1) (by simpa using hk)
      simpa [Nat.add_assoc, Nat.add_comm 1 k] using this

/-- Counting keeps every entry exact while the total fits 32 bits (R110). -/
theorem foldl_bump_at (xs : List Byte) (h : Hist) (c : Byte) (hfit : (h.at c).toNat + xs.length < 2 ^ 32) :
    ((xs.foldl Hist.bump h).at c).toNat = (h.at c).toNat + xs.count c := by
  induction xs generalizing h with
  | nil => simp
  | cons x xs ih =>
    simp only [List.length_cons] at hfit
    rw [List.foldl_cons, ih]
    · simp only [Hist.bump, Hist.at_put]
      by_cases hc : c = x
      · subst hc
        simp only [if_true, List.count_cons_self, BitVec.toNat_add]
        simp only [BitVec.ofNat_eq_ofNat, BitVec.toNat_ofNat]
        omega
      · simp [hc, Ne.symm hc]
    · simp only [Hist.bump, Hist.at_put]
      by_cases hc : c = x
      · subst hc
        simp only [if_true, BitVec.toNat_add, BitVec.ofNat_eq_ofNat, BitVec.toNat_ofNat]
        omega
      · simp only [hc, if_false]; omega

/-- COUNT's whole loop over a written input gives its exact counts. -/
theorem countLoop_input {s : State} {xs : List Byte} (h : s.inputIs xs) :
    countLoop s s.inLen.toNat 0 Hist.zero = .ok (xs.foldl Hist.bump Hist.zero) ∧
    ∀ c, ((xs.foldl Hist.bump Hist.zero).at c).toNat = xs.count c := by
  obtain ⟨hl, hx⟩ := h
  have hrun := countLoop_run s xs 0 0 Hist.zero (by simpa using hx)
  have hlt := s.inLen.isLt
  refine ⟨by rw [hl]; exact hrun, fun c => ?_⟩
  rw [foldl_bump_at]
  · simp
  · simp; omega

/-- The counts of a list over symbols that hold all of its members, each once, add up to its length. -/
theorem sum_counts (xs : List Byte) {l : List Byte} (hl : l.Nodup) (hx : ∀ x ∈ xs, x ∈ l) :
    (l.map fun c => xs.count c).sum = xs.length := by
  induction xs with
  | nil => simp
  | cons x xs ih =>
    have h2 : (l.map fun c => if x = c then 1 else 0).sum = 1 := by
      have := List.count_eq_one_of_mem hl (hx x (by simp))
      refine Eq.trans ?_ this
      clear this hl hx ih
      induction l with
      | nil => rfl
      | cons y l ih =>
        rw [List.map_cons, List.sum_cons, ih, List.count_cons]
        by_cases h : x = y
        · simp [h]; omega
        · simp [h, Ne.symm h]
    rw [List.length_cons, ← ih (fun y hy => hx y (List.mem_cons_of_mem _ hy)), ← h2, ← List.sum_map_add]
    congr 1
    apply List.map_congr_left
    intro c _
    rw [List.count_cons]
    simp

/-- The loop faults only by reading a byte of IN_MEM that nothing has written. -/
theorem countLoop_fault {s : State} {n i : Nat} {h : Hist} {f : Fault} (hl : countLoop s n i h = .error f) :
    ∃ j, i ≤ j ∧ j < i + n ∧ s.inMem.read j = none ∧ f = .uninitRead .inMem j := by
  induction n generalizing i h with
  | zero => cases hl
  | succ n ih =>
    simp only [countLoop, State.inSymbol] at hl
    cases hr : s.inMem.read i with
    | none => rw [hr] at hl; cases hl; exact ⟨i, by omega, by omega, hr, rfl⟩
    | some c =>
      rw [hr] at hl
      obtain ⟨j, h1, h2, h3, h4⟩ := ih hl
      exact ⟨j, by omega, by omega, h3, h4⟩

/-- The loop reads IN_MEM and nothing else. -/
theorem countLoop_congr {s s' : State} (h : s.inMem = s'.inMem) (n i : Nat) (t : Hist) :
    countLoop s n i t = countLoop s' n i t := by
  induction n generalizing i t with
  | zero => rfl
  | succ n ih => simp only [countLoop, State.inSymbol, h, ih]

end Sys2Proof.Machine
end

