-- ==== Sys2Proof/Laws/DecodeLoop.lean ====
section
/-! SUPPORT. The walk of DECODE: where a tree that keeps R35 lets it go, what the decoding loop leaves, and where it faults. -/

namespace Sys2Proof.Machine

/-- A node DECODE can walk on from. -/
def Node.isInternal : Node → Bool
  | .internal _ _ _ => true
  | .empty => false
  | .leaf _ _ => false
  | .synth _ _ => false

theorem Node.isInternal_iff {n : Node} : n.isInternal = true ↔ ∃ l r f, n = .internal l r f := by
  cases n <;> simp [Node.isInternal]

theorem Node.isLeaf_iff {n : Node} : n.isLeaf = true ↔ ∃ c f, n = .leaf c f := by
  cases n <;> simp [Node.isLeaf]

/-- A child the walk may step to: no NIL, and a leaf or an internal node. -/
def Arena.steppable (a : Arena) (q : NodeIdx) : Prop :=
  q ≠ nil ∧ ((a.at q).isLeaf = true ∨ (a.at q).isInternal = true)

/-- Every child of every internal node is one the walk may step to. -/
def Arena.walks (a : Arena) : Prop :=
  ∀ i l r f, a.at i = .internal l r f → a.steppable l ∧ a.steppable r

/-- In a full tree an index is a leaf, an internal node or empty. -/
theorem State.treeFull_at {s : State} {n : Nat} (h : s.treeFull n) (i : NodeIdx) :
    (i.toNat < n ∧ (s.node.at i).isLeaf = true) ∨
    (n ≤ i.toNat ∧ i.toNat < 2 * n - 1 ∧
      ∃ l r f, s.node.at i = .internal l r f ∧ l < i ∧ r < i ∧ l ≠ r ∧
        f.toNat = (s.node.at l).freq.toNat + (s.node.at r).freq.toNat) ∨
    (2 * n - 1 ≤ i.toNat ∧ s.node.at i = .empty) := by
  obtain ⟨h2, h256, -, -, -, hleaf, -, hint, -, hemp⟩ := h
  by_cases h1 : i.toNat < n
  · exact .inl ⟨h1, hleaf i h1⟩
  · by_cases h3 : i.toNat < 2 * n - 1
    · exact .inr (.inl ⟨by omega, h3, hint i (by omega) h3⟩)
    · exact .inr (.inr ⟨by omega, hemp i (by omega)⟩)

theorem State.treeFull_steppable {s : State} {n : Nat} (h : s.treeFull n) {i : NodeIdx} (hi : i.toNat < 2 * n - 1) :
    s.node.steppable i := by
  have h256 := h.2.1
  refine ⟨fun hn => ?_, ?_⟩
  · rw [hn] at hi; simp [nil] at hi; omega
  · obtain ⟨-, h1⟩ | ⟨-, -, l, r, f, h1, -⟩ | ⟨h1, -⟩ := s.treeFull_at h i
    · exact .inl h1
    · exact .inr (by rw [h1]; rfl)
    · omega

/-- A full tree lets the walk step to every child. -/
theorem State.treeFull_walks {s : State} {n : Nat} (h : s.treeFull n) : s.node.walks := by
  intro i l r f hi
  obtain ⟨-, h1⟩ | ⟨-, h2, l', r', f', h1, hl, hr, -⟩ | ⟨-, h1⟩ := s.treeFull_at h i
  · rw [hi] at h1; cases h1
  · rw [hi] at h1; cases h1
    rw [BitVec.lt_def] at hl hr
    exact ⟨s.treeFull_steppable h (by omega), s.treeFull_steppable h (by omega)⟩
  · rw [hi] at h1; cases h1

/-- The root of a full tree is an internal node. -/
theorem State.treeFull_root {s : State} {n : Nat} (h : s.treeFull n) : (s.node.at s.root.idx).isInternal = true := by
  have hr : s.root.idx.toNat = 2 * n - 2 := by
    have h256 := h.2.1
    rw [h.2.2.1]; simp; omega
  have h2 := h.1
  obtain ⟨h1, -⟩ | ⟨-, -, l, r, f, h1, -⟩ | ⟨h1, -⟩ := s.treeFull_at h s.root.idx
  · omega
  · rw [h1]; rfl
  · omega

/-- A tree that is present and not synthetic is full. -/
theorem State.treeInv_full {s : State} (h : s.treeInv) (hp : s.root.present = true) (hs : s.root.synth = false) :
    ∃ n, s.treeFull n := by
  obtain h | h | h := h
  · rw [h.1] at hp; cases hp
  · rw [h.1] at hs; cases hs
  · exact h

theorem Arena.child_internal {a : Arena} {p l r : NodeIdx} {f : Freq} (hw : a.walks) (hp : a.at p = .internal l r f)
    (b : Bool) : a.child p b = .ok (if b then r else l) ∧ a.steppable (if b then r else l) := by
  have hc := hw p l r f hp
  have hst : a.steppable (if b then r else l) := by cases b; exacts [hc.1, hc.2]
  refine ⟨?_, hst⟩
  have hq : (if b then (a.at p).right else (a.at p).left) = if b then r else l := by rw [hp]; rfl
  have hne : ¬ (a.at (if b then r else l) = .empty) := by
    intro he
    have := hst.2
    rw [he] at this
    simp [Node.isLeaf, Node.isInternal] at this
  simp only [Arena.child, hq]
  rw [if_neg]
  rintro (h1 | h1)
  · exact hst.1 h1
  · exact hne h1

theorem State.streamBit_of_bit {s : State} {k : Nat} {b : Bool} (h : s.bit k = some b) : s.streamBit k = .ok b := by
  simp only [State.bit] at h
  simp only [State.streamBit]
  cases hr : s.bsMem.read (k / 8) with
  | none => rw [hr] at h; cases h
  | some y => rw [hr] at h; cases h; rfl

theorem State.streamBit_of_none {s : State} {k : Nat} (h : s.bit k = none) :
    s.streamBit k = .error (.uninitRead .bsMem (k / 8)) := by
  simp only [State.bit, Option.map_eq_none_iff] at h
  simp only [State.streamBit, h]

/-- Some symbols before those of the rest of the loop. -/
def Decoded.after (syms : List Byte) (r : Decoded) : Decoded := { r with syms := syms ++ r.syms }

@[simp] theorem Decoded.after_nil (r : Decoded) : r.after [] = r := rfl

theorem Decoded.map_after_nil (e : Except Fault Decoded) : e.map (Decoded.after []) = e := by
  cases e <;> rfl

theorem Decoded.map_after_after (xs ys : List Byte) (e : Except Fault Decoded) :
    (e.map (Decoded.after ys)).map (Decoded.after xs) = e.map (Decoded.after (xs ++ ys)) := by
  cases e <;> simp [Except.map, Decoded.after]

theorem Decoded.map_emit (c : Byte) (e : Except Fault Decoded) : e.map (Decoded.emit c) = e.map (Decoded.after [c]) := by
  cases e <;> rfl

/-- One bit of the loop at an internal node: it comes to a leaf and starts anew at the root, or walks on. -/
theorem decodeLoop_bit {s : State} {root p l r : NodeIdx} {f : Freq} {n k start : Nat} {b : Bool} (hw : s.node.walks)
    (hp : s.node.at p = .internal l r f) (hb : s.bit k = some b) :
    (∀ c g, s.node.at (if b then r else l) = .leaf c g →
      decodeLoop s root (n + 1) k p start =
        (decodeLoop s root n (k + 1) root (k + 1)).map (Decoded.after [c])) ∧
    ((s.node.at (if b then r else l)).isInternal = true →
      decodeLoop s root (n + 1) k p start = decodeLoop s root n (k + 1) (if b then r else l) start) := by
  have hc := (Arena.child_internal hw hp b).1
  rw [decodeLoop]
  simp only [State.streamBit_of_bit hb, hc]
  refine ⟨fun c g hq => ?_, fun hq => ?_⟩
  · simp only [hq]; rfl
  · obtain ⟨l', r', f', hq⟩ := Node.isInternal_iff.1 hq
    simp only [hq]

/-- The loop over a path to a leaf gives the leaf's symbol and starts anew at the root. -/
theorem decodeLoop_leafPath {s : State} (hw : s.node.walks) {root : NodeIdx} {c : Byte} (bs : List Bool) {p : NodeIdx}
    (hp : (s.node.at p).isInternal = true) (h : s.node.leafPath p c bs) {m k start : Nat}
    (hb : ∀ j (h : j < bs.length), s.bit (k + j) = some bs[j]) :
    decodeLoop s root (bs.length + m) k p start =
      (decodeLoop s root m (k + bs.length) root (k + bs.length)).map (Decoded.after [c]) := by
  induction bs generalizing p k with
  | nil =>
    obtain ⟨q, f, hq, hl⟩ := h
    cases hq
    rw [hl] at hp; cases hp
  | cons b bs ih =>
    obtain ⟨l, r, f, hi⟩ := Node.isInternal_iff.1 hp
    have h0 : s.bit k = some b := hb 0 (by simp)
    have hb' : ∀ j (h : j < bs.length), s.bit (k + 1 + j) = some bs[j] := by
      intro j hj
      have := hb (j + 1) (by simpa using hj)
      simpa [Nat.add_assoc, Nat.add_comm 1 j] using this
    have hd := decodeLoop_bit (root := root) (n := bs.length + m) (start := start) hw hi h0
    have hst := (Arena.child_internal hw hi b).2
    obtain ⟨q, g, hq, hl⟩ := h
    simp only [Arena.descend, hi] at hq
    rw [List.length_cons, show bs.length + 1 + m = bs.length + m + 1 by omega,
      show k + (bs.length + 1) = k + 1 + bs.length by omega]
    obtain hx | hx := hst.2
    · obtain ⟨c', g', hx⟩ := Node.isLeaf_iff.1 hx
      rw [hd.1 c' g' hx]
      cases bs with
      | nil =>
        cases hq
        rw [hl] at hx; cases hx
        simp
      | cons b' bs => simp only [Arena.descend, hx] at hq; cases hq
    · rw [hd.2 hx]
      exact ih hx ⟨q, g, hq, hl⟩ hb'

/-- The loop over the beginning of a path leaves no symbol and the position where it began. -/
theorem decodeLoop_partialPath {s : State} (hw : s.node.walks) {root : NodeIdx} (bs : List Bool) {p : NodeIdx}
    (hp : (s.node.at p).isInternal = true) (h : s.node.partialPath p bs) {k start : Nat}
    (hb : ∀ j (h : j < bs.length), s.bit (k + j) = some bs[j]) :
    decodeLoop s root bs.length k p start = .ok ⟨[], start⟩ := by
  induction bs generalizing p k with
  | nil => rfl
  | cons b bs ih =>
    obtain ⟨l, r, f, hi⟩ := Node.isInternal_iff.1 hp
    have h0 : s.bit k = some b := hb 0 (by simp)
    have hb' : ∀ j (h : j < bs.length), s.bit (k + 1 + j) = some bs[j] := by
      intro j hj
      have := hb (j + 1) (by simpa using hj)
      simpa [Nat.add_assoc, Nat.add_comm 1 j] using this
    have hd := decodeLoop_bit (root := root) (n := bs.length) (start := start) hw hi h0
    have hst := (Arena.child_internal hw hi b).2
    obtain ⟨q, hq, hl⟩ := h
    simp only [Arena.descend, hi] at hq
    rw [List.length_cons]
    obtain hx | hx := hst.2
    · cases bs with
      | nil => cases hq; rw [hx] at hl; cases hl
      | cons b' bs =>
        obtain ⟨c', g', hx⟩ := Node.isLeaf_iff.1 hx
        simp only [Arena.descend, hx] at hq; cases hq
    · rw [hd.2 hx]
      exact ih hx ⟨q, hq, hl⟩ hb'

/-- The loop over leaf paths from the root gives their symbols and goes on behind them. -/
theorem decodeLoop_leafPaths {s : State} (hw : s.node.walks) {root : NodeIdx} (hr : (s.node.at root).isInternal = true)
    (codes : List (Byte × List Bool)) (h : ∀ p ∈ codes, s.node.leafPath root p.1 p.2) {m k : Nat}
    (hb : ∀ j (h : j < (codes.flatMap Prod.snd).length), s.bit (k + j) = some (codes.flatMap Prod.snd)[j]) :
    decodeLoop s root ((codes.flatMap Prod.snd).length + m) k root k =
      (decodeLoop s root m (k + (codes.flatMap Prod.snd).length) root (k + (codes.flatMap Prod.snd).length)).map
        (Decoded.after (codes.map Prod.fst)) := by
  induction codes generalizing k with
  | nil => simp [Decoded.map_after_nil]
  | cons pc codes ih =>
    obtain ⟨c, bs⟩ := pc
    simp only [List.flatMap_cons, List.length_append, List.map_cons] at hb ⊢
    have h1 : ∀ j (h : j < bs.length), s.bit (k + j) = some bs[j] := by
      intro j hj
      have := hb j (by omega)
      rw [List.getElem_append_left hj] at this
      exact this
    have h2 : ∀ j (h : j < (codes.flatMap Prod.snd).length),
        s.bit (k + bs.length + j) = some (codes.flatMap Prod.snd)[j] := by
      intro j hj
      have := hb (bs.length + j) (by omega)
      rw [List.getElem_append_right (by omega)] at this
      simpa [Nat.add_assoc] using this
    rw [Nat.add_assoc bs.length, decodeLoop_leafPath hw bs hr (h (c, bs) (by simp)) h1,
      ih (fun p hp => h p (List.mem_cons_of_mem _ hp)) h2, Decoded.map_after_after, ← Nat.add_assoc k]
    rfl

/-- The loop over written bits goes on behind them from an internal node, with at most a symbol a bit. -/
theorem decodeLoop_run {s : State} (hw : s.node.walks) {root : NodeIdx} (hr : (s.node.at root).isInternal = true)
    (bs : List Bool) {p : NodeIdx} (hp : (s.node.at p).isInternal = true) {k start : Nat} (hk : start ≤ k) (m : Nat)
    (hb : ∀ j (h : j < bs.length), s.bit (k + j) = some bs[j]) :
    ∃ (p' : NodeIdx) (start' : Nat) (syms : List Byte), (s.node.at p').isInternal = true ∧
      start' ≤ k + bs.length ∧ syms.length ≤ bs.length ∧
      decodeLoop s root (bs.length + m) k p start =
        (decodeLoop s root m (k + bs.length) p' start').map (Decoded.after syms) := by
  induction bs generalizing p k start with
  | nil => exact ⟨p, start, [], hp, hk, by simp, by simp [Decoded.map_after_nil]⟩
  | cons b bs ih =>
    obtain ⟨l, r, f, hi⟩ := Node.isInternal_iff.1 hp
    have h0 : s.bit k = some b := hb 0 (by simp)
    have hb' : ∀ j (h : j < bs.length), s.bit (k + 1 + j) = some bs[j] := by
      intro j hj
      have := hb (j + 1) (by simpa using hj)
      simpa [Nat.add_assoc, Nat.add_comm 1 j] using this
    have hd := decodeLoop_bit (root := root) (n := bs.length + m) (start := start) hw hi h0
    have hst := (Arena.child_internal hw hi b).2
    simp only [List.length_cons]
    rw [show bs.length + 1 + m = bs.length + m + 1 by omega, show k + (bs.length + 1) = k + 1 + bs.length by omega]
    obtain hx | hx := hst.2
    · obtain ⟨c, g, hx⟩ := Node.isLeaf_iff.1 hx
      obtain ⟨p', start', syms, h1, h2, h3, h4⟩ := ih (p := root) (k := k + 1) (start := k + 1) hr (by omega) hb'
      exact ⟨p', start', c :: syms, h1, h2, by simpa using h3, by
        rw [hd.1 c g hx, h4, Decoded.map_after_after]; rfl⟩
    · obtain ⟨p', start', syms, h1, h2, h3, h4⟩ := ih (p := _) (k := k + 1) (start := start) hx (by omega) hb'
      exact ⟨p', start', syms, h1, h2, by omega, by rw [hd.2 hx, h4]⟩

/-- On any arena the loop emits at most a symbol a bit, and the last code starts no later than the stream ends (R171). -/
theorem decodeLoop_bounds {s : State} {root p : NodeIdx} {n k start : Nat} {r : Decoded}
    (h : decodeLoop s root n k p start = .ok r) (hk : start ≤ k) :
    r.syms.length ≤ n ∧ r.start ≤ k + n := by
  induction n generalizing k p start r with
  | zero => cases h; exact ⟨by simp, by simpa using hk⟩
  | succ n ih =>
    rw [decodeLoop] at h
    split at h
    · cases h
    · split at h
      · cases h
      · split at h
        · cases hl : decodeLoop s root n (k + 1) root (k + 1) with
          | error f => rw [hl] at h; cases h
          | ok r' =>
            rw [hl] at h; cases h
            obtain ⟨h1, h2⟩ := ih hl (by omega)
            exact ⟨by simp [Decoded.emit]; omega, by simp only [Decoded.emit]; omega⟩
        · obtain ⟨h1, h2⟩ := ih h (by omega)
          exact ⟨by omega, by omega⟩

/-- A path in two parts. -/
theorem Arena.descend_append (a : Arena) (p : NodeIdx) (xs ys : List Bool) :
    a.descend p (xs ++ ys) = (a.descend p xs).bind fun q => a.descend q ys := by
  induction xs generalizing p with
  | nil => rfl
  | cons b xs ih =>
    rw [List.cons_append, Arena.descend, Arena.descend]
    cases a.at p with
    | internal l r f => exact ih _
    | synth l f => cases b; exacts [ih _, rfl]
    | leaf c f => rfl
    | empty => rfl

/-- One bit on from an internal node that a path leads to. -/
theorem Arena.descend_snoc {a : Arena} {root p l r : NodeIdx} {f : Freq} {bs : List Bool} (hd : a.descend root bs = some p)
    (hp : a.at p = .internal l r f) (b : Bool) : a.descend root (bs ++ [b]) = some (if b then r else l) := by
  rw [Arena.descend_append, hd, Option.bind_some, Arena.descend, hp]
  rfl

/-- What a loop that ends has walked: from a node that the written bits `pre` lead to from the root, the bits from `start` to the end are
the whole paths of the leaves emitted and the beginning of one more path, which starts at the position the loop leaves. -/
theorem decodeLoop_paths {s : State} (hw : s.node.walks) {root : NodeIdx} (hr : (s.node.at root).isInternal = true)
    {n k start : Nat} {p : NodeIdx} {pre : List Bool} {res : Decoded} (hd : s.node.descend root pre = some p)
    (hp : (s.node.at p).isInternal = true) (hk : start + pre.length = k)
    (hb : ∀ j (h : j < pre.length), s.bit (start + j) = some pre[j]) (h : decodeLoop s root n k p start = .ok res) :
    ∃ (codes : List (Byte × List Bool)) (tail : List Bool),
      (∀ c ∈ codes, s.node.leafPath root c.1 c.2) ∧ codes.map Prod.fst = res.syms ∧ s.node.partialPath root tail ∧
      res.start = start + (codes.flatMap Prod.snd).length ∧ res.start + tail.length = k + n ∧
      ∀ j (h : j < (codes.flatMap Prod.snd ++ tail).length),
        s.bit (start + j) = some (codes.flatMap Prod.snd ++ tail)[j] := by
  induction n generalizing k p start pre res with
  | zero =>
    cases h
    obtain ⟨l, r, f, hi⟩ := Node.isInternal_iff.1 hp
    exact ⟨[], pre, by simp, rfl, ⟨p, hd, by rw [hi]; rfl⟩, rfl, hk, hb⟩
  | succ n ih =>
    obtain ⟨l, r, f, hi⟩ := Node.isInternal_iff.1 hp
    cases h0 : s.bit k with
    | none => rw [decodeLoop] at h; simp only [State.streamBit_of_none h0] at h; cases h
    | some b =>
      have hstep := decodeLoop_bit (root := root) (n := n) (start := start) hw hi h0
      have hsnoc := Arena.descend_snoc hd hi b
      have hbits : ∀ j (h : j < (pre ++ [b]).length), s.bit (start + j) = some (pre ++ [b])[j] := by
        intro j hj
        rw [List.getElem_append]
        split
        · exact hb j ‹_›
        · simp only [List.length_append, List.length_singleton] at hj
          have hjk : start + j = k := by omega
          rw [hjk, h0]; simp
      obtain hx | hx := (Arena.child_internal hw hi b).2.2
      · obtain ⟨c, g, hx⟩ := Node.isLeaf_iff.1 hx
        rw [hstep.1 c g hx] at h
        cases hl : decodeLoop s root n (k + 1) root (k + 1) with
        | error e => rw [hl] at h; cases h
        | ok res' =>
          rw [hl] at h; cases h
          obtain ⟨codes, tail, h1, h2, h3, h4, h5, h6⟩ :=
            ih (pre := []) (p := root) (k := k + 1) (start := k + 1) rfl hr rfl (by simp) hl
          refine ⟨(c, pre ++ [b]) :: codes, tail, ?_, by simp [Decoded.after, h2], h3, ?_, ?_, ?_⟩
          · intro d hdm
            obtain rfl | hdm := List.mem_cons.1 hdm
            · exact ⟨_, g, hsnoc, hx⟩
            · exact h1 d hdm
          · simp [Decoded.after, h4]; omega
          · simp only [Decoded.after]; omega
          · intro j hj
            have hlen := hj
            simp only [List.flatMap_cons, List.length_append] at hlen
            simp only [List.flatMap_cons, List.append_assoc (pre ++ [b])]
            rw [List.getElem_append]
            split
            · exact hbits j ‹_›
            · next hge =>
              simp only [List.length_append] at hge
              have := h6 (j - (pre ++ [b]).length) (by simp only [List.length_append]; omega)
              rw [← this]
              congr 1
              have h1b : [b].length = 1 := rfl
              simp only [List.length_append]
              omega
      · rw [hstep.2 hx] at h
        obtain ⟨codes, tail, h1, h2, h3, h4, h5, h6⟩ :=
          ih (pre := pre ++ [b]) (start := start) hsnoc hx (by simp; omega) hbits h
        exact ⟨codes, tail, h1, h2, h3, h4, by omega, h6⟩

/-- On a tree the walk can step through, the loop faults only by reading a byte of BS_MEM that nothing has written (R143, R170). -/
theorem decodeLoop_fault {s : State} (hw : s.node.walks) {root : NodeIdx} (hr : (s.node.at root).isInternal = true)
    {n k start : Nat} {p : NodeIdx} (hp : (s.node.at p).isInternal = true) {f : Fault}
    (h : decodeLoop s root n k p start = .error f) : ∃ j, s.bsMem.read j = none ∧ f = .uninitRead .bsMem j := by
  induction n generalizing k p start with
  | zero => cases h
  | succ n ih =>
    cases hb : s.bit k with
    | none =>
      rw [decodeLoop] at h
      simp only [State.streamBit_of_none hb] at h
      cases h; exact ⟨_, by simpa [State.bit] using hb, rfl⟩
    | some b =>
      obtain ⟨l, r, g, hi⟩ := Node.isInternal_iff.1 hp
      have hd := decodeLoop_bit (root := root) (n := n) (start := start) hw hi hb
      obtain hx | hx := (Arena.child_internal hw hi b).2.2
      · obtain ⟨c, g', hx⟩ := Node.isLeaf_iff.1 hx
        rw [hd.1 c g' hx] at h
        cases hl : decodeLoop s root n (k + 1) root (k + 1) with
        | error f' => rw [hl] at h; cases h; exact ih hr hl
        | ok r' => rw [hl] at h; cases h
      · rw [hd.2 hx] at h
        exact ih hx h

/-- The loop reads BS_MEM and NODE and nothing else. -/
theorem decodeLoop_congr {s s' : State} (hm : s.bsMem = s'.bsMem) (hn : s.node = s'.node) (root : NodeIdx)
    (n k : Nat) (p : NodeIdx) (start : Nat) : decodeLoop s root n k p start = decodeLoop s' root n k p start := by
  induction n generalizing k p start with
  | zero => rfl
  | succ n ih => simp only [decodeLoop, State.streamBit, hm, hn, ih]

end Sys2Proof.Machine
end

