-- ==== Sys2Proof/Laws/EncodeLoop.lean ====
section
/-! SUPPORT. What the encoding loop of ENCODE leaves, the bits of a code and of a packed byte, and where the loop faults. -/

namespace Sys2Proof.Machine

@[simp] theorem CodeEntry.length_bits (e : CodeEntry) : e.bits.length = e.len.toNat := by
  simp [CodeEntry.bits]

@[simp] theorem State.codesOf_nil (s : State) : s.codesOf [] = [] := rfl

theorem State.codesOf_cons (s : State) (x : Byte) (xs : List Byte) :
    s.codesOf (x :: xs) = s.codeOf x ++ s.codesOf xs := rfl

theorem State.codesOf_append (s : State) (xs ys : List Byte) :
    s.codesOf (xs ++ ys) = s.codesOf xs ++ s.codesOf ys := by
  simp [State.codesOf]

/-- An unknown symbol has no bits. -/
theorem State.codeOf_unknown {s : State} {c : Byte} (h : s.unknown c = true) : s.codeOf c = [] := by
  have : (s.code.at c).len = 0 := by simpa [State.unknown] using h
  simp [State.codeOf, CodeEntry.bits, this]

/-- What a run over some symbols puts before the result of the rest. -/
def Encoded.after (bits : List Bool) (unk : Nat) (r : Encoded) : Encoded :=
  ⟨bits ++ r.bits, unk + r.unk, r.err⟩

/-- The loop over written symbols whose codes fit and, in strict mode, are all known emits their codes, counts the unknown ones and goes
on behind them (R150, R151, R152). -/
theorem encodeLoop_run (s : State) (xs : List Byte) (m i pos : Nat)
    (hx : ∀ k (hk : k < xs.length), s.inMem.read (i + k) = some xs[k])
    (hk : s.ctrl.strictEnc = true → ∀ x ∈ xs, s.unknown x = false)
    (hfit : pos + (s.codesOf xs).length ≤ s.params.bsBits) :
    encodeLoop s (xs.length + m) i pos =
      (encodeLoop s m (i + xs.length) (pos + (s.codesOf xs).length)).map
        (Encoded.after (s.codesOf xs) (xs.filter s.unknown).length) := by
  induction xs generalizing i pos with
  | nil =>
    simp only [List.length_nil, Nat.zero_add, Nat.add_zero, State.codesOf_nil, List.filter_nil]
    cases encodeLoop s m i pos with
    | error f => rfl
    | ok r => simp [Except.map, Encoded.after]
  | cons x xs ih =>
    have h0 := hx 0 (by simp)
    simp only [Nat.add_zero, List.getElem_cons_zero] at h0
    have hx' : ∀ k (hk : k < xs.length), s.inMem.read (i + 1 + k) = some xs[k] := by
      intro k hk
      have := hx (k + 1) (by simpa using hk)
      simpa [Nat.add_assoc, Nat.add_comm 1 k] using this
    have hk' : s.ctrl.strictEnc = true → ∀ y ∈ xs, s.unknown y = false :=
      fun h y hy => hk h y (List.mem_cons_of_mem _ hy)
    rw [State.codesOf_cons, List.length_append] at hfit
    rw [List.length_cons, show xs.length + 1 + m = (xs.length + m) + 1 by omega, encodeLoop]
    simp only [State.inSymbol, h0]
    by_cases hu : (s.code.at x).len = 0
    · have hun : s.unknown x = true := by simp [State.unknown, hu]
      have hns : s.ctrl.strictEnc = false := by
        cases hs : s.ctrl.strictEnc
        · rfl
        · have := hk hs x (by simp); rw [hun] at this; cases this
      rw [if_pos hu, if_neg (by simp [hns]), ih (i + 1) pos hx' hk' (by omega)]
      rw [State.codesOf_cons, State.codeOf_unknown hun, List.nil_append, List.filter_cons_of_pos hun,
        show i + 1 + xs.length = i + (xs.length + 1) by omega]
      cases encodeLoop s m (i + (xs.length + 1)) (pos + (s.codesOf xs).length) with
      | error f => rfl
      | ok r =>
        simp only [Except.map, Encoded.after, Encoded.skip, List.length_cons]
        congr 2; omega
    · have hun : s.unknown x = false := decide_eq_false hu
      have hl : (s.codeOf x).length = (s.code.at x).len.toNat := by simp [State.codeOf]
      rw [if_neg hu, if_neg (by omega), ih (i + 1) _ hx' hk' (by omega)]
      rw [State.codesOf_cons, List.filter_cons_of_neg (by simp [hun]),
        show i + 1 + xs.length = i + (xs.length + 1) by omega, List.length_append, hl,
        show pos + (s.code.at x).len.toNat + (s.codesOf xs).length =
          pos + ((s.code.at x).len.toNat + (s.codesOf xs).length) by omega]
      cases encodeLoop s m (i + (xs.length + 1)) (pos + ((s.code.at x).len.toNat + (s.codesOf xs).length)) with
      | error f => rfl
      | ok r => simp [Except.map, Encoded.after, Encoded.emit, State.codeOf]

/-- The loop emits no more bits than fit, skips no more symbols than it reads, and ends with an error only at a symbol it reads, for that
error's cause (R150, R221). -/
theorem encodeLoop_bounds {s : State} {n i pos : Nat} {r : Encoded} (h : encodeLoop s n i pos = .ok r)
    (hpos : pos ≤ s.params.bsBits) :
    pos + r.bits.length ≤ s.params.bsBits ∧ r.unk ≤ n ∧
    ∀ code info, r.err = some (code, info) → ∃ j c, i ≤ j ∧ j < i + n ∧ s.inMem.read j = some c ∧
      info = ⟨BitVec.ofNat 32 j, c⟩ ∧
      ((code = .unknownSymbol ∧ s.ctrl.strictEnc = true ∧ (s.code.at c).len = 0) ∨
        (code = .bsOverflow ∧ s.params.bsBits < pos + r.bits.length + (s.code.at c).len.toNat)) := by
  induction n generalizing i pos r with
  | zero => cases h; exact ⟨by simpa using hpos, by simp, by simp⟩
  | succ n ih =>
    simp only [encodeLoop, State.inSymbol] at h
    cases hr : s.inMem.read i with
    | none => rw [hr] at h; cases h
    | some c =>
      rw [hr] at h
      simp only at h
      split at h
      · next hu =>
        split at h
        · next hs =>
          cases h
          refine ⟨by simpa using hpos, by simp, fun code info he => ?_⟩
          cases he
          exact ⟨i, c, by omega, by omega, hr, rfl, .inl ⟨rfl, hs, hu⟩⟩
        · cases hl : encodeLoop s n (i + 1) pos with
          | error f => rw [hl] at h; cases h
          | ok r' =>
            rw [hl] at h; cases h
            obtain ⟨h1, h2, h3⟩ := ih hl hpos
            refine ⟨h1, by simp [Encoded.skip]; omega, fun code info he => ?_⟩
            obtain ⟨j, d, g1, g2, g3⟩ := h3 code info he
            exact ⟨j, d, by omega, by omega, g3⟩
      · split at h
        · next ho =>
          cases h
          refine ⟨by simpa using hpos, by simp, fun code info he => ?_⟩
          cases he
          exact ⟨i, c, by omega, by omega, hr, rfl, .inr ⟨rfl, by simpa using ho⟩⟩
        · next ho =>
          cases hl : encodeLoop s n (i + 1) (pos + (s.code.at c).len.toNat) with
          | error f => rw [hl] at h; cases h
          | ok r' =>
            rw [hl] at h; cases h
            obtain ⟨h1, h2, h3⟩ := ih hl (by omega)
            have hlen : (Encoded.emit (s.code.at c).bits r').bits.length =
                (s.code.at c).len.toNat + r'.bits.length := by simp [Encoded.emit]
            refine ⟨by omega, by simp [Encoded.emit]; omega, fun code info he => ?_⟩
            obtain ⟨j, d, g1, g2, g3, g4, g5⟩ := h3 code info he
            refine ⟨j, d, by omega, by omega, g3, g4, g5.imp_right fun g => ⟨g.1, ?_⟩⟩
            rw [hlen]; omega

/-- The loop faults only by reading a byte of IN_MEM that nothing has written. -/
theorem encodeLoop_fault {s : State} {n i pos : Nat} {f : Fault} (h : encodeLoop s n i pos = .error f) :
    ∃ j, s.inMem.read j = none ∧ f = .uninitRead .inMem j := by
  induction n generalizing i pos with
  | zero => cases h
  | succ n ih =>
    simp only [encodeLoop, State.inSymbol] at h
    cases hr : s.inMem.read i with
    | none => rw [hr] at h; cases h; exact ⟨i, hr, rfl⟩
    | some c =>
      rw [hr] at h
      simp only at h
      split at h
      · split at h
        · cases h
        · cases hl : encodeLoop s n (i + 1) pos with
          | error g => rw [hl] at h; cases h; exact ih hl
          | ok r' => rw [hl] at h; cases h
      · split at h
        · cases h
        · cases hl : encodeLoop s n (i + 1) (pos + (s.code.at c).len.toNat) with
          | error g => rw [hl] at h; cases h; exact ih hl
          | ok r' => rw [hl] at h; cases h

/-- The loop reads IN_MEM, CODE, STRICT_ENC and the capacity, and nothing else. -/
theorem encodeLoop_congr {s s' : State} (hp : s.params = s'.params) (hm : s.inMem = s'.inMem) (hc : s.code = s'.code)
    (hs : s.ctrl.strictEnc = s'.ctrl.strictEnc) (n i pos : Nat) : encodeLoop s n i pos = encodeLoop s' n i pos := by
  induction n generalizing i pos with
  | zero => rfl
  | succ n ih => simp only [encodeLoop, State.inSymbol, hp, hm, hc, hs, ih]

/-! ### The packed stream (R68, R153) -/

@[simp] theorem length_packBits (bits : List Bool) : (packBits bits).length = (bits.length + 7) / 8 := by
  simp [packBits, packedLen]

/-- Bit 7 - m of byte j of a packed stream is its bit 8j + m, and 0 past the end of the stream. -/
theorem packByte_getLsbD (bits : List Bool) (j m : Nat) (hm : m < 8) :
    (packByte bits j).getLsbD (7 - m) = bits.getD (8 * j + m) false := by
  simp only [packByte, BitVec.getLsbD_append, BitVec.getLsbD_ofBool]
  interval_cases m <;> simp

end Sys2Proof.Machine
end

