-- ==== Sys2Proof/Laws/State.lean ====
section
/-! SUPPORT. One lemma per field per update of the state, so that no later proof unfolds a record update. -/

namespace Sys2Proof.Machine

/-! ### setOverrun -/

@[simp] theorem State.setOverrun_params (s : State) : s.setOverrun.params = s.params := rfl
@[simp] theorem State.setOverrun_ramEra (s : State) : s.setOverrun.ramEra = s.ramEra := rfl
@[simp] theorem State.setOverrun_ctrl (s : State) : s.setOverrun.ctrl = s.ctrl := rfl
@[simp] theorem State.setOverrun_status (s : State) : s.setOverrun.status = { s.status with overrun := true } := rfl
@[simp] theorem State.setOverrun_inFlight (s : State) : s.setOverrun.inFlight = s.inFlight := rfl
@[simp] theorem State.setOverrun_errPos (s : State) : s.setOverrun.errPos = s.errPos := rfl
@[simp] theorem State.setOverrun_errSym (s : State) : s.setOverrun.errSym = s.errSym := rfl
@[simp] theorem State.setOverrun_inLen (s : State) : s.setOverrun.inLen = s.inLen := rfl
@[simp] theorem State.setOverrun_bsLen (s : State) : s.setOverrun.bsLen = s.bsLen := rfl
@[simp] theorem State.setOverrun_outLen (s : State) : s.setOverrun.outLen = s.outLen := rfl
@[simp] theorem State.setOverrun_unkCnt (s : State) : s.setOverrun.unkCnt = s.unkCnt := rfl
@[simp] theorem State.setOverrun_trailBits (s : State) : s.setOverrun.trailBits = s.trailBits := rfl
@[simp] theorem State.setOverrun_nsym (s : State) : s.setOverrun.nsym = s.nsym := rfl
@[simp] theorem State.setOverrun_nodeCnt (s : State) : s.setOverrun.nodeCnt = s.nodeCnt := rfl
@[simp] theorem State.setOverrun_root (s : State) : s.setOverrun.root = s.root := rfl
@[simp] theorem State.setOverrun_statOrig (s : State) : s.setOverrun.statOrig = s.statOrig := rfl
@[simp] theorem State.setOverrun_statEnc (s : State) : s.setOverrun.statEnc = s.statEnc := rfl
@[simp] theorem State.setOverrun_statSave (s : State) : s.setOverrun.statSave = s.statSave := rfl
@[simp] theorem State.setOverrun_statPct (s : State) : s.setOverrun.statPct = s.statPct := rfl
@[simp] theorem State.setOverrun_hist (s : State) : s.setOverrun.hist = s.hist := rfl
@[simp] theorem State.setOverrun_node (s : State) : s.setOverrun.node = s.node := rfl
@[simp] theorem State.setOverrun_code (s : State) : s.setOverrun.code = s.code := rfl
@[simp] theorem State.setOverrun_inMem (s : State) : s.setOverrun.inMem = s.inMem := rfl
@[simp] theorem State.setOverrun_bsMem (s : State) : s.setOverrun.bsMem = s.bsMem := rfl
@[simp] theorem State.setOverrun_outMem (s : State) : s.setOverrun.outMem = s.outMem := rfl
@[simp] theorem State.setOverrun_env (s : State) : s.setOverrun.env = s.env := rfl
@[simp] theorem State.setOverrun_busy (s : State) : s.setOverrun.busy = s.busy := rfl

/-! ### issue -/

@[simp] theorem State.issue_params (s : State) (w : Word) : (s.issue w).params = s.params := rfl
@[simp] theorem State.issue_ramEra (s : State) (w : Word) : (s.issue w).ramEra = s.ramEra := rfl
@[simp] theorem State.issue_ctrl (s : State) (w : Word) : (s.issue w).ctrl = s.ctrl := rfl
@[simp] theorem State.issue_status (s : State) (w : Word) : (s.issue w).status = { s.status with done := false, err := false, errCode := .none, lastOpc := opcField w } := rfl
@[simp] theorem State.issue_inFlight (s : State) (w : Word) : (s.issue w).inFlight = some w := rfl
@[simp] theorem State.issue_errPos (s : State) (w : Word) : (s.issue w).errPos = 0 := rfl
@[simp] theorem State.issue_errSym (s : State) (w : Word) : (s.issue w).errSym = 0 := rfl
@[simp] theorem State.issue_inLen (s : State) (w : Word) : (s.issue w).inLen = s.inLen := rfl
@[simp] theorem State.issue_bsLen (s : State) (w : Word) : (s.issue w).bsLen = s.bsLen := rfl
@[simp] theorem State.issue_outLen (s : State) (w : Word) : (s.issue w).outLen = s.outLen := rfl
@[simp] theorem State.issue_unkCnt (s : State) (w : Word) : (s.issue w).unkCnt = s.unkCnt := rfl
@[simp] theorem State.issue_trailBits (s : State) (w : Word) : (s.issue w).trailBits = s.trailBits := rfl
@[simp] theorem State.issue_nsym (s : State) (w : Word) : (s.issue w).nsym = s.nsym := rfl
@[simp] theorem State.issue_nodeCnt (s : State) (w : Word) : (s.issue w).nodeCnt = s.nodeCnt := rfl
@[simp] theorem State.issue_root (s : State) (w : Word) : (s.issue w).root = s.root := rfl
@[simp] theorem State.issue_statOrig (s : State) (w : Word) : (s.issue w).statOrig = s.statOrig := rfl
@[simp] theorem State.issue_statEnc (s : State) (w : Word) : (s.issue w).statEnc = s.statEnc := rfl
@[simp] theorem State.issue_statSave (s : State) (w : Word) : (s.issue w).statSave = s.statSave := rfl
@[simp] theorem State.issue_statPct (s : State) (w : Word) : (s.issue w).statPct = s.statPct := rfl
@[simp] theorem State.issue_hist (s : State) (w : Word) : (s.issue w).hist = s.hist := rfl
@[simp] theorem State.issue_node (s : State) (w : Word) : (s.issue w).node = s.node := rfl
@[simp] theorem State.issue_code (s : State) (w : Word) : (s.issue w).code = s.code := rfl
@[simp] theorem State.issue_inMem (s : State) (w : Word) : (s.issue w).inMem = s.inMem := rfl
@[simp] theorem State.issue_bsMem (s : State) (w : Word) : (s.issue w).bsMem = s.bsMem := rfl
@[simp] theorem State.issue_outMem (s : State) (w : Word) : (s.issue w).outMem = s.outMem := rfl
@[simp] theorem State.issue_env (s : State) (w : Word) : (s.issue w).env = s.env := rfl
@[simp] theorem State.issue_busy (s : State) (w : Word) : (s.issue w).busy = true := rfl

/-! ### complete -/

@[simp] theorem State.complete_params (s : State) : s.complete.params = s.params := rfl
@[simp] theorem State.complete_ramEra (s : State) : s.complete.ramEra = s.ramEra := rfl
@[simp] theorem State.complete_ctrl (s : State) : s.complete.ctrl = s.ctrl := rfl
@[simp] theorem State.complete_status (s : State) : s.complete.status = { s.status with done := true } := rfl
@[simp] theorem State.complete_inFlight (s : State) : s.complete.inFlight = none := rfl
@[simp] theorem State.complete_errPos (s : State) : s.complete.errPos = s.errPos := rfl
@[simp] theorem State.complete_errSym (s : State) : s.complete.errSym = s.errSym := rfl
@[simp] theorem State.complete_inLen (s : State) : s.complete.inLen = s.inLen := rfl
@[simp] theorem State.complete_bsLen (s : State) : s.complete.bsLen = s.bsLen := rfl
@[simp] theorem State.complete_outLen (s : State) : s.complete.outLen = s.outLen := rfl
@[simp] theorem State.complete_unkCnt (s : State) : s.complete.unkCnt = s.unkCnt := rfl
@[simp] theorem State.complete_trailBits (s : State) : s.complete.trailBits = s.trailBits := rfl
@[simp] theorem State.complete_nsym (s : State) : s.complete.nsym = s.nsym := rfl
@[simp] theorem State.complete_nodeCnt (s : State) : s.complete.nodeCnt = s.nodeCnt := rfl
@[simp] theorem State.complete_root (s : State) : s.complete.root = s.root := rfl
@[simp] theorem State.complete_statOrig (s : State) : s.complete.statOrig = s.statOrig := rfl
@[simp] theorem State.complete_statEnc (s : State) : s.complete.statEnc = s.statEnc := rfl
@[simp] theorem State.complete_statSave (s : State) : s.complete.statSave = s.statSave := rfl
@[simp] theorem State.complete_statPct (s : State) : s.complete.statPct = s.statPct := rfl
@[simp] theorem State.complete_hist (s : State) : s.complete.hist = s.hist := rfl
@[simp] theorem State.complete_node (s : State) : s.complete.node = s.node := rfl
@[simp] theorem State.complete_code (s : State) : s.complete.code = s.code := rfl
@[simp] theorem State.complete_inMem (s : State) : s.complete.inMem = s.inMem := rfl
@[simp] theorem State.complete_bsMem (s : State) : s.complete.bsMem = s.bsMem := rfl
@[simp] theorem State.complete_outMem (s : State) : s.complete.outMem = s.outMem := rfl
@[simp] theorem State.complete_env (s : State) : s.complete.env = s.env := rfl
@[simp] theorem State.complete_busy (s : State) : s.complete.busy = false := rfl

/-! ### raise -/

@[simp] theorem State.raise_params (s : State) (c : ErrCode) (info : Option ErrInfo) : (s.raise c info).params = s.params := rfl
@[simp] theorem State.raise_ramEra (s : State) (c : ErrCode) (info : Option ErrInfo) : (s.raise c info).ramEra = s.ramEra := rfl
@[simp] theorem State.raise_ctrl (s : State) (c : ErrCode) (info : Option ErrInfo) : (s.raise c info).ctrl = s.ctrl := rfl
@[simp] theorem State.raise_status (s : State) (c : ErrCode) (info : Option ErrInfo) : (s.raise c info).status = { s.status with done := true, err := true, errCode := c } := rfl
@[simp] theorem State.raise_inFlight (s : State) (c : ErrCode) (info : Option ErrInfo) : (s.raise c info).inFlight = none := rfl
@[simp] theorem State.raise_errPos (s : State) (c : ErrCode) (info : Option ErrInfo) : (s.raise c info).errPos = (info.map ErrInfo.pos).getD s.errPos := rfl
@[simp] theorem State.raise_errSym (s : State) (c : ErrCode) (info : Option ErrInfo) : (s.raise c info).errSym = (info.map ErrInfo.sym).getD s.errSym := rfl
@[simp] theorem State.raise_inLen (s : State) (c : ErrCode) (info : Option ErrInfo) : (s.raise c info).inLen = s.inLen := rfl
@[simp] theorem State.raise_bsLen (s : State) (c : ErrCode) (info : Option ErrInfo) : (s.raise c info).bsLen = s.bsLen := rfl
@[simp] theorem State.raise_outLen (s : State) (c : ErrCode) (info : Option ErrInfo) : (s.raise c info).outLen = s.outLen := rfl
@[simp] theorem State.raise_unkCnt (s : State) (c : ErrCode) (info : Option ErrInfo) : (s.raise c info).unkCnt = s.unkCnt := rfl
@[simp] theorem State.raise_trailBits (s : State) (c : ErrCode) (info : Option ErrInfo) : (s.raise c info).trailBits = s.trailBits := rfl
@[simp] theorem State.raise_nsym (s : State) (c : ErrCode) (info : Option ErrInfo) : (s.raise c info).nsym = s.nsym := rfl
@[simp] theorem State.raise_nodeCnt (s : State) (c : ErrCode) (info : Option ErrInfo) : (s.raise c info).nodeCnt = s.nodeCnt := rfl
@[simp] theorem State.raise_root (s : State) (c : ErrCode) (info : Option ErrInfo) : (s.raise c info).root = s.root := rfl
@[simp] theorem State.raise_statOrig (s : State) (c : ErrCode) (info : Option ErrInfo) : (s.raise c info).statOrig = s.statOrig := rfl
@[simp] theorem State.raise_statEnc (s : State) (c : ErrCode) (info : Option ErrInfo) : (s.raise c info).statEnc = s.statEnc := rfl
@[simp] theorem State.raise_statSave (s : State) (c : ErrCode) (info : Option ErrInfo) : (s.raise c info).statSave = s.statSave := rfl
@[simp] theorem State.raise_statPct (s : State) (c : ErrCode) (info : Option ErrInfo) : (s.raise c info).statPct = s.statPct := rfl
@[simp] theorem State.raise_hist (s : State) (c : ErrCode) (info : Option ErrInfo) : (s.raise c info).hist = s.hist := rfl
@[simp] theorem State.raise_node (s : State) (c : ErrCode) (info : Option ErrInfo) : (s.raise c info).node = s.node := rfl
@[simp] theorem State.raise_code (s : State) (c : ErrCode) (info : Option ErrInfo) : (s.raise c info).code = s.code := rfl
@[simp] theorem State.raise_inMem (s : State) (c : ErrCode) (info : Option ErrInfo) : (s.raise c info).inMem = s.inMem := rfl
@[simp] theorem State.raise_bsMem (s : State) (c : ErrCode) (info : Option ErrInfo) : (s.raise c info).bsMem = s.bsMem := rfl
@[simp] theorem State.raise_outMem (s : State) (c : ErrCode) (info : Option ErrInfo) : (s.raise c info).outMem = s.outMem := rfl
@[simp] theorem State.raise_env (s : State) (c : ErrCode) (info : Option ErrInfo) : (s.raise c info).env = s.env := rfl
@[simp] theorem State.raise_busy (s : State) (c : ErrCode) (info : Option ErrInfo) : (s.raise c info).busy = false := rfl

/-! ### clearFlags -/

@[simp] theorem State.clearFlags_params (s : State) (v : Word) : (s.clearFlags v).params = s.params := rfl
@[simp] theorem State.clearFlags_ramEra (s : State) (v : Word) : (s.clearFlags v).ramEra = s.ramEra := rfl
@[simp] theorem State.clearFlags_ctrl (s : State) (v : Word) : (s.clearFlags v).ctrl = s.ctrl := rfl
@[simp] theorem State.clearFlags_status (s : State) (v : Word) : (s.clearFlags v).status = 
      { s.status with
        done := s.status.done && !v.getLsbD 1, overrun := s.status.overrun && !v.getLsbD 3 } := rfl
@[simp] theorem State.clearFlags_inFlight (s : State) (v : Word) : (s.clearFlags v).inFlight = s.inFlight := rfl
@[simp] theorem State.clearFlags_errPos (s : State) (v : Word) : (s.clearFlags v).errPos = s.errPos := rfl
@[simp] theorem State.clearFlags_errSym (s : State) (v : Word) : (s.clearFlags v).errSym = s.errSym := rfl
@[simp] theorem State.clearFlags_inLen (s : State) (v : Word) : (s.clearFlags v).inLen = s.inLen := rfl
@[simp] theorem State.clearFlags_bsLen (s : State) (v : Word) : (s.clearFlags v).bsLen = s.bsLen := rfl
@[simp] theorem State.clearFlags_outLen (s : State) (v : Word) : (s.clearFlags v).outLen = s.outLen := rfl
@[simp] theorem State.clearFlags_unkCnt (s : State) (v : Word) : (s.clearFlags v).unkCnt = s.unkCnt := rfl
@[simp] theorem State.clearFlags_trailBits (s : State) (v : Word) : (s.clearFlags v).trailBits = s.trailBits := rfl
@[simp] theorem State.clearFlags_nsym (s : State) (v : Word) : (s.clearFlags v).nsym = s.nsym := rfl
@[simp] theorem State.clearFlags_nodeCnt (s : State) (v : Word) : (s.clearFlags v).nodeCnt = s.nodeCnt := rfl
@[simp] theorem State.clearFlags_root (s : State) (v : Word) : (s.clearFlags v).root = s.root := rfl
@[simp] theorem State.clearFlags_statOrig (s : State) (v : Word) : (s.clearFlags v).statOrig = s.statOrig := rfl
@[simp] theorem State.clearFlags_statEnc (s : State) (v : Word) : (s.clearFlags v).statEnc = s.statEnc := rfl
@[simp] theorem State.clearFlags_statSave (s : State) (v : Word) : (s.clearFlags v).statSave = s.statSave := rfl
@[simp] theorem State.clearFlags_statPct (s : State) (v : Word) : (s.clearFlags v).statPct = s.statPct := rfl
@[simp] theorem State.clearFlags_hist (s : State) (v : Word) : (s.clearFlags v).hist = s.hist := rfl
@[simp] theorem State.clearFlags_node (s : State) (v : Word) : (s.clearFlags v).node = s.node := rfl
@[simp] theorem State.clearFlags_code (s : State) (v : Word) : (s.clearFlags v).code = s.code := rfl
@[simp] theorem State.clearFlags_inMem (s : State) (v : Word) : (s.clearFlags v).inMem = s.inMem := rfl
@[simp] theorem State.clearFlags_bsMem (s : State) (v : Word) : (s.clearFlags v).bsMem = s.bsMem := rfl
@[simp] theorem State.clearFlags_outMem (s : State) (v : Word) : (s.clearFlags v).outMem = s.outMem := rfl
@[simp] theorem State.clearFlags_env (s : State) (v : Word) : (s.clearFlags v).env = s.env := rfl
@[simp] theorem State.clearFlags_busy (s : State) (v : Word) : (s.clearFlags v).busy = s.busy := rfl

/-! ### withTurns -/

@[simp] theorem State.withTurns_params (s : State) (ts : List Turn) : (s.withTurns ts).params = s.params := rfl
@[simp] theorem State.withTurns_ramEra (s : State) (ts : List Turn) : (s.withTurns ts).ramEra = s.ramEra := rfl
@[simp] theorem State.withTurns_ctrl (s : State) (ts : List Turn) : (s.withTurns ts).ctrl = s.ctrl := rfl
@[simp] theorem State.withTurns_status (s : State) (ts : List Turn) : (s.withTurns ts).status = s.status := rfl
@[simp] theorem State.withTurns_inFlight (s : State) (ts : List Turn) : (s.withTurns ts).inFlight = s.inFlight := rfl
@[simp] theorem State.withTurns_errPos (s : State) (ts : List Turn) : (s.withTurns ts).errPos = s.errPos := rfl
@[simp] theorem State.withTurns_errSym (s : State) (ts : List Turn) : (s.withTurns ts).errSym = s.errSym := rfl
@[simp] theorem State.withTurns_inLen (s : State) (ts : List Turn) : (s.withTurns ts).inLen = s.inLen := rfl
@[simp] theorem State.withTurns_bsLen (s : State) (ts : List Turn) : (s.withTurns ts).bsLen = s.bsLen := rfl
@[simp] theorem State.withTurns_outLen (s : State) (ts : List Turn) : (s.withTurns ts).outLen = s.outLen := rfl
@[simp] theorem State.withTurns_unkCnt (s : State) (ts : List Turn) : (s.withTurns ts).unkCnt = s.unkCnt := rfl
@[simp] theorem State.withTurns_trailBits (s : State) (ts : List Turn) : (s.withTurns ts).trailBits = s.trailBits := rfl
@[simp] theorem State.withTurns_nsym (s : State) (ts : List Turn) : (s.withTurns ts).nsym = s.nsym := rfl
@[simp] theorem State.withTurns_nodeCnt (s : State) (ts : List Turn) : (s.withTurns ts).nodeCnt = s.nodeCnt := rfl
@[simp] theorem State.withTurns_root (s : State) (ts : List Turn) : (s.withTurns ts).root = s.root := rfl
@[simp] theorem State.withTurns_statOrig (s : State) (ts : List Turn) : (s.withTurns ts).statOrig = s.statOrig := rfl
@[simp] theorem State.withTurns_statEnc (s : State) (ts : List Turn) : (s.withTurns ts).statEnc = s.statEnc := rfl
@[simp] theorem State.withTurns_statSave (s : State) (ts : List Turn) : (s.withTurns ts).statSave = s.statSave := rfl
@[simp] theorem State.withTurns_statPct (s : State) (ts : List Turn) : (s.withTurns ts).statPct = s.statPct := rfl
@[simp] theorem State.withTurns_hist (s : State) (ts : List Turn) : (s.withTurns ts).hist = s.hist := rfl
@[simp] theorem State.withTurns_node (s : State) (ts : List Turn) : (s.withTurns ts).node = s.node := rfl
@[simp] theorem State.withTurns_code (s : State) (ts : List Turn) : (s.withTurns ts).code = s.code := rfl
@[simp] theorem State.withTurns_inMem (s : State) (ts : List Turn) : (s.withTurns ts).inMem = s.inMem := rfl
@[simp] theorem State.withTurns_bsMem (s : State) (ts : List Turn) : (s.withTurns ts).bsMem = s.bsMem := rfl
@[simp] theorem State.withTurns_outMem (s : State) (ts : List Turn) : (s.withTurns ts).outMem = s.outMem := rfl
@[simp] theorem State.withTurns_env (s : State) (ts : List Turn) : (s.withTurns ts).env = { s.env with turns := ts } := rfl
@[simp] theorem State.withTurns_busy (s : State) (ts : List Turn) : (s.withTurns ts).busy = s.busy := rfl

/-! ### withProg -/

@[simp] theorem State.withProg_params (s : State) (ops : List HostOp) : (s.withProg ops).params = s.params := rfl
@[simp] theorem State.withProg_ramEra (s : State) (ops : List HostOp) : (s.withProg ops).ramEra = s.ramEra := rfl
@[simp] theorem State.withProg_ctrl (s : State) (ops : List HostOp) : (s.withProg ops).ctrl = s.ctrl := rfl
@[simp] theorem State.withProg_status (s : State) (ops : List HostOp) : (s.withProg ops).status = s.status := rfl
@[simp] theorem State.withProg_inFlight (s : State) (ops : List HostOp) : (s.withProg ops).inFlight = s.inFlight := rfl
@[simp] theorem State.withProg_errPos (s : State) (ops : List HostOp) : (s.withProg ops).errPos = s.errPos := rfl
@[simp] theorem State.withProg_errSym (s : State) (ops : List HostOp) : (s.withProg ops).errSym = s.errSym := rfl
@[simp] theorem State.withProg_inLen (s : State) (ops : List HostOp) : (s.withProg ops).inLen = s.inLen := rfl
@[simp] theorem State.withProg_bsLen (s : State) (ops : List HostOp) : (s.withProg ops).bsLen = s.bsLen := rfl
@[simp] theorem State.withProg_outLen (s : State) (ops : List HostOp) : (s.withProg ops).outLen = s.outLen := rfl
@[simp] theorem State.withProg_unkCnt (s : State) (ops : List HostOp) : (s.withProg ops).unkCnt = s.unkCnt := rfl
@[simp] theorem State.withProg_trailBits (s : State) (ops : List HostOp) : (s.withProg ops).trailBits = s.trailBits := rfl
@[simp] theorem State.withProg_nsym (s : State) (ops : List HostOp) : (s.withProg ops).nsym = s.nsym := rfl
@[simp] theorem State.withProg_nodeCnt (s : State) (ops : List HostOp) : (s.withProg ops).nodeCnt = s.nodeCnt := rfl
@[simp] theorem State.withProg_root (s : State) (ops : List HostOp) : (s.withProg ops).root = s.root := rfl
@[simp] theorem State.withProg_statOrig (s : State) (ops : List HostOp) : (s.withProg ops).statOrig = s.statOrig := rfl
@[simp] theorem State.withProg_statEnc (s : State) (ops : List HostOp) : (s.withProg ops).statEnc = s.statEnc := rfl
@[simp] theorem State.withProg_statSave (s : State) (ops : List HostOp) : (s.withProg ops).statSave = s.statSave := rfl
@[simp] theorem State.withProg_statPct (s : State) (ops : List HostOp) : (s.withProg ops).statPct = s.statPct := rfl
@[simp] theorem State.withProg_hist (s : State) (ops : List HostOp) : (s.withProg ops).hist = s.hist := rfl
@[simp] theorem State.withProg_node (s : State) (ops : List HostOp) : (s.withProg ops).node = s.node := rfl
@[simp] theorem State.withProg_code (s : State) (ops : List HostOp) : (s.withProg ops).code = s.code := rfl
@[simp] theorem State.withProg_inMem (s : State) (ops : List HostOp) : (s.withProg ops).inMem = s.inMem := rfl
@[simp] theorem State.withProg_bsMem (s : State) (ops : List HostOp) : (s.withProg ops).bsMem = s.bsMem := rfl
@[simp] theorem State.withProg_outMem (s : State) (ops : List HostOp) : (s.withProg ops).outMem = s.outMem := rfl
@[simp] theorem State.withProg_env (s : State) (ops : List HostOp) : (s.withProg ops).env = { s.env with prog := ops } := rfl
@[simp] theorem State.withProg_busy (s : State) (ops : List HostOp) : (s.withProg ops).busy = s.busy := rfl

/-! ### withReply -/

@[simp] theorem State.withReply_params (s : State) (r : BusReply) : (s.withReply r).params = s.params := rfl
@[simp] theorem State.withReply_ramEra (s : State) (r : BusReply) : (s.withReply r).ramEra = s.ramEra := rfl
@[simp] theorem State.withReply_ctrl (s : State) (r : BusReply) : (s.withReply r).ctrl = s.ctrl := rfl
@[simp] theorem State.withReply_status (s : State) (r : BusReply) : (s.withReply r).status = s.status := rfl
@[simp] theorem State.withReply_inFlight (s : State) (r : BusReply) : (s.withReply r).inFlight = s.inFlight := rfl
@[simp] theorem State.withReply_errPos (s : State) (r : BusReply) : (s.withReply r).errPos = s.errPos := rfl
@[simp] theorem State.withReply_errSym (s : State) (r : BusReply) : (s.withReply r).errSym = s.errSym := rfl
@[simp] theorem State.withReply_inLen (s : State) (r : BusReply) : (s.withReply r).inLen = s.inLen := rfl
@[simp] theorem State.withReply_bsLen (s : State) (r : BusReply) : (s.withReply r).bsLen = s.bsLen := rfl
@[simp] theorem State.withReply_outLen (s : State) (r : BusReply) : (s.withReply r).outLen = s.outLen := rfl
@[simp] theorem State.withReply_unkCnt (s : State) (r : BusReply) : (s.withReply r).unkCnt = s.unkCnt := rfl
@[simp] theorem State.withReply_trailBits (s : State) (r : BusReply) : (s.withReply r).trailBits = s.trailBits := rfl
@[simp] theorem State.withReply_nsym (s : State) (r : BusReply) : (s.withReply r).nsym = s.nsym := rfl
@[simp] theorem State.withReply_nodeCnt (s : State) (r : BusReply) : (s.withReply r).nodeCnt = s.nodeCnt := rfl
@[simp] theorem State.withReply_root (s : State) (r : BusReply) : (s.withReply r).root = s.root := rfl
@[simp] theorem State.withReply_statOrig (s : State) (r : BusReply) : (s.withReply r).statOrig = s.statOrig := rfl
@[simp] theorem State.withReply_statEnc (s : State) (r : BusReply) : (s.withReply r).statEnc = s.statEnc := rfl
@[simp] theorem State.withReply_statSave (s : State) (r : BusReply) : (s.withReply r).statSave = s.statSave := rfl
@[simp] theorem State.withReply_statPct (s : State) (r : BusReply) : (s.withReply r).statPct = s.statPct := rfl
@[simp] theorem State.withReply_hist (s : State) (r : BusReply) : (s.withReply r).hist = s.hist := rfl
@[simp] theorem State.withReply_node (s : State) (r : BusReply) : (s.withReply r).node = s.node := rfl
@[simp] theorem State.withReply_code (s : State) (r : BusReply) : (s.withReply r).code = s.code := rfl
@[simp] theorem State.withReply_inMem (s : State) (r : BusReply) : (s.withReply r).inMem = s.inMem := rfl
@[simp] theorem State.withReply_bsMem (s : State) (r : BusReply) : (s.withReply r).bsMem = s.bsMem := rfl
@[simp] theorem State.withReply_outMem (s : State) (r : BusReply) : (s.withReply r).outMem = s.outMem := rfl
@[simp] theorem State.withReply_env (s : State) (r : BusReply) : (s.withReply r).env = { s.env with reply := some r } := rfl
@[simp] theorem State.withReply_busy (s : State) (r : BusReply) : (s.withReply r).busy = s.busy := rfl

/-! ### noteExpect -/

@[simp] theorem State.noteExpect_params (s : State) (b : Bool) : (s.noteExpect b).params = s.params := rfl
@[simp] theorem State.noteExpect_ramEra (s : State) (b : Bool) : (s.noteExpect b).ramEra = s.ramEra := rfl
@[simp] theorem State.noteExpect_ctrl (s : State) (b : Bool) : (s.noteExpect b).ctrl = s.ctrl := rfl
@[simp] theorem State.noteExpect_status (s : State) (b : Bool) : (s.noteExpect b).status = s.status := rfl
@[simp] theorem State.noteExpect_inFlight (s : State) (b : Bool) : (s.noteExpect b).inFlight = s.inFlight := rfl
@[simp] theorem State.noteExpect_errPos (s : State) (b : Bool) : (s.noteExpect b).errPos = s.errPos := rfl
@[simp] theorem State.noteExpect_errSym (s : State) (b : Bool) : (s.noteExpect b).errSym = s.errSym := rfl
@[simp] theorem State.noteExpect_inLen (s : State) (b : Bool) : (s.noteExpect b).inLen = s.inLen := rfl
@[simp] theorem State.noteExpect_bsLen (s : State) (b : Bool) : (s.noteExpect b).bsLen = s.bsLen := rfl
@[simp] theorem State.noteExpect_outLen (s : State) (b : Bool) : (s.noteExpect b).outLen = s.outLen := rfl
@[simp] theorem State.noteExpect_unkCnt (s : State) (b : Bool) : (s.noteExpect b).unkCnt = s.unkCnt := rfl
@[simp] theorem State.noteExpect_trailBits (s : State) (b : Bool) : (s.noteExpect b).trailBits = s.trailBits := rfl
@[simp] theorem State.noteExpect_nsym (s : State) (b : Bool) : (s.noteExpect b).nsym = s.nsym := rfl
@[simp] theorem State.noteExpect_nodeCnt (s : State) (b : Bool) : (s.noteExpect b).nodeCnt = s.nodeCnt := rfl
@[simp] theorem State.noteExpect_root (s : State) (b : Bool) : (s.noteExpect b).root = s.root := rfl
@[simp] theorem State.noteExpect_statOrig (s : State) (b : Bool) : (s.noteExpect b).statOrig = s.statOrig := rfl
@[simp] theorem State.noteExpect_statEnc (s : State) (b : Bool) : (s.noteExpect b).statEnc = s.statEnc := rfl
@[simp] theorem State.noteExpect_statSave (s : State) (b : Bool) : (s.noteExpect b).statSave = s.statSave := rfl
@[simp] theorem State.noteExpect_statPct (s : State) (b : Bool) : (s.noteExpect b).statPct = s.statPct := rfl
@[simp] theorem State.noteExpect_hist (s : State) (b : Bool) : (s.noteExpect b).hist = s.hist := rfl
@[simp] theorem State.noteExpect_node (s : State) (b : Bool) : (s.noteExpect b).node = s.node := rfl
@[simp] theorem State.noteExpect_code (s : State) (b : Bool) : (s.noteExpect b).code = s.code := rfl
@[simp] theorem State.noteExpect_inMem (s : State) (b : Bool) : (s.noteExpect b).inMem = s.inMem := rfl
@[simp] theorem State.noteExpect_bsMem (s : State) (b : Bool) : (s.noteExpect b).bsMem = s.bsMem := rfl
@[simp] theorem State.noteExpect_outMem (s : State) (b : Bool) : (s.noteExpect b).outMem = s.outMem := rfl
@[simp] theorem State.noteExpect_env (s : State) (b : Bool) : (s.noteExpect b).env = { s.env with expectFailed := s.env.expectFailed || !b } := rfl
@[simp] theorem State.noteExpect_busy (s : State) (b : Bool) : (s.noteExpect b).busy = s.busy := rfl

/-! ### withStream -/

@[simp] theorem State.withStream_params (s : State) (r : Encoded) : (s.withStream r).params = s.params := rfl
@[simp] theorem State.withStream_ramEra (s : State) (r : Encoded) : (s.withStream r).ramEra = s.ramEra := rfl
@[simp] theorem State.withStream_ctrl (s : State) (r : Encoded) : (s.withStream r).ctrl = s.ctrl := rfl
@[simp] theorem State.withStream_status (s : State) (r : Encoded) : (s.withStream r).status = s.status := rfl
@[simp] theorem State.withStream_inFlight (s : State) (r : Encoded) : (s.withStream r).inFlight = s.inFlight := rfl
@[simp] theorem State.withStream_errPos (s : State) (r : Encoded) : (s.withStream r).errPos = s.errPos := rfl
@[simp] theorem State.withStream_errSym (s : State) (r : Encoded) : (s.withStream r).errSym = s.errSym := rfl
@[simp] theorem State.withStream_inLen (s : State) (r : Encoded) : (s.withStream r).inLen = s.inLen := rfl
@[simp] theorem State.withStream_bsLen (s : State) (r : Encoded) : (s.withStream r).bsLen = BitVec.ofNat 32 r.bits.length := rfl
@[simp] theorem State.withStream_outLen (s : State) (r : Encoded) : (s.withStream r).outLen = s.outLen := rfl
@[simp] theorem State.withStream_unkCnt (s : State) (r : Encoded) : (s.withStream r).unkCnt = BitVec.ofNat 32 r.unk := rfl
@[simp] theorem State.withStream_trailBits (s : State) (r : Encoded) : (s.withStream r).trailBits = s.trailBits := rfl
@[simp] theorem State.withStream_nsym (s : State) (r : Encoded) : (s.withStream r).nsym = s.nsym := rfl
@[simp] theorem State.withStream_nodeCnt (s : State) (r : Encoded) : (s.withStream r).nodeCnt = s.nodeCnt := rfl
@[simp] theorem State.withStream_root (s : State) (r : Encoded) : (s.withStream r).root = s.root := rfl
@[simp] theorem State.withStream_statOrig (s : State) (r : Encoded) : (s.withStream r).statOrig = s.statOrig := rfl
@[simp] theorem State.withStream_statEnc (s : State) (r : Encoded) : (s.withStream r).statEnc = s.statEnc := rfl
@[simp] theorem State.withStream_statSave (s : State) (r : Encoded) : (s.withStream r).statSave = s.statSave := rfl
@[simp] theorem State.withStream_statPct (s : State) (r : Encoded) : (s.withStream r).statPct = s.statPct := rfl
@[simp] theorem State.withStream_hist (s : State) (r : Encoded) : (s.withStream r).hist = s.hist := rfl
@[simp] theorem State.withStream_node (s : State) (r : Encoded) : (s.withStream r).node = s.node := rfl
@[simp] theorem State.withStream_code (s : State) (r : Encoded) : (s.withStream r).code = s.code := rfl
@[simp] theorem State.withStream_inMem (s : State) (r : Encoded) : (s.withStream r).inMem = s.inMem := rfl
@[simp] theorem State.withStream_bsMem (s : State) (r : Encoded) : (s.withStream r).bsMem = s.bsMem.writeBytes 0 (packBits r.bits) := rfl
@[simp] theorem State.withStream_outMem (s : State) (r : Encoded) : (s.withStream r).outMem = s.outMem := rfl
@[simp] theorem State.withStream_env (s : State) (r : Encoded) : (s.withStream r).env = s.env := rfl
@[simp] theorem State.withStream_busy (s : State) (r : Encoded) : (s.withStream r).busy = s.busy := rfl

/-! ### withOutput -/

@[simp] theorem State.withOutput_params (s : State) (syms : List Byte) (trail : Nat) : (s.withOutput syms trail).params = s.params := rfl
@[simp] theorem State.withOutput_ramEra (s : State) (syms : List Byte) (trail : Nat) : (s.withOutput syms trail).ramEra = s.ramEra := rfl
@[simp] theorem State.withOutput_ctrl (s : State) (syms : List Byte) (trail : Nat) : (s.withOutput syms trail).ctrl = s.ctrl := rfl
@[simp] theorem State.withOutput_status (s : State) (syms : List Byte) (trail : Nat) : (s.withOutput syms trail).status = s.status := rfl
@[simp] theorem State.withOutput_inFlight (s : State) (syms : List Byte) (trail : Nat) : (s.withOutput syms trail).inFlight = s.inFlight := rfl
@[simp] theorem State.withOutput_errPos (s : State) (syms : List Byte) (trail : Nat) : (s.withOutput syms trail).errPos = s.errPos := rfl
@[simp] theorem State.withOutput_errSym (s : State) (syms : List Byte) (trail : Nat) : (s.withOutput syms trail).errSym = s.errSym := rfl
@[simp] theorem State.withOutput_inLen (s : State) (syms : List Byte) (trail : Nat) : (s.withOutput syms trail).inLen = s.inLen := rfl
@[simp] theorem State.withOutput_bsLen (s : State) (syms : List Byte) (trail : Nat) : (s.withOutput syms trail).bsLen = s.bsLen := rfl
@[simp] theorem State.withOutput_outLen (s : State) (syms : List Byte) (trail : Nat) : (s.withOutput syms trail).outLen = BitVec.ofNat 32 syms.length := rfl
@[simp] theorem State.withOutput_unkCnt (s : State) (syms : List Byte) (trail : Nat) : (s.withOutput syms trail).unkCnt = s.unkCnt := rfl
@[simp] theorem State.withOutput_trailBits (s : State) (syms : List Byte) (trail : Nat) : (s.withOutput syms trail).trailBits = BitVec.ofNat 32 trail := rfl
@[simp] theorem State.withOutput_nsym (s : State) (syms : List Byte) (trail : Nat) : (s.withOutput syms trail).nsym = s.nsym := rfl
@[simp] theorem State.withOutput_nodeCnt (s : State) (syms : List Byte) (trail : Nat) : (s.withOutput syms trail).nodeCnt = s.nodeCnt := rfl
@[simp] theorem State.withOutput_root (s : State) (syms : List Byte) (trail : Nat) : (s.withOutput syms trail).root = s.root := rfl
@[simp] theorem State.withOutput_statOrig (s : State) (syms : List Byte) (trail : Nat) : (s.withOutput syms trail).statOrig = s.statOrig := rfl
@[simp] theorem State.withOutput_statEnc (s : State) (syms : List Byte) (trail : Nat) : (s.withOutput syms trail).statEnc = s.statEnc := rfl
@[simp] theorem State.withOutput_statSave (s : State) (syms : List Byte) (trail : Nat) : (s.withOutput syms trail).statSave = s.statSave := rfl
@[simp] theorem State.withOutput_statPct (s : State) (syms : List Byte) (trail : Nat) : (s.withOutput syms trail).statPct = s.statPct := rfl
@[simp] theorem State.withOutput_hist (s : State) (syms : List Byte) (trail : Nat) : (s.withOutput syms trail).hist = s.hist := rfl
@[simp] theorem State.withOutput_node (s : State) (syms : List Byte) (trail : Nat) : (s.withOutput syms trail).node = s.node := rfl
@[simp] theorem State.withOutput_code (s : State) (syms : List Byte) (trail : Nat) : (s.withOutput syms trail).code = s.code := rfl
@[simp] theorem State.withOutput_inMem (s : State) (syms : List Byte) (trail : Nat) : (s.withOutput syms trail).inMem = s.inMem := rfl
@[simp] theorem State.withOutput_bsMem (s : State) (syms : List Byte) (trail : Nat) : (s.withOutput syms trail).bsMem = s.bsMem := rfl
@[simp] theorem State.withOutput_outMem (s : State) (syms : List Byte) (trail : Nat) : (s.withOutput syms trail).outMem = s.outMem.writeBytes 0 syms := rfl
@[simp] theorem State.withOutput_env (s : State) (syms : List Byte) (trail : Nat) : (s.withOutput syms trail).env = s.env := rfl
@[simp] theorem State.withOutput_busy (s : State) (syms : List Byte) (trail : Nat) : (s.withOutput syms trail).busy = s.busy := rfl

/-! ### clearDerived -/

@[simp] theorem State.clearDerived_params (s : State) : s.clearDerived.params = s.params := rfl
@[simp] theorem State.clearDerived_ramEra (s : State) : s.clearDerived.ramEra = s.ramEra := rfl
@[simp] theorem State.clearDerived_ctrl (s : State) : s.clearDerived.ctrl = s.ctrl := rfl
@[simp] theorem State.clearDerived_status (s : State) : s.clearDerived.status = s.status := rfl
@[simp] theorem State.clearDerived_inFlight (s : State) : s.clearDerived.inFlight = s.inFlight := rfl
@[simp] theorem State.clearDerived_errPos (s : State) : s.clearDerived.errPos = s.errPos := rfl
@[simp] theorem State.clearDerived_errSym (s : State) : s.clearDerived.errSym = s.errSym := rfl
@[simp] theorem State.clearDerived_inLen (s : State) : s.clearDerived.inLen = s.inLen := rfl
@[simp] theorem State.clearDerived_bsLen (s : State) : s.clearDerived.bsLen = s.bsLen := rfl
@[simp] theorem State.clearDerived_outLen (s : State) : s.clearDerived.outLen = 0 := rfl
@[simp] theorem State.clearDerived_unkCnt (s : State) : s.clearDerived.unkCnt = 0 := rfl
@[simp] theorem State.clearDerived_trailBits (s : State) : s.clearDerived.trailBits = 0 := rfl
@[simp] theorem State.clearDerived_nsym (s : State) : s.clearDerived.nsym = 0 := rfl
@[simp] theorem State.clearDerived_nodeCnt (s : State) : s.clearDerived.nodeCnt = 0 := rfl
@[simp] theorem State.clearDerived_root (s : State) : s.clearDerived.root = ⟨0, false, false⟩ := rfl
@[simp] theorem State.clearDerived_statOrig (s : State) : s.clearDerived.statOrig = 0 := rfl
@[simp] theorem State.clearDerived_statEnc (s : State) : s.clearDerived.statEnc = 0 := rfl
@[simp] theorem State.clearDerived_statSave (s : State) : s.clearDerived.statSave = 0 := rfl
@[simp] theorem State.clearDerived_statPct (s : State) : s.clearDerived.statPct = 0 := rfl
@[simp] theorem State.clearDerived_hist (s : State) : s.clearDerived.hist = Hist.zero := rfl
@[simp] theorem State.clearDerived_node (s : State) : s.clearDerived.node = Arena.empty := rfl
@[simp] theorem State.clearDerived_code (s : State) : s.clearDerived.code = CodeTable.empty := rfl
@[simp] theorem State.clearDerived_inMem (s : State) : s.clearDerived.inMem = s.inMem := rfl
@[simp] theorem State.clearDerived_bsMem (s : State) : s.clearDerived.bsMem = s.bsMem := rfl
@[simp] theorem State.clearDerived_outMem (s : State) : s.clearDerived.outMem = s.outMem := rfl
@[simp] theorem State.clearDerived_env (s : State) : s.clearDerived.env = s.env := rfl
@[simp] theorem State.clearDerived_busy (s : State) : s.clearDerived.busy = s.busy := rfl

/-! ### resetEvent -/

@[simp] theorem State.resetEvent_params (s : State) : s.resetEvent.params = s.params := rfl
@[simp] theorem State.resetEvent_ramEra (s : State) : s.resetEvent.ramEra = s.ramEra + 1 := rfl
@[simp] theorem State.resetEvent_ctrl (s : State) : s.resetEvent.ctrl = ⟨false, false, false⟩ := rfl
@[simp] theorem State.resetEvent_status (s : State) : s.resetEvent.status = ⟨false, false, false, .none, 0⟩ := rfl
@[simp] theorem State.resetEvent_inFlight (s : State) : s.resetEvent.inFlight = none := rfl
@[simp] theorem State.resetEvent_errPos (s : State) : s.resetEvent.errPos = 0 := rfl
@[simp] theorem State.resetEvent_errSym (s : State) : s.resetEvent.errSym = 0 := rfl
@[simp] theorem State.resetEvent_inLen (s : State) : s.resetEvent.inLen = 0 := rfl
@[simp] theorem State.resetEvent_bsLen (s : State) : s.resetEvent.bsLen = 0 := rfl
@[simp] theorem State.resetEvent_outLen (s : State) : s.resetEvent.outLen = 0 := rfl
@[simp] theorem State.resetEvent_unkCnt (s : State) : s.resetEvent.unkCnt = 0 := rfl
@[simp] theorem State.resetEvent_trailBits (s : State) : s.resetEvent.trailBits = 0 := rfl
@[simp] theorem State.resetEvent_nsym (s : State) : s.resetEvent.nsym = 0 := rfl
@[simp] theorem State.resetEvent_nodeCnt (s : State) : s.resetEvent.nodeCnt = 0 := rfl
@[simp] theorem State.resetEvent_root (s : State) : s.resetEvent.root = ⟨0, false, false⟩ := rfl
@[simp] theorem State.resetEvent_statOrig (s : State) : s.resetEvent.statOrig = 0 := rfl
@[simp] theorem State.resetEvent_statEnc (s : State) : s.resetEvent.statEnc = 0 := rfl
@[simp] theorem State.resetEvent_statSave (s : State) : s.resetEvent.statSave = 0 := rfl
@[simp] theorem State.resetEvent_statPct (s : State) : s.resetEvent.statPct = 0 := rfl
@[simp] theorem State.resetEvent_hist (s : State) : s.resetEvent.hist = Hist.zero := rfl
@[simp] theorem State.resetEvent_node (s : State) : s.resetEvent.node = Arena.empty := rfl
@[simp] theorem State.resetEvent_code (s : State) : s.resetEvent.code = CodeTable.empty := rfl
@[simp] theorem State.resetEvent_inMem (s : State) : s.resetEvent.inMem = [] := rfl
@[simp] theorem State.resetEvent_bsMem (s : State) : s.resetEvent.bsMem = [] := rfl
@[simp] theorem State.resetEvent_outMem (s : State) : s.resetEvent.outMem = [] := rfl
@[simp] theorem State.resetEvent_env (s : State) : s.resetEvent.env = s.env := rfl
@[simp] theorem State.resetEvent_busy (s : State) : s.resetEvent.busy = false := rfl

/-! ### hostRead -/

@[simp] theorem State.hostRead_params (s : State) (a : Offset) (lanes : BitVec 4) : (s.hostRead a lanes).params = s.params := rfl
@[simp] theorem State.hostRead_ramEra (s : State) (a : Offset) (lanes : BitVec 4) : (s.hostRead a lanes).ramEra = s.ramEra := rfl
@[simp] theorem State.hostRead_ctrl (s : State) (a : Offset) (lanes : BitVec 4) : (s.hostRead a lanes).ctrl = s.ctrl := rfl
@[simp] theorem State.hostRead_status (s : State) (a : Offset) (lanes : BitVec 4) : (s.hostRead a lanes).status = s.status := rfl
@[simp] theorem State.hostRead_inFlight (s : State) (a : Offset) (lanes : BitVec 4) : (s.hostRead a lanes).inFlight = s.inFlight := rfl
@[simp] theorem State.hostRead_errPos (s : State) (a : Offset) (lanes : BitVec 4) : (s.hostRead a lanes).errPos = s.errPos := rfl
@[simp] theorem State.hostRead_errSym (s : State) (a : Offset) (lanes : BitVec 4) : (s.hostRead a lanes).errSym = s.errSym := rfl
@[simp] theorem State.hostRead_inLen (s : State) (a : Offset) (lanes : BitVec 4) : (s.hostRead a lanes).inLen = s.inLen := rfl
@[simp] theorem State.hostRead_bsLen (s : State) (a : Offset) (lanes : BitVec 4) : (s.hostRead a lanes).bsLen = s.bsLen := rfl
@[simp] theorem State.hostRead_outLen (s : State) (a : Offset) (lanes : BitVec 4) : (s.hostRead a lanes).outLen = s.outLen := rfl
@[simp] theorem State.hostRead_unkCnt (s : State) (a : Offset) (lanes : BitVec 4) : (s.hostRead a lanes).unkCnt = s.unkCnt := rfl
@[simp] theorem State.hostRead_trailBits (s : State) (a : Offset) (lanes : BitVec 4) : (s.hostRead a lanes).trailBits = s.trailBits := rfl
@[simp] theorem State.hostRead_nsym (s : State) (a : Offset) (lanes : BitVec 4) : (s.hostRead a lanes).nsym = s.nsym := rfl
@[simp] theorem State.hostRead_nodeCnt (s : State) (a : Offset) (lanes : BitVec 4) : (s.hostRead a lanes).nodeCnt = s.nodeCnt := rfl
@[simp] theorem State.hostRead_root (s : State) (a : Offset) (lanes : BitVec 4) : (s.hostRead a lanes).root = s.root := rfl
@[simp] theorem State.hostRead_statOrig (s : State) (a : Offset) (lanes : BitVec 4) : (s.hostRead a lanes).statOrig = s.statOrig := rfl
@[simp] theorem State.hostRead_statEnc (s : State) (a : Offset) (lanes : BitVec 4) : (s.hostRead a lanes).statEnc = s.statEnc := rfl
@[simp] theorem State.hostRead_statSave (s : State) (a : Offset) (lanes : BitVec 4) : (s.hostRead a lanes).statSave = s.statSave := rfl
@[simp] theorem State.hostRead_statPct (s : State) (a : Offset) (lanes : BitVec 4) : (s.hostRead a lanes).statPct = s.statPct := rfl
@[simp] theorem State.hostRead_hist (s : State) (a : Offset) (lanes : BitVec 4) : (s.hostRead a lanes).hist = s.hist := rfl
@[simp] theorem State.hostRead_node (s : State) (a : Offset) (lanes : BitVec 4) : (s.hostRead a lanes).node = s.node := rfl
@[simp] theorem State.hostRead_code (s : State) (a : Offset) (lanes : BitVec 4) : (s.hostRead a lanes).code = s.code := rfl
@[simp] theorem State.hostRead_inMem (s : State) (a : Offset) (lanes : BitVec 4) : (s.hostRead a lanes).inMem = s.inMem := rfl
@[simp] theorem State.hostRead_bsMem (s : State) (a : Offset) (lanes : BitVec 4) : (s.hostRead a lanes).bsMem = s.bsMem := rfl
@[simp] theorem State.hostRead_outMem (s : State) (a : Offset) (lanes : BitVec 4) : (s.hostRead a lanes).outMem = s.outMem := rfl
@[simp] theorem State.hostRead_env (s : State) (a : Offset) (lanes : BitVec 4) : (s.hostRead a lanes).env = 
      { s.env with
        reply := some (.read (s.portRead a lanes).1 (s.portRead a lanes).2) } := rfl
@[simp] theorem State.hostRead_busy (s : State) (a : Offset) (lanes : BitVec 4) : (s.hostRead a lanes).busy = s.busy := rfl

/-! ### BUSY -/

/-- BUSY = 1 exactly when a command is in flight. -/
theorem State.busy_iff (s : State) : s.busy = true ↔ ∃ w, s.inFlight = some w := by
  cases h : s.inFlight <;> simp [State.busy, h]

/-- BUSY = 0 exactly when no command is in flight. -/
theorem State.not_busy_iff (s : State) : s.busy = false ↔ s.inFlight = none := by
  cases h : s.inFlight <;> simp [State.busy, h]

end Sys2Proof.Machine
end

