-- ==== Sys2Proof/Laws/Exec.lean ====
section
/-! SUPPORT. Said once: everything a command that completes can do, everything a command can fault on, and that no command is refused.
Later proofs take a completed command apart by these cases instead of unfolding the meanings. -/

namespace Sys2Proof.Machine

/-- The states a command can complete in, with what led there. -/
inductive ExecEffect (s : State) : Instr → State → Prop where
  | nop : ExecEffect s .nop s.complete
  | clear : ExecEffect s .clear s.clearDerived.complete
  | illegal (opc : BitVec 8) (rsvd : BitVec 24) : ExecEffect s (.illegal opc rsvd) (s.raise .illegalCmd none)
  | inLenRange (i : Instr) (hi : i = .count ∨ i = .encode ∨ i = .stats) (h : s.params.maxIn < s.inLen.toNat) :
    ExecEffect s i (s.raise .lenRange none)
  | bsLenRange (i : Instr) (hi : i = .decode ∨ i = .stats) (h : 8 * s.params.bsBytes < s.bsLen.toNat) :
    ExecEffect s i (s.raise .lenRange none)
  | count (h : Hist) (hlen : s.inLen.toNat ≤ s.params.maxIn)
    (hloop : countLoop s s.inLen.toNat 0 Hist.zero = .ok h) : ExecEffect s .count { s with hist := h }.complete
  | build : ExecEffect s .build
      { s with
        node := (buildTree s.hist).node
        root := (buildTree s.hist).root
        nsym := (buildTree s.hist).nsym
        nodeCnt := (buildTree s.hist).nodeCnt }.complete
  | generate (t : CodeTable) (h : codesOf s.node s.root = some t) :
    ExecEffect s .generate { s with code := t }.complete
  | encode (r : Encoded) (hlen : s.inLen.toNat ≤ s.params.maxIn)
    (hloop : encodeLoop s s.inLen.toNat 0 0 = .ok r) (herr : r.err = none) :
    ExecEffect s .encode (s.withStream r).complete
  | encodeError (r : Encoded) (code : ErrCode) (info : ErrInfo) (hlen : s.inLen.toNat ≤ s.params.maxIn)
    (hloop : encodeLoop s s.inLen.toNat 0 0 = .ok r) (herr : r.err = some (code, info)) :
    ExecEffect s .encode ((s.withStream r).raise code (some info))
  | decodeAbsent (hlen : s.bsLen.toNat ≤ 8 * s.params.bsBytes) (hp : s.root.present = false) :
    ExecEffect s .decode (s.withOutput [] s.bsLen.toNat).complete
  | decodeSynth (hlen : s.bsLen.toNat ≤ 8 * s.params.bsBytes) (hp : s.root.present = true)
    (hs : s.root.synth = true) :
    ExecEffect s .decode
      (s.withOutput (List.replicate s.bsLen.toNat (s.node.at (s.node.at s.root.idx).left).sym) 0).complete
  | decode (r : Decoded) (hlen : s.bsLen.toNat ≤ 8 * s.params.bsBytes) (hp : s.root.present = true)
    (hs : s.root.synth = false) (hloop : decodeLoop s s.root.idx s.bsLen.toNat 0 s.root.idx 0 = .ok r)
    (hend : r.start < s.bsLen.toNat → s.ctrl.strictDec = false) :
    ExecEffect s .decode (s.withOutput r.syms (s.bsLen.toNat - r.start)).complete
  | decodeError (r : Decoded) (hlen : s.bsLen.toNat ≤ 8 * s.params.bsBytes) (hp : s.root.present = true)
    (hs : s.root.synth = false) (hloop : decodeLoop s s.root.idx s.bsLen.toNat 0 s.root.idx 0 = .ok r)
    (hend : r.start < s.bsLen.toNat) (hstrict : s.ctrl.strictDec = true) :
    ExecEffect s .decode
      ((s.withOutput r.syms (s.bsLen.toNat - r.start)).raise .decodeMalformed
        (some ⟨BitVec.ofNat 32 r.start, 0⟩))
  | stats (hin : s.inLen.toNat ≤ s.params.maxIn) (hbs : s.bsLen.toNat ≤ 8 * s.params.bsBytes) :
    ExecEffect s .stats
      { s with
        statOrig := BitVec.ofNat 32 (8 * s.inLen.toNat)
        statEnc := s.bsLen
        statSave := BitVec.ofInt 32 ((8 * s.inLen.toNat : Nat) - (s.bsLen.toNat : Int))
        statPct :=
          BitVec.ofInt 32 (percent ((8 * s.inLen.toNat : Nat) - (s.bsLen.toNat : Int)) (8 * s.inLen.toNat)) }.complete

theorem State.inLenOut_eq (s : State) : s.inLenOut = decide (s.params.maxIn < s.inLen.toNat) := rfl

theorem State.bsLenOut_eq (s : State) : s.bsLenOut = decide (8 * s.params.bsBytes < s.bsLen.toNat) := rfl

/-- A command that completes does one of these things. -/
theorem exec_effect {i : Instr} {s t : State} (h : exec i s = .next t) : ExecEffect s i t := by
  cases i with
  | nop => cases h; exact .nop
  | clear => cases h; exact .clear
  | illegal opc rsvd => cases h; exact .illegal opc rsvd
  | build => cases h; exact .build
  | count =>
    simp only [exec, execCount, State.inLenOut_eq, decide_eq_true_eq] at h
    split at h
    · cases h; exact .inLenRange _ (.inl rfl) ‹_›
    · next hlen =>
      split at h
      · cases h
      · cases h; exact .count _ (by omega) ‹_›
  | generate =>
    simp only [exec, execGenerate] at h
    split at h
    · cases h
    · cases h; exact .generate _ ‹_›
  | encode =>
    simp only [exec, execEncode, State.inLenOut_eq, decide_eq_true_eq] at h
    split at h
    · cases h; exact .inLenRange _ (.inr (.inl rfl)) ‹_›
    · next hlen =>
      split at h
      · cases h
      · split at h
        · cases h; exact .encode _ (by omega) ‹_› ‹_›
        · cases h; exact .encodeError _ _ _ (by omega) ‹_› ‹_›
  | decode =>
    simp only [exec, execDecode, State.bsLenOut_eq, decide_eq_true_eq] at h
    split at h
    · cases h; exact .bsLenRange _ (.inl rfl) ‹_›
    · next hlen =>
      split at h
      · next hp => cases h; exact .decodeAbsent (by omega) (by simpa using hp)
      · next hp =>
        have hp : s.root.present = true := by simpa using hp
        split at h
        · next hs => cases h; exact .decodeSynth (by omega) hp hs
        · next hs =>
          have hs : s.root.synth = false := by simpa using hs
          split at h
          · cases h
          · next r hr =>
            split at h
            · next he =>
              simp only [Bool.and_eq_true, decide_eq_true_eq] at he
              cases h; exact .decodeError r (by omega) hp hs hr he.1 he.2
            · next he =>
              simp only [Bool.and_eq_true, decide_eq_true_eq, not_and, Bool.not_eq_true] at he
              cases h; exact .decode r (by omega) hp hs hr he
  | stats =>
    simp only [exec, execStats, State.inLenOut_eq, State.bsLenOut_eq, Bool.or_eq_true, decide_eq_true_eq] at h
    split at h
    · next ho =>
      cases h
      obtain ho | ho := ho
      · exact .inLenRange _ (.inr (.inr rfl)) ho
      · exact .bsLenRange _ (.inr rfl) ho
    · next ho => cases h; exact .stats (by omega) (by omega)

/-- A command that faults is a COUNT, ENCODE or DECODE whose loop faults, or a GENERATE whose traversal has no end. -/
theorem exec_fault {i : Instr} {s : State} {f : Fault} (h : exec i s = .fault f) :
    (i = .count ∧ countLoop s s.inLen.toNat 0 Hist.zero = .error f) ∨
    (i = .encode ∧ encodeLoop s s.inLen.toNat 0 0 = .error f) ∨
    (i = .decode ∧ s.root.present = true ∧ s.root.synth = false ∧
      decodeLoop s s.root.idx s.bsLen.toNat 0 s.root.idx 0 = .error f) ∨
    (i = .generate ∧ codesOf s.node s.root = none ∧ f = .treeCycle) := by
  cases i with
  | nop => cases h
  | clear => cases h
  | illegal opc rsvd => cases h
  | build => cases h
  | count =>
    simp only [exec, execCount] at h
    split at h
    · cases h
    · split at h
      · cases h; exact .inl ⟨rfl, ‹_›⟩
      · cases h
  | generate =>
    simp only [exec, execGenerate] at h
    split at h
    · cases h; exact .inr (.inr (.inr ⟨rfl, ‹_›, rfl⟩))
    · cases h
  | encode =>
    simp only [exec, execEncode] at h
    split at h
    · cases h
    · split at h
      · cases h; exact .inr (.inl ⟨rfl, ‹_›⟩)
      · split at h <;> cases h
  | decode =>
    simp only [exec, execDecode] at h
    split at h
    · cases h
    · split at h
      · cases h
      · next hp =>
        split at h
        · cases h
        · next hs =>
          split at h
          · cases h; exact .inr (.inr (.inl ⟨rfl, by simpa using hp, by simpa using hs, ‹_›⟩))
          · split at h <;> cases h
  | stats =>
    simp only [exec, execStats] at h
    split at h <;> cases h

/-- No command is refused. -/
theorem exec_not_refused (i : Instr) (s : State) (r : Refusal) : exec i s ≠ .refused r := by
  intro h
  cases i with
  | nop => cases h
  | clear => cases h
  | illegal opc rsvd => cases h
  | build => cases h
  | count => simp only [exec, execCount] at h; split at h; (· cases h); split at h <;> cases h
  | generate => simp only [exec, execGenerate] at h; split at h <;> cases h
  | encode =>
    simp only [exec, execEncode] at h
    split at h
    · cases h
    · split at h
      · cases h
      · split at h <;> cases h
  | decode =>
    simp only [exec, execDecode] at h
    split at h
    · cases h
    · split at h
      · cases h
      · split at h
        · cases h
        · split at h
          · cases h
          · split at h <;> cases h
  | stats => simp only [exec, execStats] at h; split at h <;> cases h

/-! ### What leads to each end of a command -/

theorem exec_count_next {s : State} {h : Hist} (hlen : s.inLen.toNat ≤ s.params.maxIn)
    (hloop : countLoop s s.inLen.toNat 0 Hist.zero = .ok h) : exec .count s = .next { s with hist := h }.complete := by
  show execCount s = _
  rw [execCount, if_neg (by rw [State.inLenOut_eq, decide_eq_true_eq]; omega), hloop]

theorem exec_count_fault {s : State} {f : Fault} (hlen : s.inLen.toNat ≤ s.params.maxIn)
    (hloop : countLoop s s.inLen.toNat 0 Hist.zero = .error f) : exec .count s = .fault f := by
  show execCount s = _
  rw [execCount, if_neg (by rw [State.inLenOut_eq, decide_eq_true_eq]; omega), hloop]

theorem exec_generate_next {s : State} {t : CodeTable} (h : codesOf s.node s.root = some t) :
    exec .generate s = .next { s with code := t }.complete := by
  show execGenerate s = _
  rw [execGenerate, h]

theorem exec_encode_next {s : State} {r : Encoded} (hlen : s.inLen.toNat ≤ s.params.maxIn)
    (hloop : encodeLoop s s.inLen.toNat 0 0 = .ok r) (herr : r.err = none) :
    exec .encode s = .next (s.withStream r).complete := by
  show execEncode s = _
  rw [execEncode, if_neg (by rw [State.inLenOut_eq, decide_eq_true_eq]; omega), hloop]
  simp only [herr]

theorem exec_encode_error {s : State} {r : Encoded} {code : ErrCode} {info : ErrInfo}
    (hlen : s.inLen.toNat ≤ s.params.maxIn) (hloop : encodeLoop s s.inLen.toNat 0 0 = .ok r)
    (herr : r.err = some (code, info)) : exec .encode s = .next ((s.withStream r).raise code (some info)) := by
  show execEncode s = _
  rw [execEncode, if_neg (by rw [State.inLenOut_eq, decide_eq_true_eq]; omega), hloop]
  simp only [herr]

theorem exec_encode_fault {s : State} {f : Fault} (hlen : s.inLen.toNat ≤ s.params.maxIn)
    (hloop : encodeLoop s s.inLen.toNat 0 0 = .error f) : exec .encode s = .fault f := by
  show execEncode s = _
  rw [execEncode, if_neg (by rw [State.inLenOut_eq, decide_eq_true_eq]; omega), hloop]

theorem exec_decode_absent {s : State} (hlen : s.bsLen.toNat ≤ 8 * s.params.bsBytes) (hp : s.root.present = false) :
    exec .decode s = .next (s.withOutput [] s.bsLen.toNat).complete := by
  show execDecode s = _
  rw [execDecode, if_neg (by rw [State.bsLenOut_eq, decide_eq_true_eq]; omega), if_pos (by rw [hp]; rfl)]

theorem exec_decode_synth {s : State} (hlen : s.bsLen.toNat ≤ 8 * s.params.bsBytes) (hp : s.root.present = true)
    (hs : s.root.synth = true) :
    exec .decode s =
      .next (s.withOutput (List.replicate s.bsLen.toNat (s.node.at (s.node.at s.root.idx).left).sym) 0).complete := by
  show execDecode s = _
  rw [execDecode, if_neg (by rw [State.bsLenOut_eq, decide_eq_true_eq]; omega), if_neg (by rw [hp]; decide), if_pos hs]

theorem exec_decode_next {s : State} {r : Decoded} (hlen : s.bsLen.toNat ≤ 8 * s.params.bsBytes)
    (hp : s.root.present = true) (hs : s.root.synth = false)
    (hloop : decodeLoop s s.root.idx s.bsLen.toNat 0 s.root.idx 0 = .ok r)
    (hend : r.start < s.bsLen.toNat → s.ctrl.strictDec = false) :
    exec .decode s = .next (s.withOutput r.syms (s.bsLen.toNat - r.start)).complete := by
  show execDecode s = _
  rw [execDecode, if_neg (by rw [State.bsLenOut_eq, decide_eq_true_eq]; omega), if_neg (by rw [hp]; decide),
    if_neg (by rw [hs]; decide), hloop]
  simp only
  rw [if_neg]
  rw [Bool.and_eq_true, decide_eq_true_eq]
  rintro ⟨h1, h2⟩
  rw [hend h1] at h2; cases h2

theorem exec_decode_error {s : State} {r : Decoded} (hlen : s.bsLen.toNat ≤ 8 * s.params.bsBytes)
    (hp : s.root.present = true) (hs : s.root.synth = false)
    (hloop : decodeLoop s s.root.idx s.bsLen.toNat 0 s.root.idx 0 = .ok r) (hend : r.start < s.bsLen.toNat)
    (hstrict : s.ctrl.strictDec = true) :
    exec .decode s =
      .next
        ((s.withOutput r.syms (s.bsLen.toNat - r.start)).raise .decodeMalformed (some ⟨BitVec.ofNat 32 r.start, 0⟩)) := by
  show execDecode s = _
  rw [execDecode, if_neg (by rw [State.bsLenOut_eq, decide_eq_true_eq]; omega), if_neg (by rw [hp]; decide),
    if_neg (by rw [hs]; decide), hloop]
  simp only
  rw [if_pos]
  rw [Bool.and_eq_true, decide_eq_true_eq]
  exact ⟨hend, hstrict⟩

theorem exec_decode_fault {s : State} {f : Fault} (hlen : s.bsLen.toNat ≤ 8 * s.params.bsBytes)
    (hp : s.root.present = true) (hs : s.root.synth = false)
    (hloop : decodeLoop s s.root.idx s.bsLen.toNat 0 s.root.idx 0 = .error f) : exec .decode s = .fault f := by
  show execDecode s = _
  rw [execDecode, if_neg (by rw [State.bsLenOut_eq, decide_eq_true_eq]; omega), if_neg (by rw [hp]; decide),
    if_neg (by rw [hs]; decide), hloop]

end Sys2Proof.Machine
end

