-- ==== Sys2Proof/Laws/Frame.lean ====
section
/-! SUPPORT. A command neither reads nor writes the record of the world outside. -/

namespace Sys2Proof.Machine

/-- A command that completes completes alike whatever the record of the world outside holds. -/
theorem exec_env {i : Instr} {s t : State} (h : exec i s = .next t) (e : Env) :
    exec i { s with env := e } = .next { t with env := e } := by
  have hx := exec_effect h
  cases hx with
  | nop => rfl
  | clear => rfl
  | illegal opc rsvd => rfl
  | build => rfl
  | inLenRange i hi hl =>
    have hl' : State.inLenOut { s with env := e } = true := decide_eq_true hl
    obtain rfl | rfl | rfl := hi
    · show execCount _ = _
      rw [execCount, if_pos hl']
      rfl
    · show execEncode _ = _
      rw [execEncode, if_pos hl']
      rfl
    · show execStats _ = _
      rw [execStats, hl', Bool.true_or, if_pos rfl]
      rfl
  | bsLenRange i hi hl =>
    have hl' : State.bsLenOut { s with env := e } = true := decide_eq_true hl
    obtain rfl | rfl := hi
    · show execDecode _ = _
      simp only [execDecode]
      rw [if_pos hl']
      rfl
    · show execStats _ = _
      rw [execStats, hl', Bool.or_true, if_pos rfl]
      rfl
  | count h hlen hloop =>
    rw [countLoop_congr (s := s) (s' := { s with env := e }) rfl] at hloop
    exact exec_count_next (s := { s with env := e }) hlen hloop
  | generate t ht => exact exec_generate_next (s := { s with env := e }) ht
  | encode r hlen hloop herr =>
    rw [encodeLoop_congr (s := s) (s' := { s with env := e }) rfl rfl rfl rfl] at hloop
    exact exec_encode_next (s := { s with env := e }) hlen hloop herr
  | encodeError r code info hlen hloop herr =>
    rw [encodeLoop_congr (s := s) (s' := { s with env := e }) rfl rfl rfl rfl] at hloop
    exact exec_encode_error (s := { s with env := e }) hlen hloop herr
  | decodeAbsent hlen hp => exact exec_decode_absent (s := { s with env := e }) hlen hp
  | decodeSynth hlen hp hs => exact exec_decode_synth (s := { s with env := e }) hlen hp hs
  | decode r hlen hp hs hloop hend =>
    rw [decodeLoop_congr (s := s) (s' := { s with env := e }) rfl rfl] at hloop
    exact exec_decode_next (s := { s with env := e }) hlen hp hs hloop hend
  | decodeError r hlen hp hs hloop hend hstrict =>
    rw [decodeLoop_congr (s := s) (s' := { s with env := e }) rfl rfl] at hloop
    exact exec_decode_error (s := { s with env := e }) hlen hp hs hloop hend hstrict
  | stats hin hbs =>
    show execStats _ = _
    rw [execStats, if_neg]
    · rfl
    · rw [State.inLenOut_eq, State.bsLenOut_eq, Bool.or_eq_true, decide_eq_true_eq, decide_eq_true_eq]
      exact fun h => h.elim (Nat.not_lt.2 hin) (Nat.not_lt.2 hbs)

end Sys2Proof.Machine
end

