-- ==== Sys2Proof/Laws/Generate.lean ====
section
/-! SUPPORT. The paths of a full tree and what GENERATE makes of them: every leaf has one path, the traversal makes one entry for each, and
an entry's bits are the path. -/

namespace Sys2Proof.Machine

/-! ### Paths -/

/-- One step through an internal node. -/
theorem Arena.descend_internal {a : Arena} {p l r : NodeIdx} {f : Freq} (h : a.at p = .internal l r f) (b : Bool)
    (bs : List Bool) : a.descend p (b :: bs) = a.descend (if b then r else l) bs := by
  rw [Arena.descend, h]

/-- No step leads on from a leaf. -/
theorem Arena.descend_leaf {a : Arena} {p : NodeIdx} {c : Byte} {f : Freq} (h : a.at p = .leaf c f) {bs : List Bool}
    {q : NodeIdx} (hd : a.descend p bs = some q) : bs = [] ∧ q = p := by
  cases bs with
  | nil => cases hd; exact ⟨rfl, rfl⟩
  | cons b bs => rw [Arena.descend, h] at hd; cases hd

/-- In a full tree a path that goes on goes through an internal node. -/
theorem State.descend_cons {s : State} {n : Nat} (h : s.treeFull n) {p q : NodeIdx} {b : Bool} {bs : List Bool}
    (hd : s.node.descend p (b :: bs) = some q) :
    n ≤ p.toNat ∧ p.toNat < 2 * n - 1 ∧ ∃ l r f, s.node.at p = .internal l r f ∧ l < p ∧ r < p ∧ l ≠ r ∧
      s.node.descend (if b then r else l) bs = some q := by
  obtain ⟨-, h1⟩ | ⟨h0, h1, l, r, f, h2, h3, h4, h5, -⟩ | ⟨-, h1⟩ := s.treeFull_at h p
  · obtain ⟨c, f, h1⟩ := Node.isLeaf_iff.1 h1
    obtain ⟨h, -⟩ := Arena.descend_leaf h1 hd
    cases h
  · rw [Arena.descend_internal h2] at hd
    exact ⟨h0, h1, l, r, f, h2, h3, h4, h5, hd⟩
  · rw [Arena.descend, h1] at hd; cases hd

/-- A path of a full tree leads down, and is shorter than there are internal nodes up to where it starts. -/
theorem State.descend_bound {s : State} {n : Nat} (h : s.treeFull n) {p q : NodeIdx} {bs : List Bool}
    (hd : s.node.descend p bs = some q) : q.toNat + bs.length ≤ p.toNat ∧ (bs = [] ∨ n + bs.length ≤ p.toNat + 1) := by
  induction bs generalizing p with
  | nil => cases hd; simp
  | cons b bs ih =>
    obtain ⟨h0, -, l, r, f, -, h3, h4, -, h5⟩ := State.descend_cons h hd
    obtain ⟨h6, h7⟩ := ih h5
    have hc : (if b then r else l).toNat < p.toNat := by
      rw [BitVec.lt_def] at h3 h4
      cases b; exacts [h3, h4]
    rw [List.length_cons]
    refine ⟨by omega, .inr ?_⟩
    obtain rfl | h7 := h7
    · rw [List.length_nil]; omega
    · omega

theorem State.treeFull_root_toNat {s : State} {n : Nat} (h : s.treeFull n) : s.root.idx.toNat = 2 * n - 2 := by
  have h256 := h.2.1
  rw [h.2.2.1, BitVec.toNat_ofNat]
  omega

/-- A code has at most 255 bits (R9). -/
theorem State.path_length_le {s : State} {n : Nat} (h : s.treeFull n) {q : NodeIdx} {bs : List Bool}
    (hd : s.node.descend s.root.idx bs = some q) : bs.length ≤ 255 := by
  have h256 := h.2.1
  have hr := s.treeFull_root_toNat h
  obtain rfl | hb := (State.descend_bound h hd).2
  · simp
  · omega

/-- Two parents of a node of a full tree, not the root, are one. -/
theorem State.parent_unique {s : State} {n : Nat} (h : s.treeFull n) {i m m' : NodeIdx}
    (hi : i.toNat < 2 * n - 2) (hm : m.toNat < 2 * n - 1) (hm' : m'.toNat < 2 * n - 1)
    (hc : (s.node.at m).hasChild i = true) (hc' : (s.node.at m').hasChild i = true) : m = m' := by
  obtain ⟨-, -, -, -, -, -, -, -, hp, -⟩ := h
  have h1 := hp i hi
  unfold Arena.parents at h1
  obtain ⟨x, hx⟩ := List.length_eq_one_iff.1 h1
  have hmem : ∀ k : NodeIdx, k.toNat < 2 * n - 1 → (s.node.at k).hasChild i = true → k.toNat = x := by
    intro k hk hkc
    have : k.toNat ∈ (List.range (2 * n - 1)).filter fun j => (s.node.at (BitVec.ofNat 9 j)).hasChild i := by
      rw [List.mem_filter, List.mem_range]
      exact ⟨hk, by simpa using hkc⟩
    rw [hx, List.mem_singleton] at this
    exact this
  exact BitVec.eq_of_toNat_eq ((hmem m hm hc).trans (hmem m' hm' hc').symm)

/-- Every node of a full tree but the root has a parent. -/
theorem State.exists_parent {s : State} {n : Nat} (h : s.treeFull n) {i : NodeIdx} (hi : i.toNat < 2 * n - 2) :
    ∃ m l r f, m.toNat < 2 * n - 1 ∧ i < m ∧ s.node.at m = .internal l r f ∧ (l = i ∨ r = i) := by
  have h256 := h.2.1
  have h1 := h.2.2.2.2.2.2.2.2.1 i hi
  unfold Arena.parents at h1
  obtain ⟨x, hx⟩ := List.length_eq_one_iff.1 h1
  have hmem : x ∈ (List.range (2 * n - 1)).filter fun j => (s.node.at (BitVec.ofNat 9 j)).hasChild i := by
    rw [hx]; exact List.mem_singleton_self x
  rw [List.mem_filter, List.mem_range] at hmem
  obtain ⟨hlt, hc⟩ := hmem
  obtain ⟨-, g⟩ | ⟨-, g0, l, r, f, g, g1, g2, -⟩ | ⟨-, g⟩ := s.treeFull_at h (BitVec.ofNat 9 x)
  · obtain ⟨c, f, g⟩ := Node.isLeaf_iff.1 g
    rw [g] at hc; cases hc
  · rw [g] at hc
    have hlr : l = i ∨ r = i := by simpa [Node.hasChild] using hc
    exact ⟨_, l, r, f, g0, by obtain e | e := hlr; exacts [e ▸ g1, e ▸ g2], g, hlr⟩
  · rw [g] at hc; cases hc

/-- Every node of a full tree is reached from the root. -/
theorem State.reached {s : State} {n : Nat} (h : s.treeFull n) (k : Nat) {i : NodeIdx} (hi : i.toNat < 2 * n - 1)
    (hk : 2 * n - 2 - i.toNat ≤ k) : ∃ bs, s.node.descend s.root.idx bs = some i := by
  have hr := s.treeFull_root_toNat h
  have hroot : i.toNat = 2 * n - 2 → ∃ bs, s.node.descend s.root.idx bs = some i := fun e =>
    ⟨[], congrArg some (BitVec.eq_of_toNat_eq (hr.trans e.symm))⟩
  induction k generalizing i with
  | zero => exact hroot (by omega)
  | succ k ih =>
    by_cases e : i.toNat = 2 * n - 2
    · exact hroot e
    · obtain ⟨m, l, r, f, h1, h2, h3, h4⟩ := State.exists_parent h (i := i) (by omega)
      rw [BitVec.lt_def] at h2
      obtain ⟨bs, hb⟩ := ih (i := m) h1 (by omega) fun e =>
        ⟨[], congrArg some (BitVec.eq_of_toNat_eq (hr.trans e.symm))⟩
      obtain rfl | rfl := h4
      · exact ⟨bs ++ [false], by rw [Arena.descend_append, hb]; exact Arena.descend_internal h3 false []⟩
      · exact ⟨bs ++ [true], by rw [Arena.descend_append, hb]; exact Arena.descend_internal h3 true []⟩

/-- The last step of a path of a full tree. -/
theorem State.descend_snoc {s : State} {n : Nat} (h : s.treeFull n) {p q : NodeIdx} {b : Bool} {bs : List Bool}
    (hd : s.node.descend p (bs ++ [b]) = some q) :
    ∃ m l r f, s.node.descend p bs = some m ∧ m.toNat < 2 * n - 1 ∧ s.node.at m = .internal l r f ∧ l ≠ r ∧
      q < m ∧ q = if b then r else l := by
  rw [Arena.descend_append] at hd
  cases hm : s.node.descend p bs with
  | none => rw [hm] at hd; cases hd
  | some m =>
    rw [hm] at hd
    obtain ⟨-, h0, l, r, f, h1, h2, h3, h4, h5⟩ := State.descend_cons h hd
    cases h5
    exact ⟨m, l, r, f, rfl, h0, h1, h4, by cases b; exacts [h2, h3], rfl⟩

/-- A node of a full tree has one path from the root. -/
theorem State.path_unique {s : State} {n : Nat} (h : s.treeFull n) {q : NodeIdx} {bs bs' : List Bool}
    (hd : s.node.descend s.root.idx bs = some q) (hd' : s.node.descend s.root.idx bs' = some q) : bs = bs' := by
  have hr := s.treeFull_root_toNat h
  have hnil : ∀ (xs : List Bool) (b : Bool), s.node.descend s.root.idx [] = some q →
      s.node.descend s.root.idx (xs ++ [b]) = some q → False := by
    intro xs b h1 h2
    cases h1
    have := (State.descend_bound h h2).1
    rw [List.length_append, List.length_singleton] at this
    omega
  induction bs using List.reverseRecOn generalizing bs' q with
  | nil =>
    obtain rfl | ⟨xs, b, e⟩ := List.eq_nil_or_concat bs'
    · rfl
    rw [List.concat_eq_append] at e
    subst e
    · exact (hnil xs b hd hd').elim
  | append_singleton bs b ih =>
    obtain rfl | ⟨xs, b', e⟩ := List.eq_nil_or_concat bs'
    · exact (hnil bs b hd' hd).elim
    rw [List.concat_eq_append] at e
    subst e
    · obtain ⟨m, l, r, f, h1, h2, h3, h4, h5, h6⟩ := State.descend_snoc h hd
      obtain ⟨m', l', r', f', g1, g2, g3, g4, g5, g6⟩ := State.descend_snoc h hd'
      rw [BitVec.lt_def] at h5
      have hq : q.toNat < 2 * n - 2 := by omega
      have hmm : m = m' := by
        refine State.parent_unique h hq h2 g2 ?_ ?_
        · rw [h3, h6]; cases b <;> simp [Node.hasChild]
        · rw [g3, g6]; cases b' <;> simp [Node.hasChild]
      subst hmm
      rw [h3] at g3
      cases g3
      have hb : b = b' := by
        cases b <;> cases b' <;> first | rfl | (rw [h6] at g6; simp at g6; first | exact absurd g6 h4 | exact absurd g6.symm h4)
      rw [hb, ih h1 g1 fun xs b k1 k2 => ?_]
      cases k1
      have := (State.descend_bound h k2).1
      rw [List.length_append, List.length_singleton] at this
      omega

/-- A symbol of a full tree has one path. -/
theorem State.leafPath_unique {s : State} {n : Nat} (h : s.treeFull n) {c : Byte} {bs bs' : List Bool}
    (hp : s.node.leafPath s.root.idx c bs) (hp' : s.node.leafPath s.root.idx c bs') : bs = bs' := by
  obtain ⟨q, f, h1, h2⟩ := hp
  obtain ⟨q', f', g1, g2⟩ := hp'
  have hlt : ∀ {x : NodeIdx} {f : Freq}, s.node.at x = .leaf c f → x.toNat < n := by
    intro x f hx
    obtain ⟨k, -⟩ | ⟨-, -, l, r, f, k, -⟩ | ⟨-, k⟩ := s.treeFull_at h x
    · exact k
    · rw [hx] at k; cases k
    · rw [hx] at k; cases k
  have hs := h.2.2.2.2.2.2.1
  have : q = q' := by
    obtain hlt' | e | hlt' := Nat.lt_trichotomy q.toNat q'.toNat
    · have := hs q q' (BitVec.lt_def.2 hlt') (hlt g2)
      rw [h2, g2] at this
      simp [Node.sym] at this
    · exact BitVec.eq_of_toNat_eq e
    · have := hs q' q (BitVec.lt_def.2 hlt') (hlt h2)
      rw [h2, g2] at this
      simp [Node.sym] at this
  subst this
  exact State.path_unique h h1 g1

/-- No path to a leaf of a full tree is the beginning of another's. -/
theorem State.leafPath_prefix {s : State} {c c' : Byte} {bs bs' : List Bool}
    (hp : s.node.leafPath s.root.idx c bs) (hp' : s.node.leafPath s.root.idx c' bs') (hb : bs <+: bs') : c = c' := by
  obtain ⟨q, f, h1, h2⟩ := hp
  obtain ⟨q', f', g1, g2⟩ := hp'
  obtain ⟨t, rfl⟩ := hb
  rw [Arena.descend_append, h1] at g1
  obtain ⟨-, rfl⟩ := Arena.descend_leaf h2 g1
  rw [h2] at g2
  cases g2
  rfl

/-! ### Entries and their bits (R38) -/

/-- The number a path spells below a number, first bit most significant (R140). -/
def pathVal (v : Nat) : List Bool → Nat
  | [] => v
  | b :: bs => pathVal (2 * v + b.toNat) bs

/-- The entry `visit` makes of a path length and its value. -/
def pathEntry (l v : Nat) : CodeEntry := if l = 0 then ⟨1, 0⟩ else ⟨BitVec.ofNat 8 l, BitVec.ofNat 256 v⟩

theorem pathVal_testBit (bs : List Bool) (v k : Nat) :
    (pathVal v bs).testBit k = if h : k < bs.length then bs[bs.length - 1 - k] else v.testBit (k - bs.length) := by
  induction bs generalizing v with
  | nil => simp [pathVal]
  | cons b bs ih =>
    rw [pathVal, ih]
    by_cases h1 : k < bs.length
    · rw [dif_pos h1, dif_pos (by rw [List.length_cons]; omega)]
      have e : (b :: bs).length - 1 - k = (bs.length - 1 - k) + 1 := by rw [List.length_cons]; omega
      simp only [e, List.getElem_cons_succ]
    · rw [dif_neg h1]
      by_cases h2 : k = bs.length
      · subst h2
        rw [dif_pos (by simp)]
        simp only [Nat.sub_self, List.length_cons, Nat.add_sub_cancel, List.getElem_cons_zero]
        rw [Nat.testBit_zero]
        cases b <;> simp
      · rw [dif_neg (by rw [List.length_cons]; omega), List.length_cons]
        have e : k - bs.length = (k - (bs.length + 1)) + 1 := by omega
        rw [e, Nat.testBit_succ]
        congr 1
        have := Bool.toNat_lt b
        omega

theorem pathVal_lt (bs : List Bool) {v l : Nat} (h : v < 2 ^ l) : pathVal v bs < 2 ^ (l + bs.length) := by
  induction bs generalizing v l with
  | nil => simpa [pathVal] using h
  | cons b bs ih =>
    rw [pathVal, List.length_cons, show l + (bs.length + 1) = (l + 1) + bs.length by omega]
    refine ih ?_
    rw [Nat.pow_succ]
    cases b <;> simp <;> omega

theorem pathEntry_len {l v : Nat} (h0 : l ≠ 0) (h : l ≤ 255) : (pathEntry l v).len.toNat = l := by
  rw [pathEntry, if_neg h0]
  simp; omega

theorem pathEntry_len_ne {l v : Nat} (h : l ≤ 255) : (pathEntry l v).len ≠ 0 := by
  intro e
  by_cases h0 : l = 0
  · rw [pathEntry, if_pos h0] at e; cases e
  · have := pathEntry_len (v := v) h0 h
    rw [e] at this
    simp at this; omega

/-- The bits of a path's entry are the path. -/
theorem pathEntry_bits {bs : List Bool} (h0 : bs ≠ []) (h : bs.length ≤ 255) :
    (pathEntry bs.length (pathVal 0 bs)).bits = bs := by
  have hl : bs.length ≠ 0 := fun e => h0 (List.length_eq_zero_iff.1 e)
  have hlen := pathEntry_len (v := pathVal 0 bs) hl h
  apply List.ext_getElem
  · rw [CodeEntry.length_bits, hlen]
  · intro j h1 h2
    simp only [CodeEntry.bits, List.getElem_map, List.getElem_range, hlen]
    rw [pathEntry, if_neg hl, BitVec.getLsbD_ofNat, pathVal_testBit, dif_pos (by omega)]
    have : decide (bs.length - 1 - j < 256) = true := by rw [decide_eq_true_eq]; omega
    rw [this, Bool.true_and]
    congr 1
    omega

/-- An entry's value fits its length. -/
theorem pathEntry_fits {l v : Nat} (h : l ≤ 255) (hv : v < 2 ^ l) :
    (pathEntry l v).val.toNat < 2 ^ (pathEntry l v).len.toNat := by
  by_cases h0 : l = 0
  · rw [pathEntry, if_pos h0]; decide
  · rw [pathEntry_len h0 h, pathEntry, if_neg h0, BitVec.toNat_ofNat]
    exact Nat.lt_of_le_of_lt (Nat.mod_le _ _) hv

/-! ### The traversal (R140, R141) -/

theorem visit_leaf {a : Arena} {i : NodeIdx} {c : Byte} {f : Freq} (h : a.at i = .leaf c f) (fuel l v : Nat) :
    visit a (fuel + 1) i l v = some [(c, pathEntry l v)] := by
  rw [visit, h]
  rfl

theorem visit_internal {a : Arena} {i x y : NodeIdx} {f : Freq} (h : a.at i = .internal x y f) {fuel l v : Nat}
    {xs ys : List (Byte × CodeEntry)} (hx : visit a fuel x (l + 1) (2 * v) = some xs)
    (hy : visit a fuel y (l + 1) (2 * v + 1) = some ys) : visit a (fuel + 1) i l v = some (xs ++ ys) := by
  rw [visit, h]
  simp only [hx, hy]

/-- On a full tree the traversal ends, and makes one entry for every path to a leaf. -/
theorem visit_full {s : State} {n : Nat} (h : s.treeFull n) (fuel : Nat) {i : NodeIdx} (hf : i.toNat < fuel)
    (hi : i.toNat < 2 * n - 1) (l v : Nat) :
    ∃ xs, visit s.node fuel i l v = some xs ∧
      ∀ c e, (c, e) ∈ xs ↔ ∃ bs, s.node.leafPath i c bs ∧ e = pathEntry (l + bs.length) (pathVal v bs) := by
  induction fuel generalizing i l v with
  | zero => omega
  | succ fuel ih =>
    obtain ⟨-, g⟩ | ⟨g0, -, x, y, f, g, hx, hy, -⟩ | ⟨g, -⟩ := s.treeFull_at h i
    · obtain ⟨c, f, g⟩ := Node.isLeaf_iff.1 g
      refine ⟨_, visit_leaf g fuel l v, fun c' e => ?_⟩
      rw [List.mem_singleton]
      constructor
      · intro he
        cases he
        exact ⟨[], ⟨i, f, rfl, g⟩, rfl⟩
      · rintro ⟨bs, ⟨q, f', h1, h2⟩, rfl⟩
        obtain ⟨rfl, rfl⟩ := Arena.descend_leaf g h1
        rw [g] at h2
        cases h2
        rfl
    · rw [BitVec.lt_def] at hx hy
      obtain ⟨xs, hxs, hx'⟩ := ih (i := x) (by omega) (by omega) (l + 1) (2 * v)
      obtain ⟨ys, hys, hy'⟩ := ih (i := y) (by omega) (by omega) (l + 1) (2 * v + 1)
      refine ⟨_, visit_internal g hxs hys, fun c e => ?_⟩
      rw [List.mem_append, hx', hy']
      constructor
      · rintro (⟨bs, ⟨q, f', h1, h2⟩, rfl⟩ | ⟨bs, ⟨q, f', h1, h2⟩, rfl⟩)
        · refine ⟨false :: bs, ⟨q, f', by rw [Arena.descend_internal g]; exact h1, h2⟩, ?_⟩
          rw [List.length_cons, show l + 1 + bs.length = l + (bs.length + 1) by omega]
          rfl
        · refine ⟨true :: bs, ⟨q, f', by rw [Arena.descend_internal g]; exact h1, h2⟩, ?_⟩
          rw [List.length_cons, show l + 1 + bs.length = l + (bs.length + 1) by omega]
          rfl
      · rintro ⟨bs, ⟨q, f', h1, h2⟩, rfl⟩
        cases bs with
        | nil => cases h1; rw [g] at h2; cases h2
        | cons b bs =>
          rw [Arena.descend_internal g] at h1
          rw [List.length_cons, show l + (bs.length + 1) = l + 1 + bs.length by omega]
          cases b with
          | false => exact .inl ⟨bs, ⟨q, f', h1, h2⟩, rfl⟩
          | true => exact .inr ⟨bs, ⟨q, f', h1, h2⟩, rfl⟩
    · omega

/-- Below a node reached from the root the traversal makes at most one entry for a symbol. -/
theorem visit_nodup {s : State} {n : Nat} (h : s.treeFull n) (fuel : Nat) {i : NodeIdx} {pre : List Bool}
    (hpre : s.node.descend s.root.idx pre = some i) (hf : i.toNat < fuel) (hi : i.toNat < 2 * n - 1) {l v : Nat}
    {xs : List (Byte × CodeEntry)} (hv : visit s.node fuel i l v = some xs) : (xs.map Prod.fst).Nodup := by
  induction fuel generalizing i pre l v xs with
  | zero => omega
  | succ fuel ih =>
    obtain ⟨-, g⟩ | ⟨g0, -, x, y, f, g, hx, hy, -⟩ | ⟨g, -⟩ := s.treeFull_at h i
    · obtain ⟨c, f, g⟩ := Node.isLeaf_iff.1 g
      rw [visit_leaf g] at hv
      cases hv
      exact List.nodup_singleton c
    · rw [BitVec.lt_def] at hx hy
      obtain ⟨xs', hxs, hx'⟩ := visit_full h fuel (i := x) (by omega) (by omega) (l + 1) (2 * v)
      obtain ⟨ys', hys, hy'⟩ := visit_full h fuel (i := y) (by omega) (by omega) (l + 1) (2 * v + 1)
      rw [visit_internal g hxs hys] at hv
      cases hv
      have hpx : s.node.descend s.root.idx (pre ++ [false]) = some x := by
        rw [Arena.descend_append, hpre]; exact Arena.descend_internal g false []
      have hpy : s.node.descend s.root.idx (pre ++ [true]) = some y := by
        rw [Arena.descend_append, hpre]; exact Arena.descend_internal g true []
      rw [List.map_append, List.nodup_append]
      refine ⟨ih hpx (by omega) (by omega) hxs, ih hpy (by omega) (by omega) hys, ?_⟩
      intro c hc d hd e
      subst e
      obtain ⟨⟨c', e⟩, he, rfl⟩ := List.mem_map.1 hc
      obtain ⟨⟨c'', e'⟩, he', hcc⟩ := List.mem_map.1 hd
      obtain ⟨bs, ⟨q, f1, k1, k2⟩, -⟩ := (hx' _ _).1 he
      obtain ⟨bs', ⟨q', f2, k3, k4⟩, -⟩ := (hy' _ _).1 he'
      have hcc : c'' = c' := hcc
      subst hcc
      have p1 : s.node.leafPath s.root.idx c'' ((pre ++ [false]) ++ bs) :=
        ⟨q, f1, by rw [Arena.descend_append, hpx]; exact k1, k2⟩
      have p2 : s.node.leafPath s.root.idx c'' ((pre ++ [true]) ++ bs') :=
        ⟨q', f2, by rw [Arena.descend_append, hpy]; exact k3, k4⟩
      have := State.leafPath_unique h p1 p2
      simp at this
    · omega

/-- The entries below a node that is not a leaf at the root share out exactly its part of the code space (R144). -/
theorem visit_kraft {s : State} {n : Nat} (h : s.treeFull n) (fuel : Nat) {i : NodeIdx} (hf : i.toNat < fuel)
    (hi : i.toNat < 2 * n - 1) {l v : Nat} (hl : l ≤ 255) (hb : n ≤ i.toNat → l + i.toNat + 1 ≤ n + 255)
    (h0 : i.toNat < n → l ≠ 0) {xs : List (Byte × CodeEntry)} (hv : visit s.node fuel i l v = some xs) :
    (xs.map fun p => 2 ^ (256 - p.2.len.toNat)).sum = 2 ^ (256 - l) := by
  induction fuel generalizing i l v xs with
  | zero => omega
  | succ fuel ih =>
    obtain ⟨hn, g⟩ | ⟨g0, -, x, y, f, g, hx, hy, -⟩ | ⟨g, -⟩ := s.treeFull_at h i
    · obtain ⟨c, f, g⟩ := Node.isLeaf_iff.1 g
      rw [visit_leaf g] at hv
      cases hv
      rw [List.map_singleton, List.sum_singleton, pathEntry_len (h0 hn) hl]
    · rw [BitVec.lt_def] at hx hy
      obtain ⟨xs', hxs, -⟩ := visit_full h fuel (i := x) (by omega) (by omega) (l + 1) (2 * v)
      obtain ⟨ys', hys, -⟩ := visit_full h fuel (i := y) (by omega) (by omega) (l + 1) (2 * v + 1)
      rw [visit_internal g hxs hys] at hv
      cases hv
      have hb := hb g0
      rw [List.map_append, List.sum_append,
        ih (i := x) (by omega) (by omega) (by omega) (fun _ => by omega) (fun _ => by omega) hxs,
        ih (i := y) (by omega) (by omega) (by omega) (fun _ => by omega) (fun _ => by omega) hys,
        show 256 - l = (256 - (l + 1)) + 1 by omega, Nat.pow_succ]
      omega
    · omega

/-! ### The code table -/

/-- A symbol with no entry in the list keeps the entry it has. -/
theorem CodeTable.assign_at_of_not_mem {xs : List (Byte × CodeEntry)} {c : Byte} (h : ∀ e, (c, e) ∉ xs)
    (t : CodeTable) : (t.assign xs).at c = t.at c := by
  induction xs generalizing t with
  | nil => rfl
  | cons p xs ih =>
    obtain ⟨d, e⟩ := p
    have hcd : c ≠ d := fun hcd => h e (by rw [hcd]; exact List.mem_cons_self)
    rw [CodeTable.assign, ih fun e he => h e (List.mem_cons_of_mem _ he), CodeTable.at_put, if_neg hcd]

/-- A symbol whose entries in the list are all the same gets it. -/
theorem CodeTable.assign_at_of_mem {xs : List (Byte × CodeEntry)} {c : Byte} {e : CodeEntry} (h : (c, e) ∈ xs)
    (hu : ∀ e', (c, e') ∈ xs → e' = e) (t : CodeTable) : (t.assign xs).at c = e := by
  induction xs generalizing t with
  | nil => cases h
  | cons p xs ih =>
    obtain ⟨d, e1⟩ := p
    rw [CodeTable.assign]
    by_cases hin : ∃ e', (c, e') ∈ xs
    · obtain ⟨e', he'⟩ := hin
      have := hu e' (List.mem_cons_of_mem _ he')
      subst this
      exact ih he' (fun e'' he'' => hu e'' (List.mem_cons_of_mem _ he'')) _
    · rw [CodeTable.assign_at_of_not_mem fun e' he' => hin ⟨e', he'⟩]
      obtain hc | hc := List.mem_cons.1 h
      · cases hc
        rw [CodeTable.at_put, if_pos rfl]
      · exact absurd ⟨e, hc⟩ hin

/-- GENERATE's table on a full tree: every symbol with a path to its leaf has the path's entry, and no other symbol has one. -/
theorem codesOf_full {s : State} {n : Nat} (h : s.treeFull n) :
    ∃ t, codesOf s.node s.root = some t ∧
      (∀ c bs, s.node.leafPath s.root.idx c bs →
        t.at c = pathEntry bs.length (pathVal 0 bs) ∧ (t.at c).bits = bs ∧ bs ≠ [] ∧ bs.length ≤ 255) ∧
      ∀ c, (∀ bs, ¬ s.node.leafPath s.root.idx c bs) → t.at c = ⟨0, 0⟩ := by
  have h256 := h.2.1
  have h2 := h.1
  have hr := s.treeFull_root_toNat h
  obtain ⟨xs, hxs, hmem⟩ := visit_full h arenaSize (i := s.root.idx) (by rw [hr]; unfold arenaSize; omega) (by omega) 0 0
  refine ⟨CodeTable.empty.assign xs, ?_, fun c bs hp => ?_, fun c hp => ?_⟩
  · rw [codesOf, if_pos (by rw [h.2.2.1]), hxs]
    rfl
  · have hne : bs ≠ [] := by
      rintro rfl
      obtain ⟨q, f, h1, h3⟩ := hp
      cases h1
      have := s.treeFull_root h
      rw [h3] at this
      cases this
    have hlen : bs.length ≤ 255 := by
      obtain ⟨q, f, h1, -⟩ := hp
      exact State.path_length_le h h1
    have he : (CodeTable.empty.assign xs).at c = pathEntry bs.length (pathVal 0 bs) := by
      refine CodeTable.assign_at_of_mem ((hmem _ _).2 ⟨bs, hp, by rw [Nat.zero_add]⟩) (fun e' he' => ?_) _
      obtain ⟨bs', hp', rfl⟩ := (hmem _ _).1 he'
      rw [State.leafPath_unique h hp hp', Nat.zero_add]
    exact ⟨he, by rw [he]; exact pathEntry_bits hne hlen, hne, hlen⟩
  · rw [CodeTable.assign_at_of_not_mem, CodeTable.at_empty]
    intro e he
    obtain ⟨bs, hb, -⟩ := (hmem _ _).1 he
    exact hp bs hb

/-- A symbol has a path to its leaf exactly where some node is its leaf. -/
theorem State.exists_leafPath_iff {s : State} {n : Nat} (h : s.treeFull n) (c : Byte) :
    (∃ bs, s.node.leafPath s.root.idx c bs) ↔ ∃ i f, s.node.at i = .leaf c f := by
  constructor
  · rintro ⟨bs, q, f, -, hq⟩
    exact ⟨q, f, hq⟩
  · rintro ⟨i, f, hi⟩
    have : i.toNat < 2 * n - 1 := by
      obtain ⟨k, -⟩ | ⟨-, k, -⟩ | ⟨-, k⟩ := s.treeFull_at h i
      · have := h.1; omega
      · exact k
      · rw [hi] at k; cases k
    obtain ⟨bs, hb⟩ := State.reached h (2 * n) this (by omega)
    exact ⟨bs, i, f, hb, hi⟩

/-- GENERATE's table on the synthetic tree: the one symbol has the code 0. -/
theorem codesOf_synth {s : State} (h : s.treeSynth) {c : Byte} {f : Freq} (h0 : s.node.at 0 = .leaf c f) :
    codesOf s.node s.root = some (CodeTable.empty.put c ⟨1, 0⟩) := by
  obtain ⟨hr, -, -, ⟨c', f', h1, h2⟩, -⟩ := h
  rw [codesOf, hr]
  simp only [if_true]
  rw [show arenaSize = 510 + 1 + 1 from rfl, visit]
  simp only [h2]
  rw [visit_leaf h0]
  rfl

/-- GENERATE's table on the absent tree. -/
theorem codesOf_absent {a : Arena} {r : Root} (h : r.present = false) : codesOf a r = some CodeTable.empty := by
  rw [codesOf, if_neg (by rw [h]; decide)]

/-- GENERATE ends on every tree that keeps R35. -/
theorem codesOf_treeInv {s : State} (h : s.treeInv) : ∃ t, codesOf s.node s.root = some t := by
  obtain h | h | ⟨n, h⟩ := h
  · exact ⟨_, codesOf_absent (by rw [h.1])⟩
  · obtain ⟨-, -, -, ⟨c, f, h1, -⟩, -⟩ := id h
    exact ⟨_, codesOf_synth h h1⟩
  · obtain ⟨t, ht, -⟩ := codesOf_full h
    exact ⟨t, ht⟩

end Sys2Proof.Machine
end

