-- ==== Sys2Proof/Laws/Memory.lean ====
section
/-! SUPPORT. The laws of a buffer RAM: read after write, the bytes a write of several leaves, and that every operation keeps the
canonical form and the capacity. -/

namespace Sys2Proof.Machine

@[simp] theorem Memory.read_empty (a : Nat) : Memory.read [] a = none := rfl

theorem Memory.read_cons (k : Nat) (b : Byte) (m : Memory) (a : Nat) :
    Memory.read ((k, b) :: m) a = if k = a then some b else Memory.read m a := rfl

/-- What a byte reads as after a write of one byte. -/
theorem Memory.read_write (m : Memory) (a x : Nat) (b : Byte) :
    (m.write a b).read x = if x = a then some b else m.read x := by
  induction m with
  | nil => simp [Memory.write, Memory.read_cons, eq_comm]
  | cons cell m ih =>
    obtain ⟨k, c⟩ := cell
    unfold Memory.write
    split
    · simp [Memory.read_cons, eq_comm]
    · split
      · subst a
        simp only [Memory.read_cons]
        by_cases h : k = x
        · simp [h]
        · simp [h, Ne.symm h]
      · simp only [Memory.read_cons, ih]
        by_cases h : k = x
        · have : x ≠ a := by omega
          simp [h, this]
        · simp [h]

@[simp] theorem Memory.read_write_same (m : Memory) (a : Nat) (b : Byte) : (m.write a b).read a = some b := by
  simp [Memory.read_write]

theorem Memory.read_write_other {m : Memory} {a x : Nat} {b : Byte} (h : x ≠ a) :
    (m.write a b).read x = m.read x := by
  simp [Memory.read_write, h]

@[simp] theorem Memory.writeBytes_nil (m : Memory) (a : Nat) : m.writeBytes a [] = m := rfl

theorem Memory.writeBytes_cons (m : Memory) (a : Nat) (b : Byte) (bs : List Byte) :
    m.writeBytes a (b :: bs) = (m.write a b).writeBytes (a + 1) bs := rfl

/-- A byte outside those written reads as before. -/
theorem Memory.read_writeBytes_outside {m : Memory} {a x : Nat} {bs : List Byte}
    (h : x < a ∨ a + bs.length ≤ x) : (m.writeBytes a bs).read x = m.read x := by
  induction bs generalizing m a with
  | nil => rfl
  | cons b bs ih =>
    simp only [List.length_cons] at h
    rw [Memory.writeBytes_cons, ih (by omega), Memory.read_write_other (by omega)]

/-- A byte among those written reads as what was written there. -/
theorem Memory.read_writeBytes_inside {m : Memory} {a i : Nat} {bs : List Byte} (h : i < bs.length) :
    (m.writeBytes a bs).read (a + i) = some bs[i] := by
  induction bs generalizing m a i with
  | nil => simp at h
  | cons b bs ih =>
    rw [Memory.writeBytes_cons]
    cases i with
    | zero => rw [Memory.read_writeBytes_outside (by omega)]; simp
    | succ i =>
      have := ih (m := m.write a b) (a := a + 1) (i := i) (by simpa using h)
      simpa [Nat.add_assoc, Nat.add_comm 1 i] using this

/-- A byte from an index 0 write up. -/
theorem Memory.read_writeBytes_zero {m : Memory} {i : Nat} {bs : List Byte} (h : i < bs.length) :
    (m.writeBytes 0 bs).read i = some bs[i] := by
  simpa using Memory.read_writeBytes_inside (m := m) (a := 0) h

/-- The canonical form of a memory with a first cell: the cells after it are canonical and lie above it. -/
theorem Memory.wf_cons (k : Nat) (c : Byte) (m : Memory) :
    Memory.wf ((k, c) :: m) = true ↔ (∀ cell ∈ m, k < cell.1) ∧ m.wf = true := by
  induction m generalizing k c with
  | nil => simp [Memory.wf]
  | cons cell m ih =>
    obtain ⟨k', c'⟩ := cell
    simp only [Memory.wf, Bool.and_eq_true, decide_eq_true_eq, List.mem_cons, forall_eq_or_imp]
    constructor
    · rintro ⟨h, hw⟩
      exact ⟨⟨h, fun x hx => Nat.lt_trans h (((ih k' c').1 hw).1 x hx)⟩, hw⟩
    · rintro ⟨⟨h, _⟩, hw⟩
      exact ⟨h, hw⟩

theorem Memory.mem_write {m : Memory} {a : Nat} {b : Byte} {cell : Host.Cell} (h : cell ∈ m.write a b) :
    cell = (a, b) ∨ cell ∈ m := by
  induction m with
  | nil => simpa [Memory.write] using h
  | cons head m ih =>
    obtain ⟨k, c⟩ := head
    unfold Memory.write at h
    split at h
    · simpa using h
    · split at h
      · simp only [List.mem_cons] at h ⊢
        exact h.imp_right .inr
      · simp only [List.mem_cons] at h ⊢
        obtain h | h := h
        · exact .inr (.inl h)
        · exact (ih h).imp_right .inr

/-- A write keeps the canonical form. -/
theorem Memory.wf_write {m : Memory} (a : Nat) (b : Byte) (h : m.wf = true) : (m.write a b).wf = true := by
  induction m with
  | nil => rfl
  | cons head m ih =>
    obtain ⟨k, c⟩ := head
    obtain ⟨hlt, hw⟩ := (Memory.wf_cons k c m).1 h
    unfold Memory.write
    split
    · next hak =>
      rw [Memory.wf_cons]
      refine ⟨?_, h⟩
      simp only [List.mem_cons, forall_eq_or_imp]
      exact ⟨hak, fun x hx => Nat.lt_trans hak (hlt x hx)⟩
    · split
      · next _ hak => subst hak; rw [Memory.wf_cons]; exact ⟨hlt, hw⟩
      · next h1 h2 =>
        rw [Memory.wf_cons]
        refine ⟨fun x hx => ?_, ih hw⟩
        obtain rfl | hx := Memory.mem_write hx
        · show k < a; omega
        · exact hlt x hx

/-- A write of several bytes keeps the canonical form. -/
theorem Memory.wf_writeBytes {m : Memory} (a : Nat) (bs : List Byte) (h : m.wf = true) :
    (m.writeBytes a bs).wf = true := by
  induction bs generalizing m a with
  | nil => exact h
  | cons b bs ih => exact ih (a + 1) (Memory.wf_write a b h)

/-- A write below the capacity keeps the memory within it. -/
theorem Memory.within_write {m : Memory} {a cap : Nat} (b : Byte) (ha : a < cap) (h : m.within cap = true) :
    (m.write a b).within cap = true := by
  simp only [Memory.within, List.all_eq_true, decide_eq_true_eq] at *
  intro cell hc
  obtain rfl | hc := Memory.mem_write hc
  · exact ha
  · exact h cell hc

/-- A write of several bytes below the capacity keeps the memory within it. -/
theorem Memory.within_writeBytes {m : Memory} {a cap : Nat} {bs : List Byte} (ha : a + bs.length ≤ cap)
    (h : m.within cap = true) : (m.writeBytes a bs).within cap = true := by
  induction bs generalizing m a with
  | nil => exact h
  | cons b bs ih =>
    simp only [List.length_cons] at ha
    exact ih (by omega) (Memory.within_write b (by omega) h)

end Sys2Proof.Machine
end

