-- ==== Sys2Proof/Laws/PerInstr.lean ====
section
/-! SUPPORT. Statements about every command as syntax, one lemma per constructor of `Instr`. -/

namespace Sys2Proof.Laws.RoundTrip

/-- The decoder reads a well-formed command back from its word, and its fields are the word's fields. -/
def Statement (i : Instr) : Prop :=
  i.wf = true → decode (encode i) = i ∧ opcField (encode i) = opcodeOf i ∧ rsvdField (encode i) = reservedOf i

theorem nop : Statement .nop := by intro _; decide
theorem count : Statement .count := by intro _; decide
theorem build : Statement .build := by intro _; decide
theorem generate : Statement .generate := by intro _; decide
theorem encode : Statement .encode := by intro _; decide
theorem decode : Statement .decode := by intro _; decide
theorem stats : Statement .stats := by intro _; decide
theorem clear : Statement .clear := by intro _; decide

theorem illegal (opc : BitVec 8) (rsvd : BitVec 24) : Statement (.illegal opc rsvd) := by
  intro h
  have ho : opcField (Sys2Proof.encode (.illegal opc rsvd)) = opc := by
    simp only [opcField, Sys2Proof.encode, opcodeOf, reservedOf]
    apply BitVec.eq_of_getLsbD_eq
    intro i hi
    simp only [BitVec.getLsbD_extractLsb', BitVec.getLsbD_append]
    simp [hi]
  have hr : rsvdField (Sys2Proof.encode (.illegal opc rsvd)) = rsvd := by
    simp only [rsvdField, Sys2Proof.encode, opcodeOf, reservedOf]
    apply BitVec.eq_of_getLsbD_eq
    intro i hi
    simp only [BitVec.getLsbD_extractLsb', BitVec.getLsbD_append]
    simp [hi]
  refine ⟨?_, ho, hr⟩
  unfold Sys2Proof.decode
  rw [ho, hr]
  by_cases h0 : rsvd = 0
  · simp only [Instr.wf, illegalFields, h0, ne_eq, not_true_eq_false, decide_false, Bool.or_false,
      decide_eq_true_eq] at h ⊢
    simp only [if_false]
    split <;> first | omega | rfl
  · rw [if_pos h0]

end Sys2Proof.Laws.RoundTrip
end

