-- ==== Sys2Proof/Laws/Words.lean ====
section
/-! SUPPORT. The laws of command words and byte lanes: a word is its two fields and its four bytes, and the decoder's cases. -/

namespace Sys2Proof

/-- A word is its two fields. -/
theorem fields_append (w : Word) : rsvdField w ++ opcField w = w := by
  apply BitVec.eq_of_getLsbD_eq
  intro i hi
  simp only [BitVec.getLsbD_append, opcField, rsvdField, BitVec.getLsbD_extractLsb', Nat.zero_add]
  by_cases h : i < 8
  · simp [h]
  · have h24 : i - 8 < 24 := by omega
    simp [h, h24, show 8 + (i - 8) = i by omega]

/-- A word is its four bytes. -/
theorem wordOfLanes_laneOf (w : Word) : wordOfLanes (laneOf w 0) (laneOf w 1) (laneOf w 2) (laneOf w 3) = w := by
  apply BitVec.eq_of_getLsbD_eq
  intro i hi
  simp only [wordOfLanes, laneOf, BitVec.getLsbD_append, BitVec.getLsbD_extractLsb']
  rcases (by omega : i < 8 ∨ (8 ≤ i ∧ i < 16) ∨ (16 ≤ i ∧ i < 24) ∨ (24 ≤ i ∧ i < 32)) with h | h | h | h
  · simp [h]
  · have h1 : ¬ i < 8 := by omega
    have h2 : i - 8 < 8 := by omega
    simp [h1, h2, show 8 + (i - 8) = i by omega]
  · have h1 : ¬ i < 8 := by omega
    have h2 : ¬ i - 8 < 8 := by omega
    have h3 : i - 8 - 8 < 8 := by omega
    simp [h1, h2, h3, show 16 + (i - 8 - 8) = i by omega]
  · have h1 : ¬ i < 8 := by omega
    have h2 : ¬ i - 8 < 8 := by omega
    have h3 : ¬ i - 8 - 8 < 8 := by omega
    have h4 : i - 8 - 8 - 8 < 8 := by omega
    simp [h1, h2, h3, h4, show 24 + (i - 8 - 8 - 8) = i by omega]

/-- Byte lane j of a word made of four bytes is the j-th of them. -/
theorem laneOf_wordOfLanes (b0 b1 b2 b3 : Byte) :
    laneOf (wordOfLanes b0 b1 b2 b3) 0 = b0 ∧ laneOf (wordOfLanes b0 b1 b2 b3) 1 = b1 ∧
    laneOf (wordOfLanes b0 b1 b2 b3) 2 = b2 ∧ laneOf (wordOfLanes b0 b1 b2 b3) 3 = b3 := by
  refine ⟨?_, ?_, ?_, ?_⟩ <;>
  · apply BitVec.eq_of_getLsbD_eq
    intro i hi
    simp only [wordOfLanes, laneOf, BitVec.getLsbD_append, BitVec.getLsbD_extractLsb']
    simp [hi, show ¬ 8 + i < 8 by omega, show ¬ 16 + i < 8 by omega, show ¬ 24 + i < 8 by omega,
      show 8 + i - 8 = i by omega, show 16 + i - 8 - 8 = i by omega, show 24 + i - 8 - 8 - 8 = i by omega,
      show ¬ 16 + i - 8 < 8 by omega, show ¬ 24 + i - 8 < 8 by omega, show ¬ 24 + i - 8 - 8 < 8 by omega]

/-- A well-formed command is decoded back from its word. -/
theorem decode_encode {i : Instr} (h : i.wf = true) : decode (encode i) = i := by
  cases i with
  | nop => exact (Laws.RoundTrip.nop h).1
  | count => exact (Laws.RoundTrip.count h).1
  | build => exact (Laws.RoundTrip.build h).1
  | generate => exact (Laws.RoundTrip.generate h).1
  | encode => exact (Laws.RoundTrip.encode h).1
  | decode => exact (Laws.RoundTrip.decode h).1
  | stats => exact (Laws.RoundTrip.stats h).1
  | clear => exact (Laws.RoundTrip.clear h).1
  | illegal opc rsvd => exact (Laws.RoundTrip.illegal opc rsvd h).1

/-- The decoder's cases: the command of an opcode 0 to 7 with RSVD = 0, or the illegal command with the word's own fields. -/
theorem decode_cases (w : Word) :
    (rsvdField w = 0 ∧ (opcField w).toNat ≤ 7 ∧ ∀ o r, decode w ≠ .illegal o r) ∨
    ((rsvdField w ≠ 0 ∨ 7 < (opcField w).toNat) ∧ decode w = .illegal (opcField w) (rsvdField w)) := by
  unfold decode
  by_cases h : rsvdField w = 0
  · rw [if_neg (not_not.2 h)]
    generalize hk : (opcField w).toNat = k
    by_cases hle : k ≤ 7
    · refine .inl ⟨h, hle, ?_⟩
      interval_cases k <;> simp
    · refine .inr ⟨.inr (by omega), ?_⟩
      split <;> first | omega | rfl
  · rw [if_pos h]
    exact .inr ⟨.inl h, rfl⟩

/-- The number of a word made of two parts. -/
theorem toNat_append {m n : Nat} (x : BitVec m) (y : BitVec n) : (x ++ y).toNat = x.toNat * 2 ^ n + y.toNat := by
  rw [BitVec.toNat_append, Nat.shiftLeft_eq, ← Nat.shiftLeft_eq, ← Nat.shiftLeft_add_eq_or_of_lt y.isLt, Nat.shiftLeft_eq]

@[simp] theorem length_wordBytes (w : Word) : (wordBytes w).length = 4 := rfl

/-- The bytes of a word in ascending address order. -/
theorem getElem_wordBytes (w : Word) (i : Nat) (hi : i < (wordBytes w).length) : (wordBytes w)[i] = laneOf w i := by
  have : i < 4 := hi
  interval_cases i <;> rfl

end Sys2Proof
end

