-- ==== Sys2Proof/Laws/HostPort.lean ====
section
/-! SUPPORT. The laws of the host port: which region an offset is in, what a proper access is, and what a host access can change. -/

namespace Sys2Proof.Machine

/-- An aligned access of all four lanes is proper (R61). -/
@[simp] theorem properAccess_full {a : Offset} : properAccess a 15#4 = decide (a.toNat % 4 = 0) := by
  simp [properAccess]

/-! ### Regions (R63) -/

theorem regionOf_regs {a : Offset} (h : a.toNat < 0x400) : regionOf a = .regs (a.toNat / 4) := by
  simp [regionOf, h]

theorem regionOf_hist {a : Offset} (h : 0x400 ≤ a.toNat) (h' : a.toNat < 0x800) :
    regionOf a = .hist (BitVec.ofNat 8 ((a.toNat - 0x400) / 4)) := by
  simp [regionOf, h', show ¬ a.toNat < 0x400 by omega]

theorem regionOf_node {a : Offset} (h : 0x2000 ≤ a.toNat) (h' : a.toNat < 0x4000) :
    regionOf a = .node (BitVec.ofNat 9 ((a.toNat - 0x2000) / 16)) (a.toNat / 4 % 4) := by
  simp [regionOf, h', show ¬ a.toNat < 0x400 by omega, show ¬ a.toNat < 0x800 by omega,
    show ¬ a.toNat < 0x2000 by omega]

theorem regionOf_code {a : Offset} (h : 0x4000 ≤ a.toNat) (h' : a.toNat < 0x8000) :
    regionOf a = .code (BitVec.ofNat 8 ((a.toNat - 0x4000) / 64)) (a.toNat / 4 % 16) := by
  simp [regionOf, h', show ¬ a.toNat < 0x400 by omega, show ¬ a.toNat < 0x800 by omega,
    show ¬ a.toNat < 0x2000 by omega, show ¬ a.toNat < 0x4000 by omega]

theorem regionOf_unmapped {a : Offset}
    (h : (0x800 ≤ a.toNat ∧ a.toNat < 0x2000) ∨ (0x8000 ≤ a.toNat ∧ a.toNat < 0x10000)) :
    regionOf a = .unmapped := by
  obtain h | h := h
  · simp [regionOf, h.2, show ¬ a.toNat < 0x400 by omega, show ¬ a.toNat < 0x800 by omega]
  · simp [regionOf, h.2, show ¬ a.toNat < 0x400 by omega, show ¬ a.toNat < 0x800 by omega,
      show ¬ a.toNat < 0x2000 by omega, show ¬ a.toNat < 0x4000 by omega, show ¬ a.toNat < 0x8000 by omega]

theorem regionOf_inMem {a : Offset} (h : 0x10000 ≤ a.toNat) (h' : a.toNat < 0x20000) :
    regionOf a = .buffer .inMem (a.toNat - 0x10000) := by
  simp [regionOf, h', show ¬ a.toNat < 0x400 by omega, show ¬ a.toNat < 0x800 by omega,
    show ¬ a.toNat < 0x2000 by omega, show ¬ a.toNat < 0x4000 by omega, show ¬ a.toNat < 0x8000 by omega,
    show ¬ a.toNat < 0x10000 by omega]

theorem regionOf_bsMem {a : Offset} (h : 0x20000 ≤ a.toNat) (h' : a.toNat < 0x30000) :
    regionOf a = .buffer .bsMem (a.toNat - 0x20000) := by
  simp [regionOf, h', show ¬ a.toNat < 0x400 by omega, show ¬ a.toNat < 0x800 by omega,
    show ¬ a.toNat < 0x2000 by omega, show ¬ a.toNat < 0x4000 by omega, show ¬ a.toNat < 0x8000 by omega,
    show ¬ a.toNat < 0x10000 by omega, show ¬ a.toNat < 0x20000 by omega]

theorem regionOf_outMem {a : Offset} (h : 0x30000 ≤ a.toNat) :
    regionOf a = .buffer .outMem (a.toNat - 0x30000) := by
  simp [regionOf, show ¬ a.toNat < 0x400 by omega, show ¬ a.toNat < 0x800 by omega,
    show ¬ a.toNat < 0x2000 by omega, show ¬ a.toNat < 0x4000 by omega, show ¬ a.toNat < 0x8000 by omega,
    show ¬ a.toNat < 0x10000 by omega, show ¬ a.toNat < 0x20000 by omega, show ¬ a.toNat < 0x30000 by omega]

/-- A window offset is in a window. -/
theorem regionOf_window {a : Offset}
    (h : (0x400 ≤ a.toNat ∧ a.toNat < 0x800) ∨ (0x2000 ≤ a.toNat ∧ a.toNat < 0x8000) ∨ 0x10000 ≤ a.toNat) :
    (∃ c, regionOf a = .hist c) ∨ (∃ i k, regionOf a = .node i k) ∨ (∃ c k, regionOf a = .code c k) ∨
      ∃ b j, regionOf a = .buffer b j := by
  by_cases h1 : a.toNat < 0x800
  · exact .inl ⟨_, regionOf_hist (by omega) h1⟩
  by_cases h2 : a.toNat < 0x4000
  · exact .inr (.inl ⟨_, _, regionOf_node (by omega) h2⟩)
  by_cases h3 : a.toNat < 0x8000
  · exact .inr (.inr (.inl ⟨_, _, regionOf_code (by omega) h3⟩))
  refine .inr (.inr (.inr ?_))
  by_cases h4 : a.toNat < 0x20000
  · exact ⟨_, _, regionOf_inMem (by omega) h4⟩
  by_cases h5 : a.toNat < 0x30000
  · exact ⟨_, _, regionOf_bsMem (by omega) h5⟩
  · exact ⟨_, _, regionOf_outMem (by omega)⟩

/-- The byte an aligned buffer offset names is aligned, and is the buffer's own. -/
theorem regionOf_buffer_aligned {a : Offset} {buf : Buffer} {j : Nat} (ha : a.toNat % 4 = 0)
    (h : regionOf a = .buffer buf j) : j % 4 = 0 ∧ j < 0x10000 := by
  have hlt := a.isLt
  by_cases h1 : a.toNat < 0x400
  · simp [regionOf_regs h1] at h
  by_cases h2 : (0x800 ≤ a.toNat ∧ a.toNat < 0x2000) ∨ (0x8000 ≤ a.toNat ∧ a.toNat < 0x10000)
  · simp [regionOf_unmapped h2] at h
  by_cases h3 : a.toNat < 0x800
  · simp [regionOf_hist (by omega) h3] at h
  by_cases h4 : a.toNat < 0x4000
  · simp [regionOf_node (by omega) h4] at h
  by_cases h5 : a.toNat < 0x8000
  · simp [regionOf_code (by omega) h5] at h
  by_cases h6 : a.toNat < 0x20000
  · rw [regionOf_inMem (by omega) h6] at h; injection h with _ h; omega
  by_cases h7 : a.toNat < 0x30000
  · rw [regionOf_bsMem (by omega) h7] at h; injection h with _ h; omega
  · rw [regionOf_outMem (by omega)] at h; injection h with _ h; omega

/-- The offset of a byte of a window, as a number. -/
theorem offset_toNat {n : Nat} (h : n < 0x40000) : (BitVec.ofNat 18 n).toNat = n := by
  simp; omega

/-! ### Host reads of the buffers (R62, R67) -/

/-- A written byte shows in its lane of the word the host reads. -/
theorem State.readBuffer_lane {s : State} {buf : Buffer} {j i : Nat} {b : Byte} (hi : i < 4)
    (h : (s.ram buf).read (j + i) = some b) : laneOf (s.readBuffer buf j) i = b := by
  have hl : s.readLane buf j i = b := by simp [State.readLane, h]
  obtain ⟨h0, h1, h2, h3⟩ := laneOf_wordOfLanes (s.readLane buf j 0) (s.readLane buf j 1) (s.readLane buf j 2) (s.readLane buf j 3)
  unfold State.readBuffer
  interval_cases i
  · rw [h0, hl]
  · rw [h1, hl]
  · rw [h2, hl]
  · rw [h3, hl]

theorem State.portRead_inMem {s : State} {j : Nat} (hb : s.busy = false) (h4 : j % 4 = 0) (hj : j < 0x10000)
    (hc : j < s.params.maxIn) : s.portRead (BitVec.ofNat 18 (0x10000 + j)) 0xF = (.okay, s.readBuffer .inMem j) := by
  have ht := offset_toNat (n := 0x10000 + j) (by omega)
  have hr := regionOf_inMem (a := BitVec.ofNat 18 (0x10000 + j)) (by omega) (by omega)
  rw [ht, show 0x10000 + j - 0x10000 = j by omega] at hr
  have hm : (0x10000 + j) % 4 = 0 := by omega
  simp [-BitVec.toNat_ofNat, State.portRead, hr, ht, hm, State.readable, State.readWindow, hb, State.capacity, hc]

theorem State.portRead_bsMem {s : State} {j : Nat} (hb : s.busy = false) (h4 : j % 4 = 0) (hj : j < 0x10000)
    (hc : j < s.params.bsBytes) : s.portRead (BitVec.ofNat 18 (0x20000 + j)) 0xF = (.okay, s.readBuffer .bsMem j) := by
  have ht := offset_toNat (n := 0x20000 + j) (by omega)
  have hr := regionOf_bsMem (a := BitVec.ofNat 18 (0x20000 + j)) (by omega) (by omega)
  rw [ht, show 0x20000 + j - 0x20000 = j by omega] at hr
  have hm : (0x20000 + j) % 4 = 0 := by omega
  simp [-BitVec.toNat_ofNat, State.portRead, hr, ht, hm, State.readable, State.readWindow, hb, State.capacity, hc]

theorem State.portRead_outMem {s : State} {j : Nat} (hb : s.busy = false) (h4 : j % 4 = 0) (hj : j < 0x10000)
    (hc : j < s.params.maxOut) : s.portRead (BitVec.ofNat 18 (0x30000 + j)) 0xF = (.okay, s.readBuffer .outMem j) := by
  have ht := offset_toNat (n := 0x30000 + j) (by omega)
  have hr := regionOf_outMem (a := BitVec.ofNat 18 (0x30000 + j)) (by omega)
  rw [ht, show 0x30000 + j - 0x30000 = j by omega] at hr
  have hm : (0x30000 + j) % 4 = 0 := by omega
  simp [-BitVec.toNat_ofNat, State.portRead, hr, ht, hm, State.readable, State.readWindow, hb, State.capacity, hc]

/-! ### What a host access can change -/

/-- What one host access can do to the block: nothing, set OVERRUN (BUSY only), clear flags, or, while BUSY = 0 only, write CTRL, IN_LEN,
BS_LEN, a HIST entry or a buffer word, or issue a command (R24, R27, R63, R66, R200). -/
inductive HostEffect (s : State) : State → Prop where
  | same : HostEffect s s
  | overrun (hb : s.busy = true) : HostEffect s s.setOverrun
  | flags (v : Word) : HostEffect s (s.clearFlags v)
  | ctrl (hb : s.busy = false) (c : Ctrl) : HostEffect s { s with ctrl := c }
  | issue (hb : s.busy = false) (w : Word) : HostEffect s (s.issue w)
  | inLen (hb : s.busy = false) (v : Word) : HostEffect s { s with inLen := v }
  | bsLen (hb : s.busy = false) (v : Word) : HostEffect s { s with bsLen := v }
  | hist (hb : s.busy = false) (c : Byte) (v : Word) : HostEffect s { s with hist := s.hist.put c v }
  | inMem (hb : s.busy = false) (j : Nat) (v : Word) (ha : j % 4 = 0) (hj : j < s.params.maxIn) :
    HostEffect s { s with inMem := s.inMem.writeBytes j (wordBytes v) }
  | bsMem (hb : s.busy = false) (j : Nat) (v : Word) (ha : j % 4 = 0) (hj : j < s.params.bsBytes) :
    HostEffect s { s with bsMem := s.bsMem.writeBytes j (wordBytes v) }

/-- A register write while BUSY = 0. -/
theorem State.writeReg_effect (s : State) (v : Word) (r : Reg) (hb : s.busy = false) :
    HostEffect s (s.writeReg v r) := by
  cases r <;> first
    | exact .same
    | exact .ctrl hb _
    | exact .issue hb _
    | exact .flags _
    | exact .inLen hb _
    | exact .bsLen hb _

/-- A write of a register other than STATUS is dropped while BUSY = 1 (R66 (c)). -/
theorem State.writeBlock_other {s : State} {k : Nat} {v : Word} {r : Reg} (h : Reg.ofIndex k = some r)
    (hs : r ≠ .status) : s.writeBlock k v = if s.busy then s.setOverrun else s.writeReg v r := by
  unfold State.writeBlock
  rw [h]
  cases r <;> first | rfl | exact absurd rfl hs

theorem State.writeBlock_effect (s : State) (k : Nat) (v : Word) : HostEffect s (s.writeBlock k v) := by
  cases h : Reg.ofIndex k with
  | none =>
    unfold State.writeBlock
    rw [h]
    cases hb : s.busy
    · exact .same
    · exact .overrun hb
  | some r =>
    by_cases hs : r = .status
    · subst hs
      unfold State.writeBlock
      rw [h]
      exact .flags v
    · rw [State.writeBlock_other h hs]
      cases hb : s.busy
      · exact State.writeReg_effect s v r hb
      · exact .overrun hb

/-- A host write. -/
theorem State.portWrite_effect (s : State) (a : Offset) (lanes : BitVec 4) (v : Word) :
    HostEffect s (s.portWrite a lanes v).1 := by
  unfold State.portWrite
  by_cases hp : properAccess a lanes = true
  · have ha : a.toNat % 4 = 0 := by
      simp only [properAccess, Bool.and_eq_true, decide_eq_true_eq] at hp; exact hp.1
    rw [if_pos hp]
    cases hr : regionOf a with
    | unmapped => exact .same
    | regs k => exact State.writeBlock_effect s k v
    | hist c =>
      cases hb : s.busy <;> simp only [State.writeRegion, hb]
      · exact .hist hb c v
      · exact .overrun hb
    | node i k =>
      cases hb : s.busy <;> simp only [State.writeRegion, hb]
      · exact .same
      · exact .overrun hb
    | code c k =>
      cases hb : s.busy <;> simp only [State.writeRegion, hb]
      · exact .same
      · exact .overrun hb
    | buffer buf j =>
      have hj := regionOf_buffer_aligned ha hr
      cases buf with
      | outMem =>
        cases hb : s.busy <;> simp only [State.writeRegion, hb]
        · exact .same
        · exact .overrun hb
      | inMem =>
        cases hb : s.busy <;> simp only [State.writeRegion, hb]
        · by_cases hc : j < s.params.maxIn
          · simp only [hc]; exact .inMem hb j v hj.1 hc
          · simp only [hc]; exact .same
        · exact .overrun hb
      | bsMem =>
        cases hb : s.busy <;> simp only [State.writeRegion, hb]
        · by_cases hc : j < s.params.bsBytes
          · simp only [hc]; exact .bsMem hb j v hj.1 hc
          · simp only [hc]; exact .same
        · exact .overrun hb
  · rw [if_neg hp]; exact .same

/-- The host's turn changes the block as one access does, and beside it only the record of the world outside. -/
theorem State.hostStep_effect (s : State) :
    ∃ (u : State) (env : Env), HostEffect s u ∧ s.hostStep = { u with env := env } := by
  unfold State.hostStep
  cases s.env.prog with
  | nil => exact ⟨s, s.env, .same, rfl⟩
  | cons op rest =>
    cases op with
    | read a lanes => exact ⟨s, _, .same, rfl⟩
    | write a lanes v => exact ⟨_, _, State.portWrite_effect s a lanes v, rfl⟩
    | expect a v mask => exact ⟨s, _, .same, rfl⟩
    | wait =>
      simp only [State.hostOp]
      split
      · exact ⟨s, _, .same, rfl⟩
      · exact ⟨s, _, .same, rfl⟩

end Sys2Proof.Machine
end

