-- ==== Sys2Proof/Laws/Stats.lean ====
section
/-! SUPPORT. What rounding half away from zero gives (R190), and how large it can be. -/

namespace Sys2Proof.Machine

/-- The result is within half a unit of the exact quotient, and a tie goes away from zero. -/
theorem roundHalfAway_nearest (n : Int) (d : Nat) (hd : 0 < d) :
    2 * (roundHalfAway n d * d - n).natAbs ≤ d ∧
    (2 * (roundHalfAway n d * d - n).natAbs = d → n.natAbs < (roundHalfAway n d * d).natAbs) := by
  have h1 := Nat.div_add_mod n.natAbs d
  have h2 := Nat.mod_lt n.natAbs hd
  rw [Nat.mul_comm] at h1
  unfold roundHalfAway
  generalize n.natAbs / d = q at *
  generalize n.natAbs % d = r at *
  generalize hz : q * d = z at *
  have hz' : ((q : Int)) * d = z := by exact_mod_cast hz
  simp only
  split <;> split <;> push_cast <;> simp only [neg_mul, add_mul, one_mul, hz'] <;> omega

/-- The result is no further from 0 than the whole quotient and one. -/
theorem roundHalfAway_natAbs_le (n : Int) (d : Nat) : (roundHalfAway n d).natAbs ≤ n.natAbs / d + 1 := by
  unfold roundHalfAway
  generalize n.natAbs / d = q
  simp only
  split <;> split <;> omega

/-- A number of 32 bits in two's complement is held exactly. -/
theorem toInt_ofInt_of_fits {x : Int} (h : -2 ^ 31 ≤ x) (h' : x < 2 ^ 31) : (BitVec.ofInt 32 x).toInt = x := by
  rw [BitVec.toInt_ofInt]
  exact Int.bmod_eq_of_le (by omega) (by omega)

end Sys2Proof.Machine
end

