-- ==== Sys2Proof/Laws/Step.lean ====
section
/-! SUPPORT. Said once: everything a step can do, and where it can fault. -/

namespace Sys2Proof.Machine

/-- What a host access does to the block does not depend on the record of the world outside. -/
theorem HostEffect.of_env {s u : State} {e : Env} (h : HostEffect { s with env := e } u) :
    ∃ u', HostEffect s u' ∧ u = { u' with env := e } := by
  cases h with
  | same => exact ⟨s, .same, rfl⟩
  | overrun hb => exact ⟨s.setOverrun, HostEffect.overrun (s := s) hb, rfl⟩
  | flags v => exact ⟨s.clearFlags v, .flags v, rfl⟩
  | ctrl hb c => exact ⟨{ s with ctrl := c }, HostEffect.ctrl (s := s) hb c, rfl⟩
  | issue hb w => exact ⟨s.issue w, HostEffect.issue (s := s) hb w, rfl⟩
  | inLen hb v => exact ⟨{ s with inLen := v }, HostEffect.inLen (s := s) hb v, rfl⟩
  | bsLen hb v => exact ⟨{ s with bsLen := v }, HostEffect.bsLen (s := s) hb v, rfl⟩
  | hist hb c v => exact ⟨{ s with hist := s.hist.put c v }, HostEffect.hist (s := s) hb c v, rfl⟩
  | inMem hb j v ha hj => exact ⟨{ s with inMem := s.inMem.writeBytes j (wordBytes v) }, HostEffect.inMem (s := s) hb j v ha hj, rfl⟩
  | bsMem hb j v ha hj => exact ⟨{ s with bsMem := s.bsMem.writeBytes j (wordBytes v) }, HostEffect.bsMem (s := s) hb j v ha hj, rfl⟩

/-- The host's turn, from a state with another record of the world outside. -/
theorem State.hostStep_effect_of_env (s : State) (e : Env) :
    ∃ (u : State) (env : Env), HostEffect s u ∧ State.hostStep { s with env := e } = { u with env := env } := by
  obtain ⟨u, env, hu, h⟩ := State.hostStep_effect { s with env := e }
  obtain ⟨u', hu', rfl⟩ := hu.of_env
  exact ⟨u', env, hu', h⟩

/-- A step that goes on: the host makes an access (or none), or the engine performs the command in flight, or the block is reset. -/
theorem step_effect {s t : State} (h : step s = .next t) :
    (∃ (u : State) (env : Env), HostEffect s u ∧ t = { u with env := env }) ∨
    (∃ (w : Word) (env : Env), s.inFlight = some w ∧ exec (decode w) { s with env := env } = .next t) ∨
    (∃ env : Env, t = { State.resetOf s.params with ramEra := s.ramEra + 1, env := env }) := by
  have heng : ∀ e : Env, State.engineStep { s with env := e } = .next t →
      (∃ (u : State) (env : Env), HostEffect s u ∧ t = { u with env := env }) ∨
      (∃ (w : Word) (env : Env), s.inFlight = some w ∧ exec (decode w) { s with env := env } = .next t) := by
    intro e he
    unfold State.engineStep at he
    split at he
    · cases he; exact .inl ⟨s, e, .same, rfl⟩
    · next w hw => exact .inr ⟨w, e, hw, he⟩
  unfold step at h
  split at h
  · next ts _ =>
    cases h
    obtain ⟨u, env, hu, hs⟩ := State.hostStep_effect_of_env s { s.env with turns := ts }
    exact .inl ⟨u, env, hu, hs⟩
  · obtain h | h := heng _ h
    · exact .inl h
    · exact .inr (.inl h)
  · cases h; exact .inr (.inr ⟨_, rfl⟩)
  · split at h
    · obtain h | h := heng s.env h
      · exact .inl h
      · exact .inr (.inl h)
    · cases h
      obtain ⟨u, env, hu, hs⟩ := State.hostStep_effect s
      exact .inl ⟨u, env, hu, hs⟩

/-- A step faults only where the command in flight does. -/
theorem step_fault {s : State} {f : Fault} (h : step s = .fault f) :
    ∃ (w : Word) (env : Env), s.inFlight = some w ∧ exec (decode w) { s with env := env } = .fault f := by
  have heng : ∀ e : Env, State.engineStep { s with env := e } = .fault f →
      ∃ (w : Word) (env : Env), s.inFlight = some w ∧ exec (decode w) { s with env := env } = .fault f := by
    intro e he
    unfold State.engineStep at he
    split at he
    · cases he
    · next w hw => exact ⟨w, e, hw, he⟩
  unfold step at h
  split at h
  · cases h
  · exact heng _ h
  · cases h
  · split at h
    · exact heng s.env h
    · cases h

/-- A run goes on where a shorter one ends. -/
theorem runFor_add {a b : Nat} {s t : State} (h : runFor a s = .next t) : runFor (a + b) s = runFor b t := by
  induction a generalizing s with
  | zero => cases h; rw [Nat.zero_add]
  | succ a ih =>
    rw [show a + 1 + b = a + b + 1 by omega, runFor]
    rw [runFor] at h
    cases hs : step s <;> rw [hs] at h
    · exact ih h
    · cases h
    · cases h

end Sys2Proof.Machine
end

