-- ==== Sys2Proof/Tests/Slice0.lean ====
section
/-! SUPPORT. Tests of the model. Expected values are the worked results of spec/95_test_vectors.md (the vector's name stands in each
docstring) or are read off the rules by hand. The theorems named test_meets_… show that a statement's hypotheses can be met. -/

namespace Sys2Proof.Tests

-- One theorem after the other: many kernel evaluations at a time take more stack memory than the check allows.
set_option Elab.async false

open Sys2Proof.Machine

/-! ### Helpers -/

/-- Whether a result is a next state of which a check holds. -/
def after (r : Result) (p : State → Bool) : Bool :=
  match r with
  | .next t => p t
  | .fault _ => false
  | .refused _ => false

theorem after_next {r : Result} {p : State → Bool} (h : after r p = true) : ∃ t, r = .next t ∧ p t = true := by
  cases r with
  | next t => exact ⟨t, rfl, h⟩
  | fault f => cases h
  | refused f => cases h

/-- The fault of a result. -/
def faultOf (r : Result) : Option Fault :=
  match r with
  | .next _ => none
  | .fault f => some f
  | .refused _ => none

/-- Commands performed one after the other. -/
def performAll : List Instr → State → Result
  | [], s => .next s
  | i :: is, s =>
    match exec i s with
    | .next t => performAll is t
    | .fault f => .fault f
    | .refused r => .refused r

/-- A small configuration: MAX_IN 8, BS_BYTES 4 (BS_BITS 32), MAX_OUT 32. -/
def small : Params := ⟨8, 4, 32⟩

/-- A machine of the small configuration right after reset. -/
def idle : State := State.resetOf small

/-- Bytes written from index 0 up. -/
def cells (xs : List Byte) : Memory := Memory.writeBytes [] 0 xs

/-- The state with an input. -/
def withInput (xs : List Byte) (s : State) : State :=
  { s with inMem := cells xs, inLen := BitVec.ofNat 32 xs.length }

/-- The state with a stream of n bits. -/
def withBits (bytes : List Byte) (n : Nat) (s : State) : State :=
  { s with bsMem := cells bytes, bsLen := BitVec.ofNat 32 n }

/-- The histogram of a list of symbols with their counts. -/
def histOf : List (Byte × Word) → Hist
  | [] => Hist.zero
  | (c, n) :: l => (histOf l).put c n

/-- The tree of a:1, b:1, c:2: merges 3: 0,1 f2 and 4: 2,3 f4, so the codes c 0, a 10, b 11. -/
def threeLeaves : Arena :=
  ((((Arena.empty.put 0 (.leaf 0x61 1)).put 1 (.leaf 0x62 1)).put 2 (.leaf 0x63 2)).put 3 (.internal 0 1 2)).put 4
    (.internal 2 3 4)

/-- The state with that tree. -/
def withTree (s : State) : State :=
  { s with node := threeLeaves, root := ⟨4, true, false⟩, nsym := 3, nodeCnt := 5 }

/-- The state with the tree of a:4 (BU2). -/
def withOneLeaf (s : State) : State :=
  { s with
    node := (Arena.empty.put 0 (.leaf 0x61 4)).put 1 (.synth 0 4)
    root := ⟨1, true, true⟩
    nsym := 1
    nodeCnt := 2 }

/-- The codes of the three-leaf tree. -/
def withCodes (s : State) : State :=
  { s with code := ((CodeTable.empty.put 0x61 ⟨2, 2⟩).put 0x62 ⟨2, 3⟩).put 0x63 ⟨1, 0⟩ }

/-- The state with a turn list. -/
def withPlan (ts : List Turn) (ops : List HostOp) (s : State) : State :=
  { s with env := { s.env with turns := ts, prog := ops } }


/-- A command in flight, as its issue leaves the machine. -/
def running (i : Instr) (s : State) : State := s.issue (encode i)

/-- A machine in the middle of its life: an input, a stream, a tree, codes, and two symbols decoded. -/
def used : State :=
  { withCodes (withTree (withBits [0xA0] 3 (withInput [0x61, 0x63] idle))) with
    outMem := cells [0x61, 0x63]
    outLen := 2
    status := ⟨true, false, true, .none, 0x05⟩
    ctrl := ⟨true, true, true⟩ }

/-! ### Well-formedness -/

/-- R93: an illegal term that spells NOP, or CLEAR, is refused. -/
theorem test_wf_refuses_a_named_word : Instr.wf (.illegal 0x00 0) = false ∧ Instr.wf (.illegal 0x07 0) = false := by decide

/-- R93: either cause makes an illegal term well formed. -/
theorem test_wf_accepts_illegal_words : Instr.wf (.illegal 0x08 0) = true ∧ Instr.wf (.illegal 0x01 1) = true := by decide

/-! ### Decoding: words written out from R90 and R91 (RSVD in bits [31:8], OPC in bits [7:0]) -/

theorem test_decode_nop : decode 0b000000000000000000000000_00000000 = .nop := by decide
theorem test_decode_count : decode 0b000000000000000000000000_00000001 = .count := by decide
theorem test_decode_build : decode 0b000000000000000000000000_00000010 = .build := by decide
theorem test_decode_generate : decode 0b000000000000000000000000_00000011 = .generate := by decide
theorem test_decode_encode : decode 0b000000000000000000000000_00000100 = .encode := by decide
theorem test_decode_decode : decode 0b000000000000000000000000_00000101 = .decode := by decide
theorem test_decode_stats : decode 0b000000000000000000000000_00000110 = .stats := by decide
theorem test_decode_clear : decode 0b000000000000000000000000_00000111 = .clear := by decide

/-- The words of CT3, CT5 and CT6. -/
theorem test_decode_illegal :
    decode 0b000000000000000000000000_00001000 = .illegal 0x08 0 ∧
    decode 0b000000000000000000000001_00001000 = .illegal 0x08 1 ∧
    decode 0b100000000000000000000000_00000001 = .illegal 0x01 0x800000 := by decide

/-- R90: fewer than four bytes are no command word. -/
theorem test_decode_truncated : decodeBytes [0x00, 0x00, 0x00] = .error .truncated := by rfl

/-! ### One step of each command -/

/-- CT2: NOP with OVERRUN set leaves STATUS 0x0000000A. -/
theorem test_nop_keeps_overrun :
    after (exec .nop ((State.setOverrun idle).issue 0)) (fun t => t.statusWord == 0x0000000A) = true := by decide +kernel

/-- CO3: "aaaab" gives HIST[0x61] = 4, HIST[0x62] = 1, STATUS 0x00010002. -/
theorem test_count_aaaab :
    after (exec .count (running .count (withInput [0x61, 0x61, 0x61, 0x61, 0x62] idle)))
      (fun t => t.hist.at 0x61 == 4 && t.hist.at 0x62 == 1 && t.hist.at 0x63 == 0 && t.statusWord == 0x00010002) =
      true := by
  decide +kernel

/-- CO6: a byte never written is a fault. -/
theorem test_count_unwritten :
    faultOf (exec .count { withInput [0x61, 0x62, 0x63, 0x64] idle with inLen := 5 }) = some (.uninitRead .inMem 4) := by
  decide +kernel

/-- BU8: "mississippi" gives merges 4: 1,2 f3; 5: 4,0 f7; 6: 3,5 f11. -/
theorem test_build_mississippi :
    after (exec .build { idle with hist := histOf [(0x69, 4), (0x6D, 1), (0x70, 2), (0x73, 4)] })
      (fun t => t.node.at 4 == .internal 1 2 3 && t.node.at 5 == .internal 4 0 7 && t.node.at 6 == .internal 3 5 11 &&
        t.root.word == 0x00010006 && t.nsym == 4 && t.nodeCnt == 7) = true := by
  decide +kernel

/-- BU10: three counts of 2^32 - 1 make sums of more than 32 bits. -/
theorem test_build_wide_sums :
    after (exec .build { idle with hist := histOf [(0, 0xFFFFFFFF), (1, 0xFFFFFFFF), (2, 0xFFFFFFFF)] })
      (fun t => (t.node.at 4).word 2 == 0xFFFFFFFD && (t.node.at 4).word 3 == 0x00000002 && t.root.word == 0x00010004) =
      true := by
  decide +kernel

/-- GE10: the tree of BU10 gives the codes 2 "0", 0 "10", 1 "11". -/
theorem test_generate_three_symbols :
    after (performAll [.build, .generate] { idle with hist := histOf [(0, 0xFFFFFFFF), (1, 0xFFFFFFFF), (2, 0xFFFFFFFF)] })
      (fun t => t.code.at 2 == ⟨1, 0⟩ && t.code.at 0 == ⟨2, 2⟩ && t.code.at 1 == ⟨2, 3⟩ && t.code.at 3 == ⟨0, 0⟩) = true := by
  decide +kernel

/-- EN5: with GE3's codes, "abza" in lenient mode gives the stream 101, byte 0xA0, BS_LEN 3, UNK_CNT 1. -/
theorem test_encode_skips_unknown :
    after
      (exec .encode
        { withInput [0x61, 0x62, 0x7A, 0x61] idle with code := (CodeTable.empty.put 0x61 ⟨1, 1⟩).put 0x62 ⟨1, 0⟩ })
      (fun t => t.bsMem == [(0, 0xA0)] && t.bsLen == 3 && t.unkCnt == 1) = true := by
  decide +kernel

/-- EN6: in strict mode it ends at 'z' with STATUS 0x00040306, ERR_POS 2, ERR_SYM 0x7A, byte 0x80, BS_LEN 2, UNK_CNT 0. -/
theorem test_encode_strict :
    after
      (exec .encode
        (running .encode
          { withInput [0x61, 0x62, 0x7A, 0x61] idle with
            code := (CodeTable.empty.put 0x61 ⟨1, 1⟩).put 0x62 ⟨1, 0⟩
            ctrl := ⟨true, false, false⟩ }))
      (fun t => t.statusWord == 0x00040306 && t.errPos == 2 && t.errSym == 0x7A && t.bsMem == [(0, 0x80)] && t.bsLen == 2 &&
        t.unkCnt == 0) = true := by
  decide +kernel

/-- The stream 10 11 0 1 of the codes a 10, b 11, c 0 (R170): "abc", then one bit left over, in lenient mode no error. -/
theorem test_decode_trailing_bit :
    after (exec .decode (running .decode (withBits [0xB4] 6 (withTree idle))))
      (fun t => t.outMem == [(0, 0x61), (1, 0x62), (2, 0x63)] && t.outLen == 3 && t.trailBits == 1 &&
        t.statusWord == 0x00050002) = true := by
  decide +kernel

/-- DE7: on the synthetic tree 101 in strict mode gives "aaa", TRAIL_BITS 0, no error. -/
theorem test_decode_synthetic :
    after
      (exec .decode (running .decode { withBits [0xA0] 3 (withOneLeaf idle) with ctrl := ⟨false, true, false⟩ }))
      (fun t => t.outMem == [(0, 0x61), (1, 0x61), (2, 0x61)] && t.outLen == 3 && t.trailBits == 0 &&
        t.statusWord == 0x00050002) = true := by
  decide +kernel

/-- ST8: IN_LEN 2500 and BS_LEN 20001 give 20000, 20001, -1 and -1: exactly -0.005 percent rounds away from zero. -/
theorem test_stats_half :
    after (exec .stats { State.reset with inLen := 2500, bsLen := 20001 })
      (fun t => t.statOrig == 20000 && t.statEnc == 20001 && t.statSave == 0xFFFFFFFF && t.statPct == 0xFFFFFFFF) =
      true := by
  decide +kernel

/-- ST5: IN_LEN 1 and BS_LEN 9 give 8, 9, -1 and -1250 (0xFFFFFB1E). -/
theorem test_stats_negative :
    after (exec .stats { State.reset with inLen := 1, bsLen := 9 })
      (fun t => t.statOrig == 8 && t.statSave == 0xFFFFFFFF && t.statPct == 0xFFFFFB1E) = true := by
  decide +kernel

/-- CT7: CLEAR resets the derived registers and keeps IN_LEN, BS_LEN and the buffers; STATUS 0x00070002. -/
theorem test_clear :
    after (exec .clear (running .clear { used with status := ⟨false, false, false, .none, 0⟩, unkCnt := 7 }))
      (fun t => t.statusWord == 0x00070002 && t.root.word == 0 && t.outLen == 0 && t.unkCnt == 0 && t.inLen == 2 &&
        t.bsLen == 3 && t.outMem == [(0, 0x61), (1, 0x63)] && t.node.at 4 == .empty && t.code.at 0x63 == ⟨0, 0⟩) = true := by
  decide +kernel

/-- CT5: the word 0x00000108 leaves STATUS 0x00080106. -/
theorem test_illegal_word :
    after (step (idle.withFetchWord 32 0x00000108)) (fun t => t.statusWord == 0x00080106) = true := by decide +kernel

/-! ### The host port -/

/-- BM1, BM3, BM4, BM5: ID, a reserved register, an unmapped offset, a misaligned one. -/
theorem test_port_reads :
    idle.portRead 0x000 0xF = (.okay, 0x48434531) ∧ idle.portRead 0x054 0xF = (.okay, 0) ∧
    idle.portRead 0x00800 0xF = (.slverr, 0) ∧ idle.portRead 0x10002 0xF = (.slverr, 0) := by decide +kernel

/-- BM10: all ones in CTRL read back as 7. -/
theorem test_port_ctrl : ((idle.portWrite 0x010 0xF 0xFFFFFFFF).1.portRead 0x010 0xF) = (.okay, 7) := by decide +kernel

/-- BM11: the least significant byte of a word goes to the lowest index. -/
theorem test_port_little_endian :
    (idle.portWrite 0x10000 0xF 0x64636261).1.inMem = [(0, 0x61), (1, 0x62), (2, 0x63), (3, 0x64)] := by decide +kernel

/-- BM14, BM15, BM16: while BUSY a window read errs, a window write errs and sets OVERRUN, a register write is dropped and sets it. -/
theorem test_port_busy :
    (running .nop idle).portRead 0x00400 0xF = (.slverr, 0) ∧
    ((running .nop idle).portWrite 0x10000 0xF 0).2 = .slverr ∧
    ((running .nop idle).portWrite 0x10000 0xF 0).1.status.overrun = true ∧
    ((running .nop idle).portWrite 0x024 0xF 2).2 = .okay ∧
    ((running .nop idle).portWrite 0x024 0xF 2).1.inLen = 0 := by decide +kernel

/-! ### Hypotheses that can be met: encoding, steps, issue and completion -/

theorem test_meets_DecodeReadsBackEncodedBytes :
    Instr.wf .clear = true ∧ Instr.wf (.illegal 0x08 0) = true ∧ Instr.wf (.illegal 0xFF 0xFFFFFF) = true := by decide

/-- Each side of the rule at its boundary: 7, 8 and 0x100. -/
theorem test_meets_LegalWordsAreZeroToSeven :
    decode 7 = .clear ∧ decode 8 = .illegal 8 0 ∧ decode 0x100 = .illegal 0 1 := by decide

theorem test_meets_StepPerformsTheAgentsTurn :
    (withPlan [.host] [] idle).env.turns = [.host] ∧ (withPlan [.reset, .host] [] idle).env.turns = .reset :: [.host] ∧
    (withPlan [.engine] [] (running .nop idle)).env.turns = [.engine] ∧
    (withPlan [.engine] [] (running .nop idle)).inFlight = some 0 ∧ (withPlan [.engine] [] idle).inFlight = none ∧
    (running .nop idle).env.turns = [] := by decide +kernel

/-- A command in flight and three host turns, the first of them a write that is dropped. -/
theorem test_meets_HostCannotDisturbCommandInFlight :
    (withPlan (List.replicate 3 .host) [.write 0x024 0xF 2, .wait, .read 0x018 0xF] (running .nop idle)).inFlight = some 0 ∧
    (withPlan (List.replicate 3 .host) [.write 0x024 0xF 2, .wait, .read 0x018 0xF] (running .nop idle)).env.turns =
      List.replicate 3 .host := by decide +kernel

theorem test_meets_FetchedWordRunsNext : idle.busy = false := rfl

theorem test_meets_CmdWriteIssuesOrIsDropped : idle.busy = false ∧ (running .nop idle).busy = true := by decide

/-- Every command completes on one state: the hypothesis of every statement about a completed command.
So of
CommandsWriteOnlyTheirOutputs too, whose last clause the next theorem meets. -/
theorem test_meets_exec_next :
    ∀ i ∈ [Instr.nop, .count, .build, .generate, .encode, .decode, .stats, .clear, .illegal 0x08 0],
      ∃ t, exec i used = .next t := by
  intro i hi
  have h : ([Instr.nop, .count, .build, .generate, .encode, .decode, .stats, .clear, .illegal 0x08 0].all
      fun i => after (exec i used) fun _ => true) = true := by decide +kernel
  obtain ⟨t, ht, -⟩ := after_next (List.all_eq_true.1 h i hi)
  exact ⟨t, ht⟩

/-- ENCODE and DECODE without an error and with one, in a configuration R8 allows. -/
theorem test_meets_CommandsWriteOnlyTheirOutputs :
    used.params.ok ∧
    after (exec .encode used) (fun t => t.bsLen == 3 && !t.status.err) = true ∧
    after (exec .encode { used with inMem := cells [0x61, 0x7A] }) (fun t => t.bsLen == 2 && t.status.err) = true ∧
    after (exec .decode { used with bsLen := 2 }) (fun t => t.outLen == 1 && !t.status.err) = true ∧
    after (exec .decode used) (fun t => t.outLen == 1 && t.status.err) = true := by
  decide +kernel

/-- A command that ends without an error, and one that ends with one. -/
theorem test_meets_CompletionBookkeeping :
    (∃ t, exec .nop idle = .next t ∧ t.status.err = idle.status.err) ∧
    ∃ t, exec (.illegal 0x08 0) idle = .next t ∧ t.status.err = true := ⟨⟨_, rfl, rfl⟩, ⟨_, rfl, rfl⟩⟩

/-- One state for every error code, each from a state without an error. -/
theorem test_meets_ErrorsHaveTheirCauses :
    small.ok ∧ idle.status.errCode = .none ∧ idle.errPos = 0 ∧ idle.errSym = 0 ∧
    after (exec .nop idle) (fun t => t.status.errCode == .none) = true ∧
    after (exec (.illegal 0x08 0) idle) (fun t => t.status.errCode == .illegalCmd) = true ∧
    after (exec .count { idle with inLen := 9 }) (fun t => t.status.errCode == .lenRange) = true ∧
    after (exec .decode { idle with bsLen := 33 }) (fun t => t.status.errCode == .lenRange) = true ∧
    after (exec .encode { withInput [0x7A] idle with ctrl := ⟨true, false, false⟩ })
      (fun t => t.status.errCode == .unknownSymbol) = true ∧
    after (exec .decode { withBits [0x80] 1 (withTree idle) with ctrl := ⟨false, true, false⟩ })
      (fun t => t.status.errCode == .decodeMalformed) = true ∧
    after (exec .encode { withInput [0x61] idle with code := CodeTable.empty.put 0x61 ⟨33, 0⟩ })
      (fun t => t.status.errCode == .bsOverflow) = true := by decide +kernel

/-- The first length out of range of each buffer. -/
theorem test_meets_LengthOutOfRangeChangesNothing :
    small.maxIn < (State.inLen { idle with inLen := 9 }).toNat ∧
    8 * small.bsBytes < (State.bsLen { idle with bsLen := 33 }).toNat := by decide

theorem test_meets_IllegalWordCompletesWithIllegalCmd :
    7 < ((8 : Word).extractLsb' 0 8).toNat ∧ (0x100 : Word).extractLsb' 8 24 ≠ 0 := by decide

/-! ### Trees that keep R35 -/

/-- The three-leaf tree is full. -/
theorem withTree_full (s : State) : (withTree s).treeFull 3 := by
  have hsplit : ∀ i : NodeIdx, i.toNat < 5 → i = 0 ∨ i = 1 ∨ i = 2 ∨ i = 3 ∨ i = 4 := by
    intro i hi
    simp only [← BitVec.toNat_inj]
    simp
    omega
  refine ⟨by decide, by decide, rfl, rfl, rfl, ?_, ?_, ?_, ?_, ?_⟩
  · intro i hi
    obtain rfl | rfl | rfl | rfl | rfl := hsplit i (by omega) <;> first | rfl | exact absurd hi (by decide)
  · intro i j hij hj
    rw [BitVec.lt_def] at hij
    obtain rfl | rfl | rfl | rfl | rfl := hsplit i (by omega) <;>
      obtain rfl | rfl | rfl | rfl | rfl := hsplit j (by omega) <;>
      first | exact absurd hij (by decide) | exact absurd hj (by decide) | (change (threeLeaves.at _).sym < (threeLeaves.at _).sym; decide +kernel)
  · intro i h3 h5
    obtain rfl | rfl | rfl | rfl | rfl := hsplit i (by omega)
    · exact absurd h3 (by decide)
    · exact absurd h3 (by decide)
    · exact absurd h3 (by decide)
    · exact ⟨0, 1, 2, rfl, by decide, by decide, by decide,
        by change _ = (threeLeaves.at 0).freq.toNat + (threeLeaves.at 1).freq.toNat; decide +kernel⟩
    · exact ⟨2, 3, 4, rfl, by decide, by decide, by decide,
        by change _ = (threeLeaves.at 2).freq.toNat + (threeLeaves.at 3).freq.toNat; decide +kernel⟩
  · intro i hi
    obtain rfl | rfl | rfl | rfl | rfl := hsplit i (by omega) <;>
      first
      | exact absurd hi (by decide)
      | (show Arena.parents threeLeaves 5 _ = 1; decide +kernel)
  · intro i hi
    have hne : ∀ k : NodeIdx, k.toNat < 5 → i ≠ k := fun k hk e => by rw [e] at hi; omega
    show threeLeaves.at i = .empty
    rw [threeLeaves, Arena.at_put, if_neg (hne 4 (by decide)), Arena.at_put, if_neg (hne 3 (by decide)), Arena.at_put,
      if_neg (hne 2 (by decide)), Arena.at_put, if_neg (hne 1 (by decide)), Arena.at_put, if_neg (hne 0 (by decide)),
      Arena.at_empty]

theorem withTree_inv (s : State) : (withTree s).treeInv := .inr (.inr ⟨3, withTree_full s⟩)

/-- The DECODE of test_meets_ErrorsHaveTheirCauses that ends with DECODE_MALFORMED has a tree as R35 says. -/
theorem test_meets_ErrorsHaveTheirCauses_tree :
    State.treeInv { withBits [0x80] 1 (withTree idle) with ctrl := ⟨false, true, false⟩ } :=
  withTree_inv { withBits [0x80] 1 idle with ctrl := ⟨false, true, false⟩ }

/-- The one-leaf tree is the synthetic one. -/
theorem withOneLeaf_synth (s : State) : (withOneLeaf s).treeSynth := by
  refine ⟨rfl, rfl, rfl, ⟨0x61, 4, rfl, rfl⟩, fun i hi => ?_⟩
  have h0 : i ≠ 0 := fun e => by rw [e] at hi; exact absurd hi (by decide)
  have h1 : i ≠ 1 := fun e => by rw [e] at hi; exact absurd hi (by decide)
  show (Arena.put (Arena.put Arena.empty 0 _) 1 _).at i = .empty
  rw [Arena.at_put, if_neg h1, Arena.at_put, if_neg h0, Arena.at_empty]

theorem withOneLeaf_inv (s : State) : (withOneLeaf s).treeInv := .inr (.inl (withOneLeaf_synth s))

/-! ### Hypotheses that can be met: COUNT and BUILD -/

/-- The input ends where IN_MEM does, one byte short, and the stream in the middle of a code, one bit into its second byte. -/
theorem test_meets_UnwrittenByteFaults :
    (∃ s : State, s.inputBegins [0x61, 0x63] ∧ [0x61, 0x63].length < s.inLen.toNat ∧ s.inLen.toNat ≤ s.params.maxIn ∧
      s.inMem.read 2 = none ∧ (s.ctrl.strictEnc = true → ∀ x ∈ [(0x61 : Byte), 0x63], s.unknown x = false) ∧
      (s.codesOf [0x61, 0x63]).length ≤ 8 * s.params.bsBytes) ∧
    ∃ s : State, s.treeInv ∧ s.root.present = true ∧ s.root.synth = false ∧ 8 < s.bsLen.toNat ∧
      s.bsLen.toNat ≤ 8 * s.params.bsBytes ∧
      (∀ k (h : k < [true, false, true, true, false, true, false, false].length),
        s.bit k = some [true, false, true, true, false, true, false, false][k]) ∧ s.bit 8 = none := by
  refine ⟨⟨{ used with inLen := 3 }, ⟨by decide +kernel, by decide +kernel⟩, ?_⟩,
    ⟨withTree { withBits [0xB4] 8 idle with bsLen := 9 }, withTree_inv _, rfl, rfl, ?_⟩⟩ <;> decide +kernel

/-- An empty input, one of a single symbol, and one that fills IN_MEM. -/
theorem test_meets_CountTalliesInput :
    (∃ s : State, s.inputIs [] ∧ ([] : List Byte).length ≤ s.params.maxIn) ∧
    ∃ s : State, s.inputIs (List.replicate 8 0xFF) ∧ (List.replicate 8 (0xFF : Byte)).length = s.params.maxIn := by
  refine ⟨⟨idle, ⟨rfl, by decide +kernel⟩, by decide⟩, ⟨withInput (List.replicate 8 0xFF) idle, ⟨rfl, by decide +kernel⟩, rfl⟩⟩

/-- The same symbols in another order. -/
theorem test_meets_TreeDependsOnlyOnSymbolMultiset :
    ∃ s s' : State, s.inputIs [0x61, 0x62, 0x61] ∧ s'.inputIs [0x62, 0x61, 0x61] ∧
      [(0x61 : Byte), 0x62, 0x61].Perm [0x62, 0x61, 0x61] ∧ 3 ≤ s.params.maxIn ∧ 3 ≤ s'.params.maxIn :=
  ⟨withInput [0x61, 0x62, 0x61] idle, withInput [0x62, 0x61, 0x61] idle, ⟨rfl, by decide +kernel⟩,
    ⟨rfl, by decide +kernel⟩, by decide, by decide, by decide⟩

theorem test_meets_BuildOfNoSymbols : ∀ c, idle.hist.at c = 0 := Hist.at_zero

/-- The last symbol with the greatest count. -/
theorem test_meets_BuildOfOneSymbol :
    (histOf [(0xFF, 0xFFFFFFFF)]).at 0xFF ≠ 0 ∧ ∀ d, d ≠ 0xFF → (histOf [(0xFF, 0xFFFFFFFF)]).at d = 0 := by
  refine ⟨by decide +kernel, fun d hd => ?_⟩
  rw [histOf, Hist.at_put, if_neg hd]
  exact Hist.at_zero d

/-- Two symbols. -/
theorem test_meets_BuildOfManySymbols :
    [(0x61 : Byte), 0x62].Pairwise (· < ·) ∧ (∀ c, c ∈ [(0x61 : Byte), 0x62] ↔ (histOf [(0x61, 4), (0x62, 1)]).at c ≠ 0) ∧
    2 ≤ [(0x61 : Byte), 0x62].length := by
  refine ⟨by decide, fun c => ?_, by decide⟩
  simp only [histOf, Hist.at_put, Hist.at_zero, List.mem_cons, List.not_mem_nil, or_false]
  by_cases h1 : c = 0x61
  · rw [if_pos h1]
    exact ⟨fun _ => by decide, fun _ => .inl h1⟩
  · rw [if_neg h1]
    by_cases h2 : c = 0x62
    · rw [if_pos h2]
      exact ⟨fun _ => by decide, fun _ => .inr h2⟩
    · rw [if_neg h2]
      exact ⟨fun h => absurd h (not_or.2 ⟨h1, h2⟩), fun h => absurd rfl h⟩

/-- All 256 symbols. -/
theorem test_meets_BuildOfManySymbols_all :
    allSyms.Pairwise (· < ·) ∧ (∀ c, c ∈ allSyms ↔ Hist.at (Vector.replicate 256 1) c ≠ 0) ∧ allSyms.length = 256 := by
  refine ⟨allSyms_sorted, fun c => ⟨fun _ => ?_, fun _ => mem_allSyms c⟩, length_allSyms⟩
  simp [Hist.at]

/-- BU3: a completed BUILD with an internal node, and a present root. It meets BuildFrequenciesAreExactSums too. -/
theorem test_meets_BuildMergesTheLeastPair :
    ∃ t, exec .build { idle with hist := histOf [(0x61, 4), (0x62, 1)] } = .next t ∧
      t.node.at 2 = .internal 1 0 5 ∧ t.root.present = true := by
  obtain ⟨t, h1, h2⟩ := after_next (r := exec .build { idle with hist := histOf [(0x61, 4), (0x62, 1)] })
    (p := fun t => decide (t.node.at 2 = .internal 1 0 5 ∧ t.root.present = true)) (by decide +kernel)
  exact ⟨t, h1, of_decide_eq_true h2⟩

/-! ### Hypotheses that can be met: GENERATE, ENCODE, DECODE, STATS -/

theorem test_meets_GenerateOfAbsentTree : idle.root.present = false := rfl

/-- Both present trees, and a completed GENERATE on each. It meets GeneratedCodesHaveKraftSum too. -/
theorem test_meets_GenerateGivesLeafPaths :
    ((withTree idle).treeInv ∧ (withTree idle).root.present = true ∧ ∃ t, exec .generate (withTree idle) = .next t) ∧
    ((withOneLeaf idle).treeInv ∧ (withOneLeaf idle).root.present = true ∧
      ∃ t, exec .generate (withOneLeaf idle) = .next t) := by
  obtain ⟨t, h, -⟩ := after_next (r := exec .generate (withTree idle)) (p := fun _ => true) (by decide +kernel)
  obtain ⟨u, g, -⟩ := after_next (r := exec .generate (withOneLeaf idle)) (p := fun _ => true) (by decide +kernel)
  exact ⟨⟨withTree_inv _, rfl, t, h⟩, withOneLeaf_inv _, rfl, u, g⟩

/-- An empty input; an unknown symbol in lenient mode; a stream that fills BS_MEM exactly in strict mode. -/
theorem test_meets_EncodeConcatenatesCodes :
    small.ok ∧ idle.inputIs [] ∧
    (∃ s : State, s.params.ok ∧ s.inputIs [0x61, 0x7A] ∧ s.ctrl.strictEnc = false ∧
      (s.codesOf [0x61, 0x7A]).length ≤ 8 * s.params.bsBytes) ∧
    ∃ s : State, s.params.ok ∧ s.inputIs [0x61, 0x61] ∧ 2 ≤ s.params.maxIn ∧
      (s.ctrl.strictEnc = true → ∀ x ∈ [(0x61 : Byte), 0x61], s.unknown x = false) ∧
      (s.codesOf [0x61, 0x61]).length = 8 * s.params.bsBytes := by
  refine ⟨by decide, ⟨rfl, by decide +kernel⟩,
    ⟨withCodes (withInput [0x61, 0x7A] idle), by decide, ⟨rfl, by decide +kernel⟩, rfl, by decide +kernel⟩,
    ⟨{ withInput [0x61, 0x61] idle with code := CodeTable.empty.put 0x61 ⟨16, 5⟩, ctrl := ⟨true, false, false⟩ },
      by decide, ⟨rfl, by decide +kernel⟩, by decide, by decide +kernel, by decide +kernel⟩⟩

/-- The last symbol of the input is the unknown one. -/
theorem test_meets_EncodeStrictStopsAtUnknownSymbol :
    ∃ s : State, s.params.ok ∧ s.inputBegins ([0x61] ++ [0x7A]) ∧ s.inLen.toNat ≤ s.params.maxIn ∧
      s.ctrl.strictEnc = true ∧ (∀ x ∈ [(0x61 : Byte)], s.unknown x = false) ∧ s.unknown 0x7A = true ∧
      (s.codesOf [0x61]).length ≤ 8 * s.params.bsBytes :=
  ⟨{ withCodes (withInput [0x61, 0x7A] idle) with ctrl := ⟨true, false, false⟩ }, by decide,
    ⟨by decide, by decide +kernel⟩, by decide, rfl, by decide +kernel, by decide +kernel, by decide +kernel⟩

/-- BS_MEM is full, and the next symbol has a code of one bit. -/
theorem test_meets_EncodeStopsAtOverflow :
    ∃ s : State, s.params.ok ∧ s.inputBegins ([0x61, 0x61] ++ [0x62]) ∧ s.inLen.toNat ≤ s.params.maxIn ∧
      (s.ctrl.strictEnc = true → ∀ x ∈ [(0x61 : Byte), 0x61], s.unknown x = false) ∧ s.unknown 0x62 = false ∧
      (s.codesOf [0x61, 0x61]).length ≤ 8 * s.params.bsBytes ∧
      8 * s.params.bsBytes < (s.codesOf [0x61, 0x61]).length + (s.codeOf 0x62).length :=
  ⟨{ withInput [0x61, 0x61, 0x62] idle with code := (CodeTable.empty.put 0x61 ⟨16, 5⟩).put 0x62 ⟨1, 0⟩ }, by decide,
    ⟨by decide, by decide +kernel⟩, by decide, by decide +kernel, by decide +kernel, by decide +kernel, by decide +kernel⟩

/-- The stream of "ac" with nothing behind it, and with the beginning of a code behind it in strict mode and in lenient
mode. -/
theorem test_meets_DecodeWalksTheTree :
    (∃ s : State, s.params.ok ∧ s.treeInv ∧ s.root.present = true ∧ s.root.synth = false ∧
      (∀ p ∈ [((0x61 : Byte), [true, false]), (0x63, [false])], s.node.leafPath s.root.idx p.1 p.2) ∧
      s.node.partialPath s.root.idx [] ∧ s.streamIs [true, false, false] ∧ s.bsLen.toNat ≤ 8 * s.params.bsBytes) ∧
    ∀ strict : Bool, ∃ s : State, s.params.ok ∧ s.treeInv ∧ s.root.present = true ∧ s.root.synth = false ∧
      s.ctrl.strictDec = strict ∧
      (∀ p ∈ [((0x61 : Byte), [true, false]), (0x63, [false])], s.node.leafPath s.root.idx p.1 p.2) ∧
      s.node.partialPath s.root.idx [true] ∧ s.streamIs [true, false, false, true] ∧
      s.bsLen.toNat ≤ 8 * s.params.bsBytes := by
  have hp : ∀ p ∈ [((0x61 : Byte), [true, false]), (0x63, [false])], threeLeaves.leafPath 4 p.1 p.2 := by
    intro p hp
    simp only [List.mem_cons, List.not_mem_nil, or_false] at hp
    obtain rfl | rfl := hp
    · exact ⟨0, 1, by decide +kernel, by decide +kernel⟩
    · exact ⟨2, 2, by decide +kernel, by decide +kernel⟩
  refine ⟨⟨withTree (withBits [0x80] 3 idle), by decide, withTree_inv _, rfl, rfl, hp, ⟨4, rfl, by decide +kernel⟩,
      ⟨rfl, by decide +kernel⟩, by decide⟩,
    fun strict => ⟨withTree { withBits [0x90] 4 idle with ctrl := ⟨false, strict, false⟩ }, by cases strict <;> decide, withTree_inv _, rfl, rfl, rfl, hp,
      ⟨3, by cases strict <;> decide +kernel, by cases strict <;> decide +kernel⟩,
      ⟨rfl, by cases strict <;> decide +kernel⟩, by cases strict <;> decide⟩⟩

/-- A stream of no bits on the absent tree, and one that fills BS_MEM on a full one. -/
theorem test_meets_DecodeCompletesOnEveryStream :
    (idle.params.ok ∧ idle.treeInv ∧ idle.streamIs []) ∧
    ∃ s : State, s.params.ok ∧ s.treeInv ∧ s.streamIs (List.replicate 32 true) ∧ 32 = 8 * s.params.bsBytes := by
  refine ⟨⟨by decide, .inl ⟨rfl, rfl, rfl, Arena.at_empty⟩, rfl, by decide +kernel⟩,
    ⟨withTree (withBits [0xFF, 0xFF, 0xFF, 0xFF] 32 idle), by decide, withTree_inv _, ⟨rfl, by decide +kernel⟩, rfl⟩⟩

/-- A stream as long as BS_MEM, none of its bytes written. -/
theorem test_meets_DecodeOfSyntheticTree :
    ∃ s : State, s.params.ok ∧ s.treeSynth ∧ s.node.at 0 = .leaf 0x61 4 ∧ s.bsLen.toNat = 8 * s.params.bsBytes :=
  ⟨withOneLeaf { idle with bsLen := 32 }, by decide, withOneLeaf_synth _, rfl, rfl⟩

theorem test_meets_DecodeOfAbsentTree :
    ∃ s : State, s.root.present = false ∧ s.bsLen.toNat = 8 * s.params.bsBytes := ⟨{ idle with bsLen := 32 }, rfl, rfl⟩

/-- No input, and both lengths at their greatest in the largest configuration. -/
theorem test_meets_StatsAreExact :
    (idle.params.ok ∧ idle.inLen = 0) ∧
    ∃ s : State, s.params.ok ∧ s.inLen.toNat = s.params.maxIn ∧ s.bsLen.toNat = 8 * s.params.bsBytes ∧ s.inLen ≠ 0 :=
  ⟨⟨by decide, rfl⟩, ⟨{ State.resetOf ⟨65536, 8192, 65536⟩ with inLen := 65536, bsLen := 65536 }, by decide, rfl, rfl,
    by decide⟩⟩

/-- "aaaab", whose codes fit. -/
theorem test_meets_PipelineRoundTrip :
    ∃ s : State, s.params.ok ∧ s.inputIs [0x61, 0x61, 0x61, 0x61, 0x62] ∧ 5 ≤ s.params.maxIn ∧
      ∃ t, performAll [.count, .build, .generate] s = .next t ∧
        (t.codesOf [0x61, 0x61, 0x61, 0x61, 0x62]).length ≤ 8 * s.params.bsBytes := by
  obtain ⟨t, h, g⟩ := after_next
    (r := performAll [.count, .build, .generate] (withInput [0x61, 0x61, 0x61, 0x61, 0x62] idle))
    (p := fun t => decide ((t.codesOf [0x61, 0x61, 0x61, 0x61, 0x62]).length ≤ 32)) (by decide +kernel)
  exact ⟨withInput [0x61, 0x61, 0x61, 0x61, 0x62] idle, by decide, ⟨rfl, by decide +kernel⟩, by decide, t, h,
    of_decide_eq_true g⟩

/-- Two states that agree on what DECODE reads and differ elsewhere, on which it completes and on which it faults. -/
theorem test_meets_CommandsReadOnlyTheirOperands :
    sameOperands .decode used { used with outLen := 9, hist := histOf [(0x61, 1)] } ∧
    (∃ t, exec .decode (running .decode used) = .next t) ∧ used.params.ok ∧
    sameOperands .count { idle with inLen := 1 } { idle with inLen := 1, bsLen := 9 } ∧
    exec .count (running .count { idle with inLen := 1 }) = .fault (.uninitRead .inMem 0) := by
  obtain ⟨t, h, -⟩ := after_next (r := exec .decode (running .decode used)) (p := fun _ => true) (by decide +kernel)
  exact ⟨⟨rfl, rfl, rfl, rfl, rfl, rfl⟩, ⟨t, h⟩, by decide, ⟨rfl, rfl, rfl⟩, rfl⟩

/-! ### Hypotheses that can be met: the host port -/

theorem test_meets_ImproperAccessHasNoEffect :
    (0x10002 : Offset).toNat % 4 ≠ 0 ∧ (0x3FFFF : Offset).toNat % 4 ≠ 0 ∧ (0x7 : BitVec 4) ≠ 0xF := by decide

/-- The first and the last word of each part of the map, and that no offset is in two of them. -/
theorem test_meets_BusyAccessRules :
    (running .nop idle).busy = true ∧
    [(0x000 : Offset), 0x3FC].all (fun a => decide (a.toNat % 4 = 0 ∧ a.toNat < 0x400 ∧ a ≠ 0x018)) = true ∧
    [(0x400 : Offset), 0x7FC, 0x2000, 0x7FFC, 0x10000, 0x3FFFC].all (fun a => decide
      (a.toNat % 4 = 0 ∧ ¬ a.toNat < 0x400 ∧
        ((0x400 ≤ a.toNat ∧ a.toNat < 0x800) ∨ (0x2000 ≤ a.toNat ∧ a.toNat < 0x8000) ∨ 0x10000 ≤ a.toNat))) = true := by
  decide +kernel

/-- The edges of the unmapped ranges, of the read-only windows, and of the capacities. -/
theorem test_meets_AddressMapErrors :
    idle.busy = false ∧
    [(0x800 : Offset), 0x1FFC, 0x8000, 0xFFFC].all (fun a => decide
      ((0x800 ≤ a.toNat ∧ a.toNat < 0x2000) ∨ (0x8000 ≤ a.toNat ∧ a.toNat < 0x10000))) = true ∧
    [(0x2000 : Offset), 0x7FFC, 0x30000, 0x3FFFC].all (fun a => decide
      ((0x2000 ≤ a.toNat ∧ a.toNat < 0x8000) ∨ 0x30000 ≤ a.toNat)) = true ∧
    [(0x10008 : Offset), 0x1FFFC].all (fun a => decide
      (0x10000 + small.maxIn ≤ a.toNat ∧ a.toNat < 0x20000)) = true ∧
    [(0x20004 : Offset), 0x2FFFC].all (fun a => decide
      (0x20000 + small.bsBytes ≤ a.toNat ∧ a.toNat < 0x30000)) = true ∧
    [(0x30020 : Offset), 0x3FFFC].all (fun a => decide (0x30000 + small.maxOut ≤ a.toNat)) = true := by
  decide +kernel

theorem test_meets_StructureWindowLayout : idle.busy = false ∧ 7 < 8 ∧ 9 ≤ 9 ∧ 15 < 16 := by decide

theorem test_meets_HistWindowReadsAndWrites : idle.busy = false := rfl

/-- The first and the last word of each buffer. -/
theorem test_meets_BufferWriteStoresLittleEndian :
    idle.params.ok ∧ idle.busy = false ∧ 0 % 4 = 0 ∧ 4 % 4 = 0 ∧ 4 < idle.params.maxIn ∧ 0 < idle.params.bsBytes := by decide

/-- A written byte in each buffer, the other lanes of its word unwritten. -/
theorem test_meets_HostReadReturnsWrittenLanes :
    used.params.ok ∧ used.busy = false ∧ used.inMem.read (4 * 0 + 1) = some 0x63 ∧ used.inMem.read (4 * 0 + 2) = none ∧
    used.bsMem.read (4 * 0 + 0) = some 0xA0 ∧ used.outMem.read (4 * 0 + 0) = some 0x61 := by decide +kernel

/-- The first and the last bit of the buffer. -/
theorem test_meets_StreamBitsAreMsbFirst :
    ∃ s : State, s.params.ok ∧ s.busy = false ∧ s.bit 0 = some true ∧ 31 < 8 * s.params.bsBytes ∧ s.bit 31 = some false :=
  ⟨withBits [0x80, 0, 0, 0] 32 idle, by decide, rfl, by decide +kernel, by decide, by decide +kernel⟩

theorem test_meets_RegisterReads :
    [(0x054 : Offset), 0x3FC].all (fun a => decide (a.toNat % 4 = 0 ∧ 0x54 ≤ a.toNat ∧ a.toNat < 0x400)) = true := by
  decide +kernel

/-- A read-only register and the last reserved offset. -/
theorem test_meets_RegisterWrites :
    idle.busy = false ∧
    [(0x000 : Offset), 0x01C, 0x3FC].all (fun a => decide (a.toNat % 4 = 0 ∧ a.toNat < 0x400 ∧ a ≠ 0x010 ∧ a ≠ 0x014 ∧
      a ≠ 0x018 ∧ a ≠ 0x024 ∧ a ≠ 0x028)) = true := by
  decide +kernel

theorem test_meets_IrqIsDoneAndEnabled :
    used.irq = true ∧ used.busy = false ∧ (0x2 : Word).getLsbD 1 = true ∧ (0x3 : Word).getLsbD 2 = false ∧
    ∃ t, exec .nop used = .next t := ⟨by decide, rfl, by decide, by decide, _, rfl⟩

/-! ### Hypotheses that can be met: reset, invariants, programs -/

/-- A reset with a command in flight. -/
theorem test_meets_ResetTurnGivesResetState :
    (withPlan [.reset, .host] [] (running .decode used)).env.turns = .reset :: [.host] ∧
    (running .decode used).busy = true := ⟨rfl, rfl⟩

/-- The reference configuration, the smallest and the largest. -/
theorem test_meets_ResetKeepsEveryInvariant :
    Params.reference.ok ∧ (Params.mk 4 4 32).ok ∧ (Params.mk 65536 8192 65536).ok := by decide

/-- A used machine with a DECODE in flight keeps every invariant, and has a next state. It meets the five StepKeeps statements. -/
theorem test_meets_StepKeepsEveryInvariant :
    (running .decode used).memInv ∧ (running .decode used).statusInv ∧ (running .decode used).treeInv ∧
    (running .decode used).codeInv ∧ (running .decode used).outputInv ∧ ∃ t, step (running .decode used) = .next t := by
  obtain ⟨t, h, -⟩ := after_next (r := step (running .decode used)) (p := fun _ => true) (by decide +kernel)
  refine ⟨?_, ?_, ?_, ?_, ?_, t, h⟩
  · unfold State.memInv; decide +kernel
  · exact ⟨by decide, fun _ => ⟨rfl, rfl⟩, fun w hw => by cases hw; exact ⟨rfl, rfl, rfl⟩⟩
  · exact withTree_inv used
  · intro c
    show ((((CodeTable.empty.put 0x61 ⟨2, 2⟩).put 0x62 ⟨2, 3⟩).put 0x63 ⟨1, 0⟩).at c).val.toNat < 2 ^ _
    change _ < 2 ^ ((((CodeTable.empty.put 0x61 ⟨2, 2⟩).put 0x62 ⟨2, 3⟩).put 0x63 ⟨1, 0⟩).at c).len.toNat
    simp only [CodeTable.at_put, CodeTable.at_empty]
    split
    · decide
    · split
      · decide
      · split <;> decide
  · exact ⟨by decide, by decide +kernel, by decide, by decide⟩

/-- A tree that keeps R35, and a DECODE that reads a byte never written. -/
theorem test_meets_TreeNeverSticksTheEngine :
    (running .decode (withTree { idle with bsLen := 1 })).treeInv ∧
    step (running .decode (withTree { idle with bsLen := 1 })) = .fault (.uninitRead .bsMem 0) :=
  ⟨withTree_inv { idle with bsLen := 1 }, rfl⟩

/-- A RUN of COUNT on a written input, and one of an illegal word. -/
theorem test_meets_RunPerformsTheCommand :
    (∃ s t : State, Instr.wf .count = true ∧ s.busy = false ∧ s.env.turns = [] ∧
      s.env.prog = runCmd .count ++ [rd (.hist 0x61)] ∧ exec .count (s.issue (encode .count)) = .next t) ∧
    ∃ s t : State, Instr.wf (.illegal 0x08 0) = true ∧ s.busy = false ∧ s.env.turns = [] ∧
      s.env.prog = runCmd (.illegal 0x08 0) ++ [] ∧ exec (.illegal 0x08 0) (s.issue (encode (.illegal 0x08 0))) = .next t := by
  obtain ⟨t, h, -⟩ := after_next
    (r := exec .count (running .count (withPlan [] (runCmd .count ++ [rd (.hist 0x61)]) (withInput [0x61] idle))))
    (p := fun _ => true) (by decide +kernel)
  exact ⟨⟨withPlan [] (runCmd .count ++ [rd (.hist 0x61)]) (withInput [0x61] idle), t, rfl, rfl, rfl, rfl, h⟩,
    ⟨withPlan [] (runCmd (.illegal 0x08 0)) idle, _, rfl, rfl, rfl, (List.append_nil _).symm, rfl⟩⟩

/-- No bytes, a part of a word, and as many bytes as IN_MEM has. -/
theorem test_meets_LoadInStoresTheInput :
    idle.params.ok ∧ idle.busy = false ∧ ([] : List Byte).length ≤ idle.params.maxIn ∧
    ∀ xs ∈ [[], [(0x61 : Byte)], List.replicate 8 0x61],
      (withPlan [] (loadIn xs ++ [rd (.reg .inLen)]) idle).env.turns = [] ∧
      (withPlan [] (loadIn xs ++ [rd (.reg .inLen)]) idle).env.prog = loadIn xs ++ [rd (.reg .inLen)] ∧
      xs.length ≤ idle.params.maxIn := by
  refine ⟨by decide, rfl, by decide, fun xs hx => ⟨rfl, rfl, ?_⟩⟩
  have h : ([[], [(0x61 : Byte)], List.replicate 8 0x61].all fun xs => decide (xs.length ≤ 8)) = true := by decide
  exact of_decide_eq_true (List.all_eq_true.1 h xs hx)

end Sys2Proof.Tests
end

section
/-! PROOF. GENERATE's table on a present tree is the table of the paths to its leaves (R39, R140, R144). -/

namespace Sys2Proof.Machine

/-- R39 of a code table: the symbols with a code are those of the arena's leaves, and each code is the path to its leaf. -/
def CodeTable.spellsPaths (t : CodeTable) (a : Arena) (root : NodeIdx) : Prop :=
  ∀ c, ((t.at c).len ≠ 0 ↔ ∃ i f, a.at i = .leaf c f) ∧ ((t.at c).len ≠ 0 → a.leafPath root c (t.at c).bits)

/-- The one leaf of the synthetic tree is its entry 0. -/
theorem State.treeSynth_leaf_iff {s : State} (h : s.treeSynth) {c₀ : Byte} {f₀ : Freq}
    (h0 : s.node.at 0 = .leaf c₀ f₀) (c : Byte) : (∃ i f, s.node.at i = .leaf c f) ↔ c = c₀ := by
  obtain ⟨-, -, -, ⟨c', f', -, h1⟩, hempty⟩ := h
  constructor
  · rintro ⟨i, f, hi⟩
    obtain rfl | rfl | h2 : i = 0 ∨ i = 1 ∨ 2 ≤ i.toNat := by bv_omega
    · rw [h0] at hi; cases hi; rfl
    · rw [h1] at hi; cases hi
    · rw [hempty i h2] at hi; cases hi
  · rintro rfl
    exact ⟨0, f₀, h0⟩

/-- On the synthetic tree GENERATE gives the one symbol the path of its left step (R142). -/
theorem codesOf_synth_spellsPaths {s : State} (h : s.treeSynth) :
    ∃ t, codesOf s.node s.root = some t ∧ t.spellsPaths s.node s.root.idx := by
  obtain ⟨hroot, -, -, ⟨c₀, f₀, h0, h1⟩, -⟩ := id h
  refine ⟨_, codesOf_synth h h0, fun c => ?_⟩
  rw [State.treeSynth_leaf_iff h h0, CodeTable.at_put]
  by_cases hc : c = c₀
  · subst hc
    have hpath : s.node.descend s.root.idx [false] = some 0 := by
      rw [hroot, Arena.descend, h1]; rfl
    rw [if_pos rfl]
    exact ⟨iff_of_true (by decide) rfl, fun _ => ⟨0, f₀, hpath, h0⟩⟩
  · rw [if_neg hc, CodeTable.at_empty]
    exact ⟨iff_of_false (not_not.2 rfl) hc, fun hne => absurd rfl hne⟩

/-- On a full tree GENERATE gives every leaf's symbol its path, and no other symbol a code (R140, R141). -/
theorem codesOf_full_spellsPaths {s : State} {n : Nat} (h : s.treeFull n) :
    ∃ t, codesOf s.node s.root = some t ∧ t.spellsPaths s.node s.root.idx := by
  obtain ⟨t, ht, hcode, hnone⟩ := codesOf_full h
  refine ⟨t, ht, fun c => ?_⟩
  rw [← State.exists_leafPath_iff h]
  by_cases hc : ∃ bs, s.node.leafPath s.root.idx c bs
  · obtain ⟨bs, hbs⟩ := hc
    obtain ⟨hentry, hbits, -, hlen⟩ := hcode c bs hbs
    have hne : (t.at c).len ≠ 0 := by rw [hentry]; exact pathEntry_len_ne hlen
    exact ⟨iff_of_true hne ⟨bs, hbs⟩, fun _ => by rwa [hbits]⟩
  · have hzero : (t.at c).len = 0 := by rw [hnone c (not_exists.1 hc)]
    exact ⟨iff_of_false (not_not.2 hzero) hc, fun hne => absurd hzero hne⟩

/-- On a tree that is present GENERATE gives the table of the paths to its leaves. -/
theorem codesOf_present_spellsPaths {s : State} (h : s.treeInv) (hp : s.root.present = true) :
    ∃ t, codesOf s.node s.root = some t ∧ t.spellsPaths s.node s.root.idx := by
  obtain ⟨hroot, -⟩ | hsynth | ⟨n, hfull⟩ := h
  · rw [hroot] at hp; cases hp
  · exact codesOf_synth_spellsPaths hsynth
  · exact codesOf_full_spellsPaths hfull

/-- Settles O26: the table spells the paths to the leaves, and no path to a leaf begins another's. -/
theorem generateGivesLeafPaths : Obligations.GenerateGivesLeafPaths := by
  intro s h hp
  obtain ⟨t, ht, hpaths⟩ := codesOf_present_spellsPaths h hp
  refine ⟨t, exec_generate_next ht, fun c => (hpaths c).1, fun c => (hpaths c).2, fun a b hab ha hb hpre => ?_⟩
  exact hab (State.leafPath_prefix ((hpaths a).2 ha) ((hpaths b).2 hb) hpre)

end Sys2Proof.Machine
end

section
/-! PROOF. The host port of 20_memory.md: host accesses while BUSY (R66), the words of the NODE and CODE windows (R65), and the
written lanes of a buffer's word (R67). -/

namespace Sys2Proof.Machine

/-! ### The register block (R23, R24) -/

/-- The register at a word of the register block is the one whose offset is that word's (R23). -/
theorem Reg.ofIndex_offset (r : Reg) : Reg.ofIndex (r.offset.toNat / 4) = some r := by
  cases r <;> rfl

theorem Reg.offset_aligned (r : Reg) : r.offset.toNat % 4 = 0 := by
  cases r <;> rfl

theorem Reg.offset_lt (r : Reg) : r.offset.toNat < 0x400 := by
  cases r <;> decide

/-- No register stands at two words of the register block. -/
theorem Reg.eq_idxOf_of_ofIndex {k : Nat} {r : Reg} (h : Reg.ofIndex k = some r) : k = Reg.map.idxOf r := by
  obtain ⟨hk, rfl⟩ := List.getElem?_eq_some_iff.1 h
  have hnodup : Reg.map.Nodup := by decide
  exact (hnodup.idxOf_getElem k hk).symm

/-- STATUS is at offset 0x018 and nowhere else (R23). -/
theorem Reg.ofIndex_ne_status {a : Offset} (ha : a.toNat % 4 = 0) (hne : a ≠ 0x018) :
    Reg.ofIndex (a.toNat / 4) ≠ some .status := by
  intro h
  have hk : a.toNat / 4 = 6 := Reg.eq_idxOf_of_ofIndex h
  exact hne (by bv_omega)

/-- The register block answers a read, BUSY or not (R66 (a)). -/
theorem State.portRead_regs (s : State) {a : Offset} (ha : a.toNat % 4 = 0) (h : a.toNat < 0x400) :
    s.portRead a 0xF = (.okay, s.readBlock (a.toNat / 4)) := by
  simp [State.portRead, ha, regionOf_regs h, State.readable, State.readWindow]

theorem State.portWrite_regs (s : State) (v : Word) {a : Offset} (ha : a.toNat % 4 = 0) (h : a.toNat < 0x400) :
    s.portWrite a 0xF v = (s.writeBlock (a.toNat / 4) v, .okay) := by
  simp [State.portWrite, ha, regionOf_regs h, State.writeRegion]

/-- A write of STATUS clears the flags its word names, BUSY or not (R26, R66 (b)). -/
theorem State.portWrite_status (s : State) (v : Word) : s.portWrite 0x018 0xF v = (s.clearFlags v, .okay) :=
  s.portWrite_regs v (by decide) (by decide)

theorem State.portRead_reg (s : State) (r : Reg) : s.portRead r.offset 0xF = (.okay, s.readReg r) := by
  rw [s.portRead_regs r.offset_aligned r.offset_lt, State.readBlock, r.ofIndex_offset]

/-! ### Accesses while BUSY = 1 (R66) -/

/-- While BUSY = 1 a write of the register block other than of STATUS only sets OVERRUN (R66 (c)). -/
theorem State.writeBlock_busy {s : State} {k : Nat} (v : Word) (hb : s.busy = true) (hk : Reg.ofIndex k ≠ some .status) :
    s.writeBlock k v = s.setOverrun := by
  cases h : Reg.ofIndex k with
  | none => simp [State.writeBlock, h, hb]
  | some r => rw [State.writeBlock_other h (fun hr => hk (hr ▸ h)), if_pos hb]

/-- While BUSY = 1 a window answers a read with an error and data 0 (R66 (d)). -/
theorem State.portRead_window_busy {s : State} {a : Offset} (hb : s.busy = true)
    (h : (0x400 ≤ a.toNat ∧ a.toNat < 0x800) ∨ (0x2000 ≤ a.toNat ∧ a.toNat < 0x8000) ∨ 0x10000 ≤ a.toNat) :
    s.portRead a 0xF = (.slverr, 0) := by
  have hclosed : s.readable (regionOf a) = false := by
    obtain ⟨c, hr⟩ | ⟨i, k, hr⟩ | ⟨c, k, hr⟩ | ⟨buf, j, hr⟩ := regionOf_window h <;> simp [hr, State.readable, hb]
  simp [State.portRead, hclosed]

/-- While BUSY = 1 a window answers a write with an error, and only OVERRUN is set (R66 (d)). -/
theorem State.portWrite_window_busy {s : State} {a : Offset} (v : Word) (hb : s.busy = true) (ha : a.toNat % 4 = 0)
    (h : (0x400 ≤ a.toNat ∧ a.toNat < 0x800) ∨ (0x2000 ≤ a.toNat ∧ a.toNat < 0x8000) ∨ 0x10000 ≤ a.toNat) :
    s.portWrite a 0xF v = (s.setOverrun, .slverr) := by
  have hregion : s.writeRegion v (regionOf a) = (s.setOverrun, .slverr) := by
    obtain ⟨c, hr⟩ | ⟨i, k, hr⟩ | ⟨c, k, hr⟩ | ⟨buf, j, hr⟩ := regionOf_window h
    · simp [hr, State.writeRegion, hb]
    · simp [hr, State.writeRegion, hb]
    · simp [hr, State.writeRegion, hb]
    · cases buf <;> simp [hr, State.writeRegion, hb]
  simp [State.portWrite, ha, hregion]

/-- Settles O39: the register block by its words, the windows by their regions. -/
theorem busyAccessRules : Obligations.BusyAccessRules := by
  intro s v hb
  refine ⟨s.portRead_reg, s.portWrite_status v, fun a ha => ⟨fun hlt hne => ?_, fun hw => ?_⟩⟩
  · rw [s.portWrite_regs v ha hlt, State.writeBlock_busy v hb (Reg.ofIndex_ne_status ha hne)]
  · exact ⟨State.portRead_window_busy hb hw, State.portWrite_window_busy v hb ha hw⟩

/-! ### The words of the NODE and CODE windows (R65) -/

theorem State.portRead_node {s : State} (hb : s.busy = false) (i : NodeIdx) {k : Nat} (hk : k < 4) :
    s.portRead (BitVec.ofNat 18 (0x2000 + 16 * i.toNat + 4 * k)) 0xF = (.okay, (s.node.at i).word k) := by
  have hi := i.isLt
  have ht := offset_toNat (n := 0x2000 + 16 * i.toNat + 4 * k) (by omega)
  have hr : regionOf (BitVec.ofNat 18 (0x2000 + 16 * i.toNat + 4 * k)) = .node i k := by
    rw [regionOf_node (by omega) (by omega), ht,
      show (0x2000 + 16 * i.toNat + 4 * k - 0x2000) / 16 = i.toNat by omega,
      show (0x2000 + 16 * i.toNat + 4 * k) / 4 % 4 = k by omega, BitVec.ofNat_toNat, BitVec.setWidth_eq]
  have hm : (0x2000 + 16 * i.toNat + 4 * k) % 4 = 0 := by omega
  simp [-BitVec.toNat_ofNat, State.portRead, hr, ht, hm, State.readable, State.readWindow, hb]

theorem State.portRead_code {s : State} (hb : s.busy = false) (c : Byte) {k : Nat} (hk : k < 16) :
    s.portRead (BitVec.ofNat 18 (0x4000 + 64 * c.toNat + 4 * k)) 0xF = (.okay, (s.code.at c).word k) := by
  have hc := c.isLt
  have ht := offset_toNat (n := 0x4000 + 64 * c.toNat + 4 * k) (by omega)
  have hr : regionOf (BitVec.ofNat 18 (0x4000 + 64 * c.toNat + 4 * k)) = .code c k := by
    rw [regionOf_code (by omega) (by omega), ht,
      show (0x4000 + 64 * c.toNat + 4 * k - 0x4000) / 64 = c.toNat by omega,
      show (0x4000 + 64 * c.toNat + 4 * k) / 4 % 16 = k by omega, BitVec.ofNat_toNat, BitVec.setWidth_eq]
  have hm : (0x4000 + 64 * c.toNat + 4 * k) % 4 = 0 := by omega
  simp [-BitVec.toNat_ofNat, State.portRead, hr, ht, hm, State.readable, State.readWindow, hb]

/-- Word 0 of a NODE entry: the kind at bit 0 and the symbol at bit 8. -/
theorem Node.toNat_word_zero (n : Node) : (n.word 0).toNat = n.kind.toNat + 256 * n.sym.toNat := by
  simp only [Node.word, toNat_append, BitVec.toNat_ofNat]
  omega

/-- Word 1 of a NODE entry: the left child at bit 0 and the right child at bit 16. -/
theorem Node.toNat_word_one (n : Node) : (n.word 1).toNat = n.left.toNat + 65536 * n.right.toNat := by
  simp only [Node.word, toNat_append, BitVec.toNat_ofNat]
  omega

/-- Word 2 of a NODE entry: the low 32 bits of the frequency. -/
theorem Node.toNat_word_two (n : Node) : (n.word 2).toNat = n.freq.toNat % 2 ^ 32 := by
  simp [Node.word, BitVec.extractLsb'_toNat]

/-- Word 3 of a NODE entry: the high 8 bits of the frequency. -/
theorem Node.toNat_word_three (n : Node) : (n.word 3).toNat = n.freq.toNat / 2 ^ 32 := by
  have hf := n.freq.isLt
  simp only [Node.word, toNat_append, BitVec.toNat_ofNat, BitVec.extractLsb'_toNat, Nat.shiftRight_eq_div_pow]
  omega

/-- Word 0 of a CODE entry: the length. -/
theorem CodeEntry.toNat_word_zero (e : CodeEntry) : (e.word 0).toNat = e.len.toNat := by
  rw [CodeEntry.word, if_pos rfl, toNat_append]
  simp

/-- Word j + 1 of a CODE entry: the 32 bits of the value from bit 32j up. -/
theorem CodeEntry.toNat_word_succ (e : CodeEntry) {j : Nat} (hj : j < 8) :
    (e.word (j + 1)).toNat = e.val.toNat / 2 ^ (32 * j) % 2 ^ 32 := by
  simp [CodeEntry.word, show j + 1 ≤ 8 by omega, BitVec.extractLsb'_toNat, Nat.shiftRight_eq_div_pow]

/-- The words past the value of a CODE entry read 0. -/
theorem CodeEntry.word_past (e : CodeEntry) {k : Nat} (hk : 9 ≤ k) : e.word k = 0 := by
  rw [CodeEntry.word, if_neg (by omega), if_neg (by omega)]

/-- Settles O41: the region of each word, then the fields of the word as numbers. -/
theorem structureWindowLayout : Obligations.StructureWindowLayout := by
  intro s hb
  refine ⟨fun i => ?_, fun c => ?_, fun c j hj => ?_, fun c j h9 h16 => ?_⟩
  · have hread {k : Nat} := State.portRead_node hb i (k := k)
    refine ⟨_, _, _, _, hread (k := 0) (by decide), hread (k := 1) (by decide), hread (k := 2) (by decide),
      hread (k := 3) (by decide), ?_, ?_, Node.toNat_word_two _, Node.toNat_word_three _⟩
    · rw [Node.toNat_word_zero]
      cases s.node.at i <;> simp [Node.kind, Node.sym]
    · rw [Node.toNat_word_one]
      cases s.node.at i <;> simp [Node.left, Node.right, nil]
  · exact ⟨_, State.portRead_code hb c (k := 0) (by decide), CodeEntry.toNat_word_zero _⟩
  · have hread := State.portRead_code hb c (k := j + 1) (by omega)
    rw [show 0x4000 + 64 * c.toNat + 4 * (j + 1) = 0x4000 + 64 * c.toNat + 4 + 4 * j by omega] at hread
    exact ⟨_, hread, CodeEntry.toNat_word_succ _ hj⟩
  · rw [State.portRead_code hb c h16, CodeEntry.word_past _ h9]

/-! ### The written lanes of a buffer's word (R67) -/

/-- Settles O44: each buffer's read gives its word, whose written lanes hold their bytes. -/
theorem hostReadReturnsWrittenLanes : Obligations.HostReadReturnsWrittenLanes := by
  intro s w i b hok hb hi
  obtain ⟨-, hIn, -, -, hBs, -, -, hOut, -⟩ := hok
  have h4 : 4 * w % 4 = 0 := by omega
  exact ⟨fun hw hread => ⟨_, State.portRead_inMem hb h4 (by omega) hw, State.readBuffer_lane hi hread⟩,
    fun hw hread => ⟨_, State.portRead_bsMem hb h4 (by omega) hw, State.readBuffer_lane hi hread⟩,
    fun hw hread => ⟨_, State.portRead_outMem hb h4 (by omega) hw, State.readBuffer_lane hi hread⟩⟩

end Sys2Proof.Machine
end

section
/-! PROOF. The command words (R90 to R93): the decoder calls a word illegal by its two fields, and the fields are the two parts
of the word's number. -/

namespace Sys2Proof

/-- The number of a command word: RSVD above the eight bits of OPC (R90). -/
theorem toNat_eq_fields (w : Word) : w.toNat = (rsvdField w).toNat * 256 + (opcField w).toNat := by
  conv_lhs => rw [← fields_append w]
  exact toNat_append _ _

/-- The decoder gives an illegal command exactly for a word whose RSVD is not 0 or whose OPC is above 0x07 (R93). -/
theorem decode_illegal_iff (w : Word) :
    (∃ opc rsvd, decode w = .illegal opc rsvd) ↔ rsvdField w ≠ 0 ∨ 7 < (opcField w).toNat := by
  obtain ⟨hr, ho, hlegal⟩ | ⟨hfields, hdec⟩ := decode_cases w
  · exact ⟨fun ⟨o, r, h⟩ => absurd h (hlegal o r), fun h => h.elim (absurd hr) (absurd · (by omega))⟩
  · exact ⟨fun _ => hfields, fun _ => ⟨_, _, hdec⟩⟩

/-- The fields are illegal exactly when the word, as a number, is above 7: RSVD alone, when not 0, puts it at 256 or more. -/
theorem illegal_fields_iff_toNat (w : Word) : rsvdField w ≠ 0 ∨ 7 < (opcField w).toNat ↔ 7 < w.toNat := by
  have hrsvd : rsvdField w ≠ 0 ↔ (rsvdField w).toNat ≠ 0 := BitVec.toNat_ne
  have hopc := (opcField w).isLt
  rw [hrsvd, toNat_eq_fields w]
  omega

/-- Settles O3: the decoder's cases by the fields, then by the number, and the eight rows one by one. -/
theorem legalWordsAreZeroToSeven : Obligations.LegalWordsAreZeroToSeven :=
  ⟨fun w => ⟨decode_illegal_iff w, (decode_illegal_iff w).trans (illegal_fields_iff_toNat w)⟩,
    rfl, rfl, rfl, rfl, rfl, rfl, rfl, rfl⟩

end Sys2Proof
end

section
/-! PROOF. The frequency counter (R110 to R113): what follows from a histogram that holds the exact counts of a list, and COUNT on a
written input. -/

namespace Sys2Proof.Machine

/-- An exact histogram of a list is nonzero at the symbols that occur, and there alone (R111). -/
theorem Hist.at_pos_iff_mem {h : Hist} {xs : List Byte} (hcount : ∀ c, (h.at c).toNat = xs.count c) (c : Byte) :
    0 < (h.at c).toNat ↔ c ∈ xs := by
  rw [hcount c, List.count_pos_iff]

/-- The entries of an exact histogram of a list add up to the list's length (R111). -/
theorem Hist.total_eq_length {h : Hist} {xs : List Byte} (hcount : ∀ c, (h.at c).toNat = xs.count c) :
    h.total = xs.length := by
  simp only [Hist.total, hcount]
  exact sum_counts xs allSyms_nodup fun x _ => mem_allSyms x

/-- Settles O17: the loop runs through the written input to its exact counts, and the support and the sum follow from these. -/
theorem countTalliesInput : Obligations.CountTalliesInput := by
  intro s xs hin hfits
  obtain ⟨hloop, hcount⟩ := countLoop_input hin
  have hlen : s.inLen.toNat ≤ s.params.maxIn := hin.1 ▸ hfits
  exact ⟨xs.foldl Hist.bump Hist.zero, exec_count_next hlen hloop, hcount, Hist.at_pos_iff_mem hcount,
    Hist.total_eq_length hcount⟩

end Sys2Proof.Machine
end

section
/-! PROOF. The tree builder (R121 to R128): the three shapes of the tree that BUILD leaves, by the number of symbols the histogram
holds, the merge rule of its internal nodes, and the exact sums of its frequencies. -/

namespace Sys2Proof.Machine

/-- Strictly rising symbols that are exactly those with a count are the symbols BUILD works on (R122). -/
theorem Hist.present_eq_of_sorted {h : Hist} {syms : List Byte} (hsort : syms.Pairwise (· < ·))
    (hmem : ∀ c, c ∈ syms ↔ h.at c ≠ 0) : h.present = syms := by
  have hperm : h.present.Perm syms :=
    (List.perm_ext_iff_of_nodup h.present_nodup hsort.nodup).2 fun c => Hist.mem_present.trans (hmem c).symm
  exact hperm.eq_of_pairwise (fun _ _ _ _ hab hba => absurd hab (BitVec.lt_asymm hba)) h.present_sorted hsort

/-- BUILD completes from every state, and writes the tree of the histogram beside its completion (R121, R202). -/
theorem exec_build_next (s : State) :
    exec .build s =
      .next { s with
        node := (buildTree s.hist).node
        root := (buildTree s.hist).root
        nsym := (buildTree s.hist).nsym
        nodeCnt := (buildTree s.hist).nodeCnt
        inFlight := none
        status := { s.status with done := true } } := rfl

/-- A completed BUILD leaves the arena and the root of the histogram's tree. -/
theorem node_root_of_exec_build {s t : State} (h : exec .build s = .next t) :
    t.node = (buildTree s.hist).node ∧ t.root = (buildTree s.hist).root := by
  rw [exec_build_next] at h
  cases h
  exact ⟨rfl, rfl⟩

/-- The root BUILD leaves has the sum of the histogram as its frequency (R128). -/
theorem buildTree_root_freq {h : Hist} (hp : (buildTree h).root.present = true) :
    ((buildTree h).node.at (buildTree h).root.idx).freq.toNat = h.total := by
  have hsum := h.sum_present
  obtain h0 | h1 | h2 : h.present.length = 0 ∨ h.present.length = 1 ∨ 2 ≤ h.present.length := by omega
  · rw [buildTree_none h0] at hp
    cases hp
  · obtain ⟨c, hc⟩ := List.length_eq_one_iff.1 h1
    obtain ⟨hroot, -, -, -, hsynth, -⟩ := buildTree_one hc
    rw [hroot, hsynth, Node.freq, BitVec.toNat_setWidth_of_le (by decide), ← hsum, hc]
    rfl
  · obtain ⟨r, hroot, -, -, hm⟩ := buildTree_many h2
    rw [hroot, ← hm.root h.length_present_le h2, ← hsum, ← hm.sum]
    rfl

/-- Settles O19: no symbol has a count, so BUILD works on none. -/
theorem buildOfNoSymbols : Obligations.BuildOfNoSymbols := by
  intro s hzero
  have hnone : s.hist.present = [] :=
    Hist.present_eq_of_sorted .nil fun c => iff_of_false List.not_mem_nil (not_not.2 (hzero c))
  exact ⟨Arena.empty, by rw [exec_build_next, buildTree_none (by rw [hnone]; rfl)], Arena.at_empty⟩

/-- Settles O20: the one symbol with a count is all BUILD works on. -/
theorem buildOfOneSymbol : Obligations.BuildOfOneSymbol := by
  intro s c hc hother
  have hone : s.hist.present = [c] := by
    refine Hist.present_eq_of_sorted (List.pairwise_singleton _ _) fun d => List.mem_singleton.trans ?_
    exact ⟨fun e => e ▸ hc, fun hd => not_imp_comm.1 (hother d) hd⟩
  obtain ⟨hroot, hnsym, hcnt, hnode⟩ := buildTree_one hone
  exact ⟨(buildTree s.hist).node, by rw [exec_build_next, hroot, hnsym, hcnt], hnode⟩

/-- Settles O21: the symbols given are those BUILD works on, and a finished merge lays the arena out as stated. -/
theorem buildOfManySymbols : Obligations.BuildOfManySymbols := by
  intro s syms hsort hmem hlen
  obtain rfl := Hist.present_eq_of_sorted hsort hmem
  have hmax := s.hist.length_present_le
  obtain ⟨r, hroot, hnsym, hcnt, hm⟩ := buildTree_many hlen
  refine ⟨(buildTree s.hist).node, by rw [exec_build_next, hroot, hnsym, hcnt], by omega, ?leaves, ?inner, ?empty⟩
  case leaves =>
    intro k hk
    have hidx := ofNat_toNat_of_lt (k := k) (by omega)
    simpa only [hidx] using hm.leaf (BitVec.ofNat 9 k) (by rwa [hidx])
  case inner =>
    intro k hlow hhigh
    have hidx := ofNat_toNat_of_lt (k := k) (by omega)
    obtain ⟨l, r, f, hnode, -⟩ := hm.inner (BitVec.ofNat 9 k) (by rwa [hidx]) (by rwa [hidx])
    exact ⟨l, r, f, hnode⟩
  case empty =>
    intro k hlow hk
    exact hm.empty (BitVec.ofNat 9 k) (by rwa [ofNat_toNat_of_lt hk])

/-- Settles O22: the merge loop's invariant says of every internal node how it was made. -/
theorem buildMergesTheLeastPair : Obligations.BuildMergesTheLeastPair := by
  intro s t h k l r f hk
  obtain ⟨hnode, -⟩ := node_root_of_exec_build h
  rw [hnode] at hk ⊢
  have hmerged := buildTree_merged hk
  exact ⟨hmerged.left, hmerged.right, hmerged.ne, hmerged.first, hmerged.second, hmerged.sum⟩

/-- Settles O23: the merge loop keeps every sum exact, and the sum of its candidates, of which the root is the last, at the sum of
the histogram. -/
theorem buildFrequenciesAreExactSums : Obligations.BuildFrequenciesAreExactSums := by
  intro s t h
  obtain ⟨hnode, hroot⟩ := node_root_of_exec_build h
  rw [hnode, hroot]
  exact ⟨fun i l r f hi => (buildTree_merged hi).exact, buildTree_root_freq⟩

end Sys2Proof.Machine
end

section
/-! PROOF. The bitstream encoder (R150 to R156): the packed stream that ENCODE leaves in BS_MEM, the loop over a whole input, and
ENCODE on a written input whose codes fit. -/

namespace Sys2Proof.Machine

/-- The length of a stream is the sum of the code lengths of its symbols, an absent symbol counting 0 (R151). -/
theorem State.length_codesOf (s : State) (xs : List Byte) :
    (s.codesOf xs).length = (xs.map fun x => (s.code.at x).len.toNat).sum := by
  simp [State.codesOf, State.codeOf, List.length_flatMap]

/-- Every bit of the bytes a packed stream takes: the stream's own, then the zeros of the padding (R68, R153). -/
theorem State.bit_of_packBits {t : State} {m : Memory} {bits : List Bool} (hmem : t.bsMem = m.writeBytes 0 (packBits bits))
    {k : Nat} (hk : k < 8 * ((bits.length + 7) / 8)) : t.bit k = some (bits.getD k false) := by
  have hbyte : k / 8 < (packBits bits).length := by rw [length_packBits]; omega
  have hpack : (packBits bits)[k / 8] = packByte bits (k / 8) := by simp [packBits]
  rw [State.bit, hmem, Memory.read_writeBytes_zero hbyte, Option.map_some, hpack,
    packByte_getLsbD _ _ _ (Nat.mod_lt k (by decide)), Nat.div_add_mod]

/-- A packed stream written from byte 0 up is stored as its bits, its padding, and nothing past them (R68, R153). -/
theorem storesStream_of_packBits {s t : State} {bits : List Bool} (hmem : t.bsMem = s.bsMem.writeBytes 0 (packBits bits)) :
    storesStream s t bits := by
  refine ⟨fun k hk => ?stream, fun k hk hpad => ?padding, fun j hj => ?past⟩
  case stream => rw [State.bit_of_packBits hmem (by omega), List.getD_eq_getElem _ _ hk]
  case padding => rw [State.bit_of_packBits hmem hpad, List.getD_eq_default _ _ hk]
  case past => rw [hmem, Memory.read_writeBytes_outside (.inr (by rwa [length_packBits, Nat.zero_add]))]

/-- The loop over a whole input whose codes fit and, in strict mode, are all known emits the codes, counts the unknown symbols
and ends without an error (R150 to R152). -/
theorem encodeLoop_input {s : State} {xs : List Byte} (hin : s.inputIs xs)
    (hknown : s.ctrl.strictEnc = true → ∀ x ∈ xs, s.unknown x = false)
    (hfit : (s.codesOf xs).length ≤ s.params.bsBits) :
    encodeLoop s s.inLen.toNat 0 0 = .ok ⟨s.codesOf xs, (xs.filter s.unknown).length, none⟩ := by
  obtain ⟨hlen, hread⟩ := hin
  have hrun := encodeLoop_run s xs 0 0 0 (by simpa using hread) hknown (by omega)
  rw [hlen, ← Nat.add_zero xs.length, hrun]
  simp [encodeLoop, Except.map, Encoded.after]

/-- Settles O28: the loop runs through the whole input, its bits are stored packed, and both counts fit their registers. -/
theorem encodeConcatenatesCodes : Obligations.EncodeConcatenatesCodes := by
  intro s xs hok hin hlen hknown hfit
  obtain ⟨-, hmaxIn, -, -, hbsBytes, -⟩ := hok
  have hunk := List.length_filter_le s.unknown xs
  have hinLen : s.inLen.toNat ≤ s.params.maxIn := hin.1 ▸ hlen
  have hbsLen : (BitVec.ofNat 32 (s.codesOf xs).length).toNat = (s.codesOf xs).length :=
    Nat.mod_eq_of_lt (by omega)
  have hunkCnt : (BitVec.ofNat 32 (xs.filter s.unknown).length).toNat = (xs.filter s.unknown).length :=
    Nat.mod_eq_of_lt (by omega)
  exact ⟨_, exec_encode_next hinLen (encodeLoop_input hin hknown hfit) rfl, rfl, storesStream_of_packBits rfl,
    hbsLen.trans (s.length_codesOf xs), hbsLen, hunkCnt⟩

end Sys2Proof.Machine
end

section
/-! PROOF. The bitstream decoder (R170 to R177): the symbols that DECODE leaves in OUT_MEM, the loop over a stream of leaf paths with
the beginning of one behind them, and DECODE on such a stream. -/

namespace Sys2Proof.Machine

/-- Symbols written from byte 0 up are stored as themselves, and nothing past them (R43, R177). -/
theorem storesOutput_of_writeBytes {s t : State} {syms : List Byte} (hmem : t.outMem = s.outMem.writeBytes 0 syms) :
    storesOutput s t syms := by
  refine ⟨fun j hj => ?symbols, fun j hj => ?past⟩
  case symbols => rw [hmem, Memory.read_writeBytes_zero hj]
  case past => rw [hmem, Memory.read_writeBytes_outside (.inr (by rwa [Nat.zero_add]))]

/-- A stream in two parts: its length, the bits of the first part, and the bits of the second behind them. -/
theorem State.streamIs_append {s : State} {xs ys : List Bool} (h : s.streamIs (xs ++ ys)) :
    s.bsLen.toNat = xs.length + ys.length ∧ (∀ j (h : j < xs.length), s.bit j = some xs[j]) ∧
      ∀ j (h : j < ys.length), s.bit (xs.length + j) = some ys[j] := by
  obtain ⟨hlen, hbit⟩ := h
  have happend : (xs ++ ys).length = xs.length + ys.length := List.length_append
  refine ⟨hlen.trans happend, fun j hj => ?first, fun j hj => ?second⟩
  case first => rw [hbit j (by omega), List.getElem_append_left hj]
  case second => simp [hbit (xs.length + j) (by omega)]

/-- The loop over a stream of leaf paths and the beginning of one more leaves the leaves' symbols, and the position where the paths
end (R170, R174). -/
theorem decodeLoop_stream {s : State} {n : Nat} (h : s.treeFull n) {codes : List (Byte × List Bool)} {tail : List Bool}
    (hcodes : ∀ p ∈ codes, s.node.leafPath s.root.idx p.1 p.2) (htail : s.node.partialPath s.root.idx tail)
    (hstream : s.streamIs (codes.flatMap Prod.snd ++ tail)) :
    decodeLoop s s.root.idx s.bsLen.toNat 0 s.root.idx 0 = .ok ⟨codes.map Prod.fst, (codes.flatMap Prod.snd).length⟩ := by
  have hw := State.treeFull_walks h
  have hr := State.treeFull_root h
  obtain ⟨hlen, hpaths, hrest⟩ := State.streamIs_append hstream
  rw [hlen, decodeLoop_leafPaths hw hr codes hcodes (by simpa using hpaths),
    decodeLoop_partialPath hw tail hr htail (by simpa using hrest)]
  simp [Except.map, Decoded.after]

/-- Settles O31: the loop runs through the whole stream, and whether bits are left over in strict mode decides how DECODE ends. -/
theorem decodeWalksTheTree : Obligations.DecodeWalksTheTree := by
  intro s codes tail _ htree hp hs hcodes htail hstream hlen
  obtain ⟨n, hfull⟩ := State.treeInv_full htree hp hs
  have hloop := decodeLoop_stream hfull hcodes htail hstream
  obtain ⟨hbsLen, -⟩ := State.streamIs_append hstream
  have hrest : s.bsLen.toNat - (codes.flatMap Prod.snd).length = tail.length := by omega
  have hcount : (codes.map Prod.fst).length = codes.length := List.length_map _
  by_cases hend : tail = [] ∨ s.ctrl.strictDec = false
  case pos =>
    have hdone : (codes.flatMap Prod.snd).length < s.bsLen.toNat → s.ctrl.strictDec = false := fun hlt =>
      hend.resolve_left (List.ne_nil_of_length_pos (by omega))
    refine ⟨_, _, exec_decode_next hlen hp hs hloop hdone, rfl, storesOutput_of_writeBytes rfl, fun _ => ?completes,
      fun hne hstrict => absurd hend (by simp [hne, hstrict])⟩
    case completes => rw [hrest, ← hcount]; rfl
  case neg =>
    obtain ⟨hne, hstrict⟩ := not_or.1 hend
    have hleft : (codes.flatMap Prod.snd).length < s.bsLen.toNat := by
      have := List.length_pos_of_ne_nil hne
      omega
    have hpos : BitVec.ofNat 32 (codes.flatMap Prod.snd).length = s.bsLen - BitVec.ofNat 32 tail.length := by bv_omega
    refine ⟨_, _, exec_decode_error hlen hp hs hloop hleft (by simpa using hstrict), rfl,
      storesOutput_of_writeBytes rfl, fun h => absurd h hend, fun _ _ => ?raises⟩
    case raises => rw [hrest, ← hcount, hpos]; rfl

end Sys2Proof.Machine
end

section
/-! PROOF. The statistics unit (R190 to R195): the registers STATS writes, and why the savings and the percentage fit 32 bits in every
allowed configuration. -/

namespace Sys2Proof.Machine

/-- The original length in bits less the encoded one (R191). -/
def State.savings (s : State) : Int := 8 * (s.inLen.toNat : Int) - s.bsLen.toNat

/-- STATS on lengths within the buffers writes its four registers beside its completion (R190, R202). -/
theorem exec_stats_next {s : State} (hin : s.inLen.toNat ≤ s.params.maxIn) (hbs : s.bsLen.toNat ≤ s.params.bsBits) :
    exec .stats s =
      .next { s with
        statOrig := BitVec.ofNat 32 (8 * s.inLen.toNat)
        statEnc := s.bsLen
        statSave := BitVec.ofInt 32 s.savings
        statPct := BitVec.ofInt 32 (percent s.savings (8 * s.inLen.toNat)) }.complete := by
  have hlens : ¬ (s.inLenOut || s.bsLenOut) = true := by
    simp only [State.inLenOut, State.bsLenOut, Bool.or_eq_true, decide_eq_true_eq]
    omega
  show execStats s = _
  rw [execStats, if_neg hlens]
  simp only [State.savings, Nat.cast_mul, Nat.cast_ofNat]

/-- At the greatest, IN_MEM holds 524288 bits and BS_MEM holds fewer (R8). -/
theorem State.savings_natAbs_le {s : State} (hok : s.params.ok) (hin : s.inLen.toNat ≤ s.params.maxIn)
    (hbs : s.bsLen.toNat ≤ 8 * s.params.bsBytes) : s.savings.natAbs ≤ 8 * 65536 := by
  obtain ⟨-, hmaxIn, -, -, hbsBytes, -⟩ := hok
  unfold State.savings
  omega

/-- Of no input nothing is saved (R192). -/
@[simp] theorem percent_zero (save : Int) : percent save 0 = 0 := rfl

theorem percent_of_pos (save : Int) {orig : Nat} (h : 0 < orig) :
    percent save orig = roundHalfAway (save * 10000) orig := if_neg h.ne'

/-- The original length of an input that is not empty is at least 8 bits, which bounds the quotient. -/
theorem percent_natAbs_le (save : Int) {orig : Nat} (h : 8 ≤ orig) :
    (percent save orig).natAbs ≤ (save * 10000).natAbs / 8 + 1 := by
  rw [percent_of_pos save (by omega)]
  exact (roundHalfAway_natAbs_le _ _).trans (Nat.succ_le_succ (Nat.div_le_div_left h (by decide)))

/-- Settles O35: in every allowed configuration the savings and the percentage fit their registers, and the percentage is the
rounded quotient. -/
theorem statsAreExact : Obligations.StatsAreExact := by
  intro s hok hin hbs
  have hbound := State.savings_natAbs_le hok hin hbs
  have horig : (BitVec.ofNat 32 (8 * s.inLen.toNat)).toNat = 8 * s.inLen.toNat := by
    obtain ⟨-, hmaxIn, -⟩ := hok
    exact Nat.mod_eq_of_lt (by omega)
  have hsave : (BitVec.ofInt 32 s.savings).toInt = s.savings := toInt_ofInt_of_fits (by omega) (by omega)
  refine ⟨_, _, _, _, exec_stats_next hin hbs, horig, rfl, hsave, fun h0 => ?none, fun hne => ?nearest⟩
  case none => simp [h0]
  case nearest =>
    have hpos : 0 < s.inLen.toNat := by bv_omega
    have hsize := percent_natAbs_le s.savings (orig := 8 * s.inLen.toNat) (by omega)
    rw [horig, hsave, toInt_ofInt_of_fits (by omega) (by omega), percent_of_pos _ (by omega)]
    exact roundHalfAway_nearest _ _ (by omega)

end Sys2Proof.Machine
end

section
/-! PROOF. The control commands and the issue of a command (R200, R201, R204 to R206): what a write of CMD does, the completions of
NOP and CLEAR, and the end of a word that is no command. -/

namespace Sys2Proof.Machine

/-! ### The issue of a command (R200, R201) -/

/-- A full write of a register other than STATUS has its effect while BUSY = 0, and while BUSY = 1 only sets OVERRUN (R24, R66 (c)). -/
theorem State.portWrite_reg (s : State) (v : Word) {r : Reg} (hr : r ≠ .status) :
    s.portWrite r.offset 0xF v = (if s.busy then s.setOverrun else s.writeReg v r, .okay) := by
  rw [s.portWrite_regs v r.offset_aligned r.offset_lt, State.writeBlock_other r.ofIndex_offset hr]

/-- CMD is at offset 0x014, and its effect is the issue of the word written (R23, R200). -/
theorem State.portWrite_cmd (s : State) (w : Word) :
    s.portWrite 0x014 0xF w = (if s.busy then s.setOverrun else s.issue w, .okay) :=
  s.portWrite_reg w (r := .cmd) (by decide)

/-- Settles O8: the write of CMD in its two cases by BUSY. -/
theorem cmdWriteIssuesOrIsDropped : Obligations.CmdWriteIssuesOrIsDropped := by
  intro s w
  rw [s.portWrite_cmd w]
  refine ⟨fun hidle => ?idle, fun hbusy => ?busy⟩
  case idle =>
    rw [if_neg (by simp [hidle])]
    rfl
  case busy =>
    rw [if_pos hbusy]
    rfl

/-! ### NOP (R204) -/

theorem exec_nop (s : State) : exec .nop s = .next s.complete := rfl

/-- The STATUS after a word is issued and its command completes without an error: DONE, OVERRUN as before, and the word's opcode
(R200, R202). -/
theorem State.statusWord_complete_issue (s : State) (w : Word) :
    (s.issue w).complete.statusWord =
      0#8 ++ opcField w ++ 0#8 ++ 0#4 ++ BitVec.ofBool s.status.overrun ++ 0#1 ++ 1#1 ++ 0#1 := rfl

/-- Settles O13: NOP is its completion, and STATUS then has DONE, OVERRUN as before, and LAST_OPC = 0. -/
theorem nopOnlyCompletes : Obligations.NopOnlyCompletes := by
  intro s
  refine ⟨exec_nop s, _, exec_nop (s.issue 0), ?_⟩
  rw [State.statusWord_complete_issue]
  cases s.status.overrun <;> rfl

/-! ### CLEAR (R205) -/

theorem exec_clear (s : State) : exec .clear s = .next s.clearDerived.complete := rfl

/-- Settles O14: the cleared structures are the empty ones, whose entries are all at their reset values. -/
theorem clearResetsDerivedStructures : Obligations.ClearResetsDerivedStructures := by
  intro s
  exact ⟨Hist.zero, Arena.empty, CodeTable.empty, exec_clear s, Hist.at_zero, Arena.at_empty, CodeTable.at_empty⟩

/-! ### A word that is no command (R206) -/

theorem exec_illegal (opc : BitVec 8) (rsvd : BitVec 24) (s : State) :
    exec (.illegal opc rsvd) s = .next (s.raise .illegalCmd none) := rfl

/-- An error that records no item changes only the completion fields of STATUS (R202, R222). -/
theorem State.raise_none (s : State) (c : ErrCode) :
    s.raise c none =
      { s with
        inFlight := none
        status := { s.status with done := true, err := true, errCode := c } } := rfl

/-- A word with OPC above 0x07 or RSVD other than 0 is the illegal command of its own fields (R93). -/
theorem decode_of_illegal_fields {w : Word} (h : 7 < (opcField w).toNat ∨ rsvdField w ≠ 0) :
    decode w = .illegal (opcField w) (rsvdField w) := by
  obtain ⟨hrsvd, hopc, -⟩ | ⟨-, hdec⟩ := decode_cases w
  · exact absurd h (by simp [hrsvd, hopc])
  · exact hdec

/-- Settles O15: such a word decodes to the illegal command, which on every state only raises ILLEGAL_CMD; LAST_OPC is what the
issue wrote. -/
theorem illegalWordCompletesWithIllegalCmd : Obligations.IllegalWordCompletesWithIllegalCmd := by
  refine ⟨fun s w hfields => ?word, fun s opc rsvd => ?command⟩
  case word =>
    rw [decode_of_illegal_fields hfields, exec_illegal, State.raise_none]
    rfl
  case command => rw [exec_illegal, State.raise_none]

end Sys2Proof.Machine
end

section
/-! PROOF. The interrupt output (R230): what raises it, what lowers it, and what leaves it as it is. -/

namespace Sys2Proof.Machine

/-! ### What raises irq -/

/-- A command that completes, with or without an error, sets DONE and leaves CTRL as it was (R202). -/
theorem exec_done_ctrl {i : Instr} {s t : State} (h : exec i s = .next t) : t.status.done = true ∧ t.ctrl = s.ctrl := by
  have hx := exec_effect h
  cases hx with
  | nop | clear | build | count | generate | encode | decodeAbsent | decodeSynth | decode | stats => exact ⟨rfl, rfl⟩
  | illegal | inLenRange | bsLenRange | encodeError | decodeError => exact ⟨rfl, rfl⟩

/-- After a command irq is IRQ_EN. -/
theorem exec_irq {i : Instr} {s t : State} (h : exec i s = .next t) : t.irq = s.ctrl.irqEn := by
  obtain ⟨hdone, hctrl⟩ := exec_done_ctrl h
  rw [State.irq, hdone, hctrl, Bool.true_and]

/-! ### What lowers irq -/

theorem State.irq_of_not_done {s : State} (h : s.status.done = false) : s.irq = false := by
  rw [State.irq, h, Bool.false_and]

theorem State.irq_of_masked {s : State} (h : s.ctrl.irqEn = false) : s.irq = false := by
  rw [State.irq, h, Bool.and_false]

/-- The issue of a command clears DONE (R200). -/
theorem State.irq_issue (s : State) (w : Word) : (s.issue w).irq = false :=
  State.irq_of_not_done rfl

/-- A word with bit 1 set clears DONE (R26). -/
theorem State.irq_clearFlags {s : State} {v : Word} (hv : v.getLsbD 1 = true) : (s.clearFlags v).irq = false :=
  State.irq_of_not_done (by simp [hv])

/-- CTRL is at offset 0x010, and while BUSY = 0 a write of it replaces CTRL alone (R23, R24). -/
theorem State.portWrite_ctrl {s : State} (hb : s.busy = false) (v : Word) :
    s.portWrite 0x010 0xF v = ({ s with ctrl := Ctrl.ofWord v }, .okay) := by
  have hw := s.portWrite_reg v (r := .ctrl) (by decide)
  rw [hb] at hw
  exact hw

/-! ### What leaves irq as it is -/

/-- OVERRUN is no part of irq. -/
theorem State.irq_setOverrun (s : State) : s.setOverrun.irq = s.irq := rfl

/-- Settles O52: completion sets DONE, the writes of STATUS and CMD clear it, the write of CTRL masks it. -/
theorem irqIsDoneAndEnabled : Obligations.IrqIsDoneAndEnabled := by
  refine ⟨fun s => rfl, fun i s t h => exec_irq h, fun s v hv => ?status, fun s w hb => ?cmd, fun s v hb hv => ?ctrl,
    State.irq_setOverrun, rfl⟩
  case status =>
    rw [s.portWrite_status v]
    exact State.irq_clearFlags hv
  case cmd =>
    rw [s.portWrite_cmd w, hb]
    exact s.irq_issue w
  case ctrl =>
    rw [State.portWrite_ctrl hb v]
    exact ⟨State.irq_of_masked hv, rfl⟩

end Sys2Proof.Machine
end

section
/-! PROOF. The command words in both directions (R90 to R94): a command is read back from its bytes, and a word from its command. -/

namespace Sys2Proof

/-- Four bytes in front of a list are one command word (R90, R62). -/
theorem decodeBytes_wordBytes (w : Word) (rest : List Byte) : decodeBytes (wordBytes w ++ rest) = .ok (decode w, rest) := by
  conv_rhs => rw [← wordOfLanes_laneOf w]
  rfl

/-- The decoder's cases by OPC where RSVD is 0: each opcode from 0 to 7 is its row's command (R91). -/
theorem decode_of_legal_fields {w : Word} (hr : rsvdField w = 0) (ho : (opcField w).toNat ≤ 7) :
    (decode w).wf = true ∧ reservedOf (decode w) = 0 ∧ opcodeOf (decode w) = opcField w := by
  have hopc : opcField w = BitVec.ofNat 8 (opcField w).toNat := by simp
  rw [decode, if_neg (not_not.2 hr)]
  generalize (opcField w).toNat = k at ho hopc
  rw [hopc]
  interval_cases k <;> exact ⟨rfl, rfl, rfl⟩

/-- Illegal fields, as the decoder finds them, make a well-formed illegal command (R93). -/
theorem wf_illegal_of_fields {opc : BitVec 8} {rsvd : BitVec 24} (h : rsvd ≠ 0 ∨ 7 < opc.toNat) :
    (Instr.illegal opc rsvd).wf = true := by
  rw [Instr.wf, illegalFields, Bool.or_eq_true, decide_eq_true_eq, decide_eq_true_eq]
  exact h.symm

/-- Settles O1: the bytes of a command are those of its word, which decodes to the command. -/
theorem decodeReadsBackEncodedBytes : Obligations.DecodeReadsBackEncodedBytes := by
  intro i rest hwf
  rw [encodeBytes, decodeBytes_wordBytes, decode_encode hwf]

/-- Settles O2: the decoder keeps both fields of the word, and a word is its two fields. -/
theorem encodeWritesBackEveryWord : Obligations.EncodeWritesBackEveryWord := by
  intro w
  obtain ⟨hr, ho, -⟩ | ⟨hfields, hdec⟩ := decode_cases w
  case inl =>
    obtain ⟨hwf, hres, hopc⟩ := decode_of_legal_fields hr ho
    exact ⟨hwf, by rw [encode, hres, hopc, ← hr, fields_append]⟩
  case inr =>
    rw [hdec]
    exact ⟨wf_illegal_of_fields hfields, fields_append w⟩

/-- Settles O4: each sample word by its fields. -/
theorem sampleCommandWordsDecode : Obligations.SampleCommandWordsDecode :=
  ⟨rfl, rfl, rfl, rfl, rfl, rfl, rfl⟩

end Sys2Proof
end

section
/-! PROOF. The rest of the host port of 20_memory.md (R60 to R70): accesses that answer an error, the HIST window, words written to the
buffers, the place of a stream bit, and reads without a side effect. -/

namespace Sys2Proof.Machine

/-! ### Accesses that answer an error (R61, R63) -/

/-- Settles O38: such an access is not a proper one, which both kinds of access ask for first. -/
theorem improperAccessHasNoEffect : Obligations.ImproperAccessHasNoEffect := by
  intro s a lanes v h
  have himproper : properAccess a lanes = false := by
    rw [properAccess, Bool.and_eq_false_iff, decide_eq_false_iff_not, decide_eq_false_iff_not]
    exact h
  exact ⟨by rw [State.portRead, himproper]; rfl, by rw [State.portWrite, himproper]; rfl⟩

/-- A read of a region that has no word there answers an error, open or closed (R61, R63). -/
theorem State.portRead_error {s : State} {a : Offset} (h : s.readWindow (regionOf a) = none) (lanes : BitVec 4) :
    s.portRead a lanes = (.slverr, 0) := by
  rw [State.portRead, h, ite_self]

/-- An aligned write of all lanes does what the region of its offset does (R61, R63). -/
theorem State.portWrite_region (s : State) (v : Word) {a : Offset} (ha : a.toNat % 4 = 0) :
    s.portWrite a 0xF v = s.writeRegion v (regionOf a) := by
  simp [State.portWrite, ha]

/-- A write that its region refuses without an effect answers an error, proper or not (R61, R63). -/
theorem State.portWrite_error {s : State} {v : Word} {a : Offset} (h : s.writeRegion v (regionOf a) = (s, .slverr))
    (lanes : BitVec 4) : s.portWrite a lanes v = (s, .slverr) := by
  rw [State.portWrite, h, ite_self]

/-- Past a buffer's capacity the host finds no word (R63). -/
theorem State.readWindow_past {s : State} {buf : Buffer} {j : Nat} (h : s.capacity buf ≤ j) :
    s.readWindow (.buffer buf j) = none := by
  rw [State.readWindow, if_neg (by omega)]

/-- While BUSY = 0 a write of a buffer is refused past its capacity, and everywhere in OUT_MEM (R63). -/
theorem State.writeRegion_buffer_refused {s : State} {buf : Buffer} {j : Nat} (v : Word) (hb : s.busy = false)
    (h : buf = .outMem ∨ s.capacity buf ≤ j) : s.writeRegion v (.buffer buf j) = (s, .slverr) := by
  cases buf with
  | outMem => simp [State.writeRegion, hb]
  | inMem | bsMem =>
    have hpast := h.resolve_left (by decide)
    simp only [State.capacity] at hpast
    simp [State.writeRegion, hb, hpast]

/-- While BUSY = 0 the structure windows NODE and CODE refuse a write (R63). -/
theorem State.writeRegion_structure_refused {s : State} {a : Offset} (v : Word) (hb : s.busy = false) (h : 0x2000 ≤ a.toNat)
    (h' : a.toNat < 0x8000) : s.writeRegion v (regionOf a) = (s, .slverr) := by
  by_cases hnode : a.toNat < 0x4000
  · rw [regionOf_node h hnode, State.writeRegion, hb]; rfl
  · rw [regionOf_code (by omega) h', State.writeRegion, hb]; rfl

/-- Settles O40: each offset by its region. -/
theorem addressMapErrors : Obligations.AddressMapErrors := by
  intro s a v
  refine ⟨fun h => ?unmapped, fun hb => ⟨fun h => State.portWrite_error ?readOnly _, fun h h' => ?inMem, fun h h' => ?bsMem,
    fun h => State.portRead_error ?outMem _⟩⟩
  case unmapped =>
    have hr := regionOf_unmapped h
    exact ⟨State.portRead_error (by rw [hr]; rfl) _, State.portWrite_error (by rw [hr]; rfl) _⟩
  case readOnly =>
    obtain ⟨h, h'⟩ | h := h
    · exact State.writeRegion_structure_refused v hb h h'
    · rw [regionOf_outMem h]
      exact State.writeRegion_buffer_refused v hb (.inl rfl)
  case inMem =>
    have hr := regionOf_inMem (a := a) (by omega) h'
    have hpast : s.capacity .inMem ≤ a.toNat - 0x10000 := by simp only [State.capacity]; omega
    exact ⟨State.portRead_error (by rw [hr, State.readWindow_past hpast]) _,
      State.portWrite_error (by rw [hr, State.writeRegion_buffer_refused v hb (.inr hpast)]) _⟩
  case bsMem =>
    have hr := regionOf_bsMem (a := a) (by omega) h'
    have hpast : s.capacity .bsMem ≤ a.toNat - 0x20000 := by simp only [State.capacity]; omega
    exact ⟨State.portRead_error (by rw [hr, State.readWindow_past hpast]) _,
      State.portWrite_error (by rw [hr, State.writeRegion_buffer_refused v hb (.inr hpast)]) _⟩
  case outMem =>
    rw [regionOf_outMem (by omega), State.readWindow_past]
    simp only [State.capacity]
    omega

/-! ### The HIST window (R30, R63) -/

/-- The offset of HIST[s] is aligned and in the region of its symbol (R63). -/
theorem regionOf_hist_offset (c : Byte) :
    (BitVec.ofNat 18 (0x400 + 4 * c.toNat)).toNat % 4 = 0 ∧ regionOf (BitVec.ofNat 18 (0x400 + 4 * c.toNat)) = .hist c := by
  have hc := c.isLt
  have ht := offset_toNat (n := 0x400 + 4 * c.toNat) (by omega)
  refine ⟨by omega, ?_⟩
  rw [regionOf_hist (by omega) (by omega), ht, show (0x400 + 4 * c.toNat - 0x400) / 4 = c.toNat by omega,
    BitVec.ofNat_toNat, BitVec.setWidth_eq]

/-- Settles O42: both accesses go to the region of the symbol. -/
theorem histWindowReadsAndWrites : Obligations.HistWindowReadsAndWrites := by
  intro s c v hb
  obtain ⟨ha, hr⟩ := regionOf_hist_offset c
  refine ⟨?read, s.hist.put c v, ?write, ?stored, fun d hd => ?others⟩
  case read => simp [-BitVec.toNat_ofNat, State.portRead, hr, ha, State.readable, State.readWindow, hb]
  case write =>
    rw [State.portWrite_region s v ha, hr, State.writeRegion, hb]
    rfl
  case stored => rw [Hist.at_put, if_pos rfl]
  case others => rw [Hist.at_put, if_neg hd]

/-! ### Words written to the buffers (R62, R63) -/

theorem State.portWrite_inMem {s : State} {j : Nat} (v : Word) (hb : s.busy = false) (h4 : j % 4 = 0) (hj : j < 0x10000)
    (hc : j < s.params.maxIn) :
    s.portWrite (BitVec.ofNat 18 (0x10000 + j)) 0xF v =
      ({ s with inMem := s.inMem.writeBytes j (wordBytes v) }, .okay) := by
  have ht := offset_toNat (n := 0x10000 + j) (by omega)
  rw [State.portWrite_region s v (by omega), regionOf_inMem (by omega) (by omega), ht, Nat.add_sub_cancel_left,
    State.writeRegion, hb, if_neg (by decide), if_pos hc]
  rfl

theorem State.portWrite_bsMem {s : State} {j : Nat} (v : Word) (hb : s.busy = false) (h4 : j % 4 = 0) (hj : j < 0x10000)
    (hc : j < s.params.bsBytes) :
    s.portWrite (BitVec.ofNat 18 (0x20000 + j)) 0xF v =
      ({ s with bsMem := s.bsMem.writeBytes j (wordBytes v) }, .okay) := by
  have ht := offset_toNat (n := 0x20000 + j) (by omega)
  rw [State.portWrite_region s v (by omega), regionOf_bsMem (by omega) (by omega), ht, Nat.add_sub_cancel_left,
    State.writeRegion, hb, if_neg (by decide), if_pos hc]
  rfl

/-- The bytes of a word written to a memory are its lanes in ascending order (R62). -/
theorem Memory.read_writeBytes_wordBytes (m : Memory) (j : Nat) (v : Word) {i : Nat} (hi : i < 4) :
    (m.writeBytes j (wordBytes v)).read (j + i) = some (laneOf v i) := by
  rw [Memory.read_writeBytes_inside (by rwa [length_wordBytes]), getElem_wordBytes]

/-- A buffer word whose four bytes are the lanes of a word reads as that word (R62). -/
theorem State.readBuffer_of_lanes {s : State} {buf : Buffer} {j : Nat} {v : Word}
    (h : ∀ i, i < 4 → (s.ram buf).read (j + i) = some (laneOf v i)) : s.readBuffer buf j = v := by
  have hlane : ∀ i, i < 4 → s.readLane buf j i = laneOf v i := fun i hi => by rw [State.readLane, h i hi]
  rw [State.readBuffer, hlane 0 (by decide), hlane 1 (by decide), hlane 2 (by decide), hlane 3 (by decide),
    wordOfLanes_laneOf]

/-- Settles O43: each buffer's write stores the lanes of the word, which the read then gathers again. -/
theorem bufferWriteStoresLittleEndian : Obligations.BufferWriteStoresLittleEndian := by
  intro s j v hok hb h4
  obtain ⟨-, hIn, -, -, hBs, -⟩ := hok
  refine ⟨fun hj => ?inMem, fun hj => ?bsMem⟩
  case inMem =>
    have hlanes : ∀ i, i < 4 → (s.inMem.writeBytes j (wordBytes v)).read (j + i) = some (laneOf v i) :=
      fun i hi => Memory.read_writeBytes_wordBytes s.inMem j v hi
    exact ⟨_, State.portWrite_inMem v hb h4 (by omega) hj, hlanes, fun x hx => Memory.read_writeBytes_outside hx,
      (State.portRead_inMem (s := { s with inMem := s.inMem.writeBytes j (wordBytes v) }) hb h4 (by omega) hj).trans
        (congrArg (Prod.mk _) (State.readBuffer_of_lanes hlanes))⟩
  case bsMem =>
    have hlanes : ∀ i, i < 4 → (s.bsMem.writeBytes j (wordBytes v)).read (j + i) = some (laneOf v i) :=
      fun i hi => Memory.read_writeBytes_wordBytes s.bsMem j v hi
    exact ⟨_, State.portWrite_bsMem v hb h4 (by omega) hj, hlanes, fun x hx => Memory.read_writeBytes_outside hx,
      (State.portRead_bsMem (s := { s with bsMem := s.bsMem.writeBytes j (wordBytes v) }) hb h4 (by omega) hj).trans
        (congrArg (Prod.mk _) (State.readBuffer_of_lanes hlanes))⟩

/-! ### Where a stream bit stands (R68) -/

/-- Settles O45: the bit's byte is lane (k div 8) mod 4 of the word, and in it the bit is 7 - (k mod 8). -/
theorem streamBitsAreMsbFirst : Obligations.StreamBitsAreMsbFirst := by
  intro s k b hok hb hk hbit
  obtain ⟨-, -, -, -, hBs, -⟩ := hok
  obtain ⟨y, hread, rfl⟩ := Option.map_eq_some_iff.1 hbit
  rw [show k / 8 = 4 * (k / 32) + k / 8 % 4 by omega] at hread
  have hlane : laneOf (s.readBuffer .bsMem (4 * (k / 32))) (k / 8 % 4) = y :=
    State.readBuffer_lane (buf := .bsMem) (by omega) hread
  refine ⟨_, State.portRead_bsMem hb (by omega) (by omega) (by omega), ?_⟩
  rw [← hlane, laneOf, BitVec.getLsbD_extractLsb', decide_eq_true (by omega), Bool.true_and]
  congr 1
  omega

/-! ### Reads without a side effect (R69) -/

/-- No answer of the port depends on the record of the world outside (R69). -/
theorem State.portRead_withReply (s : State) (r : BusReply) (a : Offset) (lanes : BitVec 4) :
    (s.withReply r).portRead a lanes = s.portRead a lanes := rfl

/-- Settles O46: only the record of the world outside changes, on which no answer depends. -/
theorem hostReadHasNoSideEffect : Obligations.HostReadHasNoSideEffect := by
  intro s a lanes
  have hread : ∀ b lanes', (s.hostRead a lanes).portRead b lanes' = s.portRead b lanes' :=
    fun b lanes' => s.portRead_withReply _ b lanes'
  exact ⟨rfl, by rw [State.hostRead, hread]; rfl, hread⟩

end Sys2Proof.Machine
end

section
/-! PROOF. The register block (R23 to R28): what every offset reads, how the fields of CTRL, STATUS and ROOT are laid out, and what a
write does while BUSY = 0. -/

namespace Sys2Proof.Machine

/-! ### Reads (R23, R24) -/

/-- A reserved word of the register block reads 0 (R24). -/
theorem State.readBlock_reserved (s : State) {k : Nat} (h : 21 ≤ k) : s.readBlock k = 0 := by
  have hnone : Reg.ofIndex k = none := List.getElem?_eq_none h
  rw [State.readBlock, hnone]

/-- Settles O49: each offset is that of its register, and those from 0x054 on are reserved. -/
theorem registerReads : Obligations.RegisterReads := by
  intro s
  exact ⟨s.portRead_reg .id, s.portRead_reg .cfgMaxIn, s.portRead_reg .cfgBsBytes, s.portRead_reg .cfgMaxOut,
    s.portRead_reg .ctrl, s.portRead_reg .cmd, s.portRead_reg .status, s.portRead_reg .errPos, s.portRead_reg .errSym,
    s.portRead_reg .inLen, s.portRead_reg .bsLen, s.portRead_reg .outLen, s.portRead_reg .unkCnt,
    s.portRead_reg .trailBits, s.portRead_reg .nsym, s.portRead_reg .nodeCnt, s.portRead_reg .root,
    s.portRead_reg .statOrig, s.portRead_reg .statEnc, s.portRead_reg .statSave, s.portRead_reg .statPct,
    fun a ha hlow hhigh => by rw [s.portRead_regs ha hhigh, s.readBlock_reserved (by omega)]⟩

/-! ### Fields (R23, R25, R26, R28) -/

/-- Settles O50: a word is its parts, each weighted by the bits below it. -/
theorem registerFieldLayout : Obligations.RegisterFieldLayout := by
  intro s
  refine ⟨?ctrl, ?status, ?root⟩
  case ctrl =>
    simp only [Ctrl.word, toNat_append, BitVec.toNat_ofNat, BitVec.toNat_ofBool]
    omega
  case status =>
    simp only [State.statusWord, toNat_append, BitVec.toNat_ofNat, BitVec.toNat_ofBool]
    omega
  case root =>
    simp only [Root.word, toNat_append, BitVec.toNat_ofNat, BitVec.toNat_ofBool]
    omega

/-! ### Writes while BUSY = 0 (R24, R27) -/

/-- The registers a host write has an effect on while BUSY = 0 (R23). -/
def Reg.writable : Reg → Bool
  | .ctrl | .cmd | .status | .inLen | .bsLen => true
  | _ => false

/-- A read-only register ignores a write (R24). -/
theorem State.writeReg_readOnly (s : State) (v : Word) {r : Reg} (h : r.writable = false) : s.writeReg v r = s := by
  cases r with
  | ctrl | cmd | status | inLen | bsLen => cases h
  | _ => rfl

/-- While BUSY = 0 a write of the register block other than of a writable register is ignored (R24). -/
theorem State.writeBlock_ignored {s : State} {k : Nat} (v : Word) (hb : s.busy = false)
    (h : ∀ r, Reg.ofIndex k = some r → r.writable = false) : s.writeBlock k v = s := by
  cases hr : Reg.ofIndex k with
  | none => simp [State.writeBlock, hr, hb]
  | some r =>
    have hro := h r hr
    rw [State.writeBlock_other hr (by rintro rfl; cases hro), hb, if_neg (by decide), s.writeReg_readOnly v hro]

/-- The writable registers are at five offsets (R23). -/
theorem Reg.offset_of_writable {r : Reg} (h : r.writable = true) :
    r.offset = 0x010 ∨ r.offset = 0x014 ∨ r.offset = 0x018 ∨ r.offset = 0x024 ∨ r.offset = 0x028 := by
  cases r with
  | ctrl | cmd | status | inLen | bsLen => decide
  | _ => cases h

/-- The register at the word of an aligned offset has that offset (R23). -/
theorem Reg.offset_of_ofIndex {a : Offset} {r : Reg} (ha : a.toNat % 4 = 0) (h : Reg.ofIndex (a.toNat / 4) = some r) :
    r.offset = a := by
  have hk := Reg.eq_idxOf_of_ofIndex h
  rw [Reg.offset, ← hk, Nat.mul_div_cancel' (Nat.dvd_of_mod_eq_zero ha), BitVec.ofNat_toNat, BitVec.setWidth_eq]

/-- Settles O51: the writable registers by their writes, and every other aligned offset of the block is of none of them. -/
theorem registerWrites : Obligations.RegisterWrites := by
  intro s v hb
  have hwrite : ∀ r : Reg, r ≠ .status → s.portWrite r.offset 0xF v = (s.writeReg v r, .okay) := by
    intro r hr
    rw [s.portWrite_reg v hr, hb, if_neg (by decide)]
  refine ⟨hwrite .ctrl (by decide), hwrite .inLen (by decide), hwrite .bsLen (by decide), s.portWrite_status v,
    fun a ha hlt hctrl hcmd hstatus hinLen hbsLen => ?ignored⟩
  rw [s.portWrite_regs v ha hlt, State.writeBlock_ignored v hb fun r hr => ?readOnly]
  by_contra hw
  have hoff := Reg.offset_of_writable (eq_true_of_ne_false hw)
  rw [Reg.offset_of_ofIndex ha hr] at hoff
  obtain h | h | h | h | h := hoff
  exacts [hctrl h, hcmd h, hstatus h, hinLen h, hbsLen h]

end Sys2Proof.Machine
end

section
/-! PROOF. The tree and its code table as a whole: COUNT and BUILD depend on the multiset of symbols alone (R112), BUILD always makes a
tree (R35, R132), GENERATE on the absent tree (R140), and the Kraft sum of the codes (R144). -/

namespace Sys2Proof.Machine

/-! ### COUNT and BUILD (R112, R132) -/

/-- Permuted inputs are counted alike (R112). -/
theorem foldl_bump_eq_of_perm {s s' : State} {xs ys : List Byte} (hx : s.inputIs xs) (hy : s'.inputIs ys) (hp : xs.Perm ys) :
    xs.foldl Hist.bump Hist.zero = ys.foldl Hist.bump Hist.zero :=
  Hist.ext fun c => BitVec.eq_of_toNat_eq (by rw [(countLoop_input hx).2, (countLoop_input hy).2, hp.count_eq c])

/-- Settles O18: the counts of the two inputs agree, and BUILD reads nothing but them. -/
theorem treeDependsOnlyOnSymbolMultiset : Obligations.TreeDependsOnlyOnSymbolMultiset := by
  intro s s' xs ys hx hy hperm hlen hlen'
  have hhist := foldl_bump_eq_of_perm hx hy hperm
  have htree := congrArg buildTree hhist
  exact ⟨_, _, _, _, exec_count_next (hx.1 ▸ hlen) (countLoop_input hx).1,
    exec_count_next (hy.1 ▸ hlen') (countLoop_input hy).1, hhist, exec_build_next _, exec_build_next _,
    congrArg Tree.node htree, congrArg Tree.root htree, congrArg Tree.nsym htree, congrArg Tree.nodeCnt htree⟩

/-- Settles O24: the tree of any histogram keeps R35. -/
theorem buildMakesATree : Obligations.BuildMakesATree := fun s =>
  ⟨_, exec_build_next s, buildTree_treeInv (h := s.hist) rfl rfl rfl rfl, rfl⟩

/-! ### GENERATE on the absent tree (R140) -/

/-- Settles O25: without a tree there is nothing to traverse. -/
theorem generateOfAbsentTree : Obligations.GenerateOfAbsentTree := fun _ hp =>
  ⟨CodeTable.empty, exec_generate_next (codesOf_absent hp), CodeTable.at_empty⟩

/-! ### The Kraft sum (R144) -/

/-- What a code takes of the code space, in units of 2 to the power -256: nothing where the symbol is absent (R144). -/
def CodeEntry.share (e : CodeEntry) : Nat := if e.len = 0 then 0 else 2 ^ (256 - e.len.toNat)

/-- The Kraft sum of a code table, in units of 2 to the power -256 (R144). -/
def CodeTable.kraft (t : CodeTable) : Nat := (allSyms.map fun c => (t.at c).share).sum

/-- A table of entries for different symbols, all of them present, has the sum of their shares. -/
theorem CodeTable.kraft_assign {xs : List (Byte × CodeEntry)} (hnodup : (xs.map Prod.fst).Nodup)
    (hlen : ∀ c e, (c, e) ∈ xs → e.len ≠ 0) :
    (CodeTable.empty.assign xs).kraft = (xs.map fun p => 2 ^ (256 - p.2.len.toNat)).sum := by
  have habsent : ∀ c, c ∉ xs.map Prod.fst → ((CodeTable.empty.assign xs).at c).share = 0 := by
    intro c hc
    rw [CodeTable.assign_at_of_not_mem fun e he => hc (List.mem_map_of_mem he), CodeTable.at_empty]
    rfl
  have hpresent : ∀ p ∈ xs, ((CodeTable.empty.assign xs).at p.1).share = 2 ^ (256 - p.2.len.toNat) := by
    rintro ⟨c, e⟩ hp
    have hunique : ∀ e', (c, e') ∈ xs → e' = e := fun e' he' =>
      congrArg Prod.snd (List.inj_on_of_nodup_map hnodup he' hp rfl)
    rw [CodeTable.assign_at_of_mem hp hunique, CodeEntry.share, if_neg (hlen c e hp)]
  rw [CodeTable.kraft, sum_allSyms _ hnodup habsent, List.map_map]
  exact congrArg List.sum (List.map_congr_left hpresent)

/-- The table of the synthetic tree has one code, of one bit (R142, R144). -/
theorem kraft_of_synth {s : State} (h : s.treeSynth) {t : CodeTable} (ht : codesOf s.node s.root = some t) :
    t.kraft = 2 ^ 255 := by
  obtain ⟨-, -, -, ⟨c, f, h0, -⟩, -⟩ := id h
  rw [codesOf_synth h h0] at ht
  cases ht
  have hkraft := CodeTable.kraft_assign (xs := [(c, ⟨1, 0⟩)]) (List.nodup_singleton c) (by simp)
  exact hkraft.trans (by simp)

/-- A full tree is present, and not synthetic (R35). -/
theorem State.treeFull_flags {s : State} {n : Nat} (h : s.treeFull n) : s.root.present = true ∧ s.root.synth = false := by
  obtain ⟨-, -, hroot, -⟩ := h
  rw [hroot]
  exact ⟨rfl, rfl⟩

/-- The table of a full tree shares out the whole code space (R144). -/
theorem kraft_of_full {s : State} {n : Nat} (h : s.treeFull n) {t : CodeTable} (ht : codesOf s.node s.root = some t) :
    t.kraft = 2 ^ 256 := by
  have hroot := State.treeFull_root_toNat h
  obtain ⟨h2, h256, -⟩ := id h
  have hfuel : s.root.idx.toNat < arenaSize := by unfold arenaSize; omega
  obtain ⟨xs, hxs, hmem⟩ := visit_full h arenaSize hfuel (by omega) 0 0
  rw [codesOf, if_pos (State.treeFull_flags h).1, hxs] at ht
  cases ht
  rw [CodeTable.kraft_assign (visit_nodup h arenaSize (pre := []) rfl hfuel (by omega) hxs) fun c e he => ?present,
    visit_kraft h arenaSize hfuel (by omega) (by omega) (fun _ => by omega) (fun _ => by omega) hxs]
  case present =>
    obtain ⟨bs, ⟨q, f, hd, -⟩, rfl⟩ := (hmem c e).1 he
    have hbound := State.path_length_le h hd
    exact pathEntry_len_ne (by omega)

/-- Settles O27: the synthetic tree has one code of one bit, and a full tree's codes share out the whole code space. -/
theorem generatedCodesHaveKraftSum : Obligations.GeneratedCodesHaveKraftSum := by
  intro s t htree hp h
  obtain ⟨table, htable⟩ := codesOf_treeInv htree
  rw [exec_generate_next htable] at h
  cases h
  obtain ⟨hroot, -⟩ | hsynth | ⟨n, hfull⟩ := htree
  · rw [hroot] at hp; cases hp
  · rw [hsynth.1]
    exact kraft_of_synth hsynth htable
  · rw [(State.treeFull_flags hfull).2]
    exact kraft_of_full hfull htable

end Sys2Proof.Machine
end

section
/-! PROOF. The end of a command, said for every command (R202, R220 to R223, R91): lengths out of range, the status registers, what each
command leaves alone, and the cause of each error. -/

namespace Sys2Proof.Machine

/-! ### Lengths out of range (R221, R223) -/

/-- An IN_LEN beyond IN_MEM ends COUNT, ENCODE and STATS with LEN_RANGE (R110, R150, R190). -/
theorem exec_inLenRange {i : Instr} {s : State} (hi : i = .count ∨ i = .encode ∨ i = .stats)
    (h : s.params.maxIn < s.inLen.toNat) : exec i s = .next (s.raise .lenRange none) := by
  have hout : s.inLenOut = true := decide_eq_true h
  obtain rfl | rfl | rfl := hi
  · rw [exec, execCount, if_pos hout]
  · rw [exec, execEncode, if_pos hout]
  · rw [exec, execStats, hout, Bool.true_or, if_pos rfl]

/-- A BS_LEN beyond BS_MEM ends DECODE and STATS with LEN_RANGE (R170, R190). -/
theorem exec_bsLenRange {i : Instr} {s : State} (hi : i = .decode ∨ i = .stats)
    (h : 8 * s.params.bsBytes < s.bsLen.toNat) : exec i s = .next (s.raise .lenRange none) := by
  have hout : s.bsLenOut = true := decide_eq_true h
  obtain rfl | rfl := hi
  · simp only [exec, execDecode, hout, if_true]
  · rw [exec, execStats, hout, Bool.or_true, if_pos rfl]

/-- Settles O12: LEN_RANGE records no item, so only the completion fields of STATUS change. -/
theorem lengthOutOfRangeChangesNothing : Obligations.LengthOutOfRangeChangesNothing := by
  intro s
  refine ⟨fun h => ⟨?_, ?_, ?_⟩, fun h => ⟨?_, ?_⟩⟩
  · rw [exec_inLenRange (.inl rfl) h, State.raise_none]
  · rw [exec_inLenRange (.inr (.inl rfl)) h, State.raise_none]
  · rw [exec_inLenRange (.inr (.inr rfl)) h, State.raise_none]
  · rw [exec_bsLenRange (.inl rfl) h, State.raise_none]
  · rw [exec_bsLenRange (.inr rfl) h, State.raise_none]

/-! ### The status registers (R202, R222) -/

/-- The error that ends the encoding loop has a code (R221). -/
theorem encodeLoop_errCode_ne_none {s : State} {r : Encoded} {code : ErrCode} {info : ErrInfo}
    (h : encodeLoop s s.inLen.toNat 0 0 = .ok r) (herr : r.err = some (code, info)) : code ≠ .none := by
  obtain ⟨-, -, hcause⟩ := encodeLoop_bounds h (Nat.zero_le _)
  obtain ⟨j, c, -, -, -, -, ⟨rfl, -⟩ | ⟨rfl, -⟩⟩ := hcause code info herr <;> decide

/-- Settles O9: every end of a command is a completion or an error with its code. -/
theorem completionBookkeeping : Obligations.CompletionBookkeeping := by
  intro i s t h
  cases exec_effect h with
  | illegal | inLenRange | bsLenRange | decodeError => exact ⟨rfl, rfl, rfl, rfl, .inr ⟨rfl, by simp⟩⟩
  | encodeError r code info hlen hloop herr =>
    exact ⟨rfl, rfl, rfl, rfl, .inr ⟨rfl, encodeLoop_errCode_ne_none hloop herr⟩⟩
  | _ => exact ⟨rfl, rfl, rfl, rfl, .inl ⟨rfl, rfl, rfl, rfl⟩⟩

/-! ### What each command leaves alone (R27, R91) -/

section Frame

variable {i : Instr} {s t : State}

theorem exec_keeps_inputs (h : exec i s = .next t) :
    t.params = s.params ∧ t.ctrl = s.ctrl ∧ t.inLen = s.inLen ∧ t.inMem = s.inMem ∧ t.ramEra = s.ramEra ∧ t.env = s.env := by
  cases exec_effect h <;> exact ⟨rfl, rfl, rfl, rfl, rfl, rfl⟩

theorem exec_keeps_stream (h : exec i s = .next t) (hi : i ≠ .encode) : t.bsLen = s.bsLen ∧ t.bsMem = s.bsMem := by
  cases exec_effect h with
  | encode | encodeError => exact absurd rfl hi
  | _ => exact ⟨rfl, rfl⟩

theorem exec_keeps_unkCnt (h : exec i s = .next t) (hi : i ≠ .encode) (hc : i ≠ .clear) : t.unkCnt = s.unkCnt := by
  cases exec_effect h with
  | encode | encodeError => exact absurd rfl hi
  | clear => exact absurd rfl hc
  | _ => rfl

theorem exec_keeps_outMem (h : exec i s = .next t) (hi : i ≠ .decode) : t.outMem = s.outMem := by
  cases exec_effect h with
  | decodeAbsent | decodeSynth | decode | decodeError => exact absurd rfl hi
  | _ => rfl

theorem exec_keeps_outLen (h : exec i s = .next t) (hi : i ≠ .decode) (hc : i ≠ .clear) :
    t.outLen = s.outLen ∧ t.trailBits = s.trailBits := by
  cases exec_effect h with
  | decodeAbsent | decodeSynth | decode | decodeError => exact absurd rfl hi
  | clear => exact absurd rfl hc
  | _ => exact ⟨rfl, rfl⟩

theorem exec_keeps_tree (h : exec i s = .next t) (hi : i ≠ .build) (hc : i ≠ .clear) :
    t.node = s.node ∧ t.root = s.root ∧ t.nsym = s.nsym ∧ t.nodeCnt = s.nodeCnt := by
  cases exec_effect h with
  | build => exact absurd rfl hi
  | clear => exact absurd rfl hc
  | _ => exact ⟨rfl, rfl, rfl, rfl⟩

theorem exec_keeps_hist (h : exec i s = .next t) (hi : i ≠ .count) (hc : i ≠ .clear) : t.hist = s.hist := by
  cases exec_effect h with
  | count => exact absurd rfl hi
  | clear => exact absurd rfl hc
  | _ => rfl

theorem exec_keeps_code (h : exec i s = .next t) (hi : i ≠ .generate) (hc : i ≠ .clear) : t.code = s.code := by
  cases exec_effect h with
  | generate => exact absurd rfl hi
  | clear => exact absurd rfl hc
  | _ => rfl

theorem exec_keeps_stats (h : exec i s = .next t) (hi : i ≠ .stats) (hc : i ≠ .clear) :
    t.statOrig = s.statOrig ∧ t.statEnc = s.statEnc ∧ t.statSave = s.statSave ∧ t.statPct = s.statPct := by
  cases exec_effect h with
  | stats => exact absurd rfl hi
  | clear => exact absurd rfl hc
  | _ => exact ⟨rfl, rfl, rfl, rfl⟩

/-- ENCODE ends with LEN_RANGE and no output, or leaves a stream within BS_MEM, packed, and counts within IN_LEN (R150, R153). -/
theorem exec_encode_outputs (h : exec .encode s = .next t) :
    (t.bsMem = s.bsMem ∧ t.bsLen = s.bsLen ∧ t.unkCnt = s.unkCnt) ∨
    ∃ (bits : List Bool) (unk : Nat), bits.length ≤ 8 * s.params.bsBytes ∧ unk ≤ s.params.maxIn ∧
      t.bsMem = s.bsMem.writeBytes 0 (packBits bits) ∧ t.bsLen = BitVec.ofNat 32 bits.length ∧
      t.unkCnt = BitVec.ofNat 32 unk := by
  cases exec_effect h with
  | inLenRange | bsLenRange => exact .inl ⟨rfl, rfl, rfl⟩
  | encode r hlen hloop | encodeError r _ _ hlen hloop =>
    obtain ⟨hbits, hunk, -⟩ := encodeLoop_bounds hloop (Nat.zero_le _)
    exact .inr ⟨r.bits, r.unk, by rwa [Nat.zero_add] at hbits, hunk.trans hlen, rfl, rfl, rfl⟩

/-- DECODE ends with LEN_RANGE and no output, or leaves at most a symbol a bit and at most all bits over (R170, R171). -/
theorem exec_decode_outputs (h : exec .decode s = .next t) :
    (8 * s.params.bsBytes < s.bsLen.toNat ∧ t.outMem = s.outMem ∧ t.outLen = s.outLen ∧ t.trailBits = s.trailBits) ∨
    ∃ (syms : List Byte) (trail : Nat), s.bsLen.toNat ≤ 8 * s.params.bsBytes ∧ syms.length ≤ s.bsLen.toNat ∧
      trail ≤ s.bsLen.toNat ∧ t.outMem = s.outMem.writeBytes 0 syms ∧ t.outLen = BitVec.ofNat 32 syms.length ∧
      t.trailBits = BitVec.ofNat 32 trail := by
  cases exec_effect h with
  | inLenRange _ hi => obtain hi | hi | hi := hi <;> cases hi
  | bsLenRange _ _ hlen => exact .inl ⟨hlen, rfl, rfl, rfl⟩
  | decodeAbsent hlen => exact .inr ⟨[], _, hlen, Nat.zero_le _, Nat.le_refl _, rfl, rfl, rfl⟩
  | decodeSynth hlen => exact .inr ⟨_, 0, hlen, (List.length_replicate ..).le, Nat.zero_le _, rfl, rfl, rfl⟩
  | decode r hlen _ _ hloop | decodeError r hlen _ _ hloop =>
    exact .inr ⟨r.syms, _, hlen, (decodeLoop_bounds hloop (Nat.zero_le _)).1, Nat.sub_le _ _, rfl, rfl, rfl⟩

/-- ENCODE leaves the bytes of BS_MEM past its stream (R153). -/
theorem exec_encode_keeps_past (hok : s.params.ok) (h : exec .encode s = .next t) {j : Nat}
    (hj : (t.bsLen.toNat + 7) / 8 ≤ j) : t.bsMem.read j = s.bsMem.read j := by
  obtain ⟨-, -, -, -, hBs, -⟩ := hok
  obtain ⟨hmem, -⟩ | ⟨bits, unk, hbits, -, hmem, hlen, -⟩ := exec_encode_outputs h
  · rw [hmem]
  · rw [hlen, BitVec.toNat_ofNat, Nat.mod_eq_of_lt (by omega)] at hj
    rw [hmem, Memory.read_writeBytes_outside (.inr (by rwa [length_packBits, Nat.zero_add]))]

/-- DECODE leaves the bytes of OUT_MEM past its symbols (R43). -/
theorem exec_decode_keeps_past (h : exec .decode s = .next t) {j : Nat}
    (hj : t.outLen.toNat ≤ j) : t.outMem.read j = s.outMem.read j := by
  obtain ⟨-, hmem, -⟩ | ⟨syms, trail, -, hsyms, -, hmem, hlen, -⟩ := exec_decode_outputs h
  · rw [hmem]
  · have hbs := s.bsLen.isLt
    rw [hlen, BitVec.toNat_ofNat, Nat.mod_eq_of_lt (by omega)] at hj
    rw [hmem, Memory.read_writeBytes_outside (.inr (by rwa [Nat.zero_add]))]

end Frame

/-- Settles O10: the frame of each output, one after the other. -/
theorem commandsWriteOnlyTheirOutputs : Obligations.CommandsWriteOnlyTheirOutputs := fun _ _ _ h =>
  ⟨exec_keeps_inputs h, exec_keeps_stream h, exec_keeps_unkCnt h, exec_keeps_outMem h, exec_keeps_outLen h,
    exec_keeps_tree h, exec_keeps_hist h, exec_keeps_code h, exec_keeps_stats h, fun hok =>
    ⟨fun hi _ hj => exec_encode_keeps_past hok (hi ▸ h) hj, fun hi _ hj => exec_decode_keeps_past (hi ▸ h) hj⟩⟩

/-! ### The cause of each error (R221, R222) -/

/-- An error of the encoding loop has its cause at a symbol that the loop reads, which it records with its position (R222). -/
theorem encodeError_cause {s : State} {r : Encoded} {code : ErrCode} {info : ErrInfo}
    (h : encodeLoop s s.inLen.toNat 0 0 = .ok r) (herr : r.err = some (code, info)) :
    info.pos.toNat < s.inLen.toNat ∧ s.inMem.read info.pos.toNat = some info.sym ∧
    ((code = .unknownSymbol ∧ s.ctrl.strictEnc = true ∧ (s.code.at info.sym).len = 0) ∨
      (code = .bsOverflow ∧ s.params.bsBits < r.bits.length + (s.code.at info.sym).len.toNat)) := by
  obtain ⟨-, -, hcause⟩ := encodeLoop_bounds h (Nat.zero_le _)
  obtain ⟨j, c, -, hj, hread, rfl, hcode⟩ := hcause code info herr
  have hlt := s.inLen.isLt
  have hpos : (BitVec.ofNat 32 j).toNat = j := Nat.mod_eq_of_lt (by omega)
  refine ⟨by simp only [hpos]; omega, by simp only [hpos, hread], ?_⟩
  rwa [Nat.zero_add] at hcode

/-- A whole stream that the decoding loop has walked is whole codes and the beginning of one more, which starts where the loop says
(R174). -/
theorem decodeLoop_stream_paths {s : State} {n : Nat} (h : s.treeFull n) {r : Decoded}
    (hloop : decodeLoop s s.root.idx s.bsLen.toNat 0 s.root.idx 0 = .ok r) :
    ∃ (codes : List (Byte × List Bool)) (tail : List Bool),
      (∀ p ∈ codes, s.node.leafPath s.root.idx p.1 p.2) ∧ s.node.partialPath s.root.idx tail ∧
      s.streamIs (codes.flatMap Prod.snd ++ tail) ∧ r.start = (codes.flatMap Prod.snd).length ∧
      r.start + tail.length = s.bsLen.toNat := by
  have hr := State.treeFull_root h
  obtain ⟨codes, tail, hcodes, -, htail, hstart, hend, hbits⟩ :=
    decodeLoop_paths (State.treeFull_walks h) hr (pre := []) rfl hr rfl (by simp) hloop
  rw [Nat.zero_add] at hstart
  replace hend : r.start + tail.length = s.bsLen.toNat := hend.trans (Nat.zero_add _)
  refine ⟨codes, tail, hcodes, htail, ⟨?_, by simpa using hbits⟩, hstart, hend⟩
  rw [List.length_append]
  omega

/-- What DECODE_MALFORMED records and leaves over (R174, R222, R223). -/
theorem decodeMalformed_cause {s : State} {r : Decoded} (hs : s.root.synth = false) (hp : s.root.present = true)
    (hloop : decodeLoop s s.root.idx s.bsLen.toNat 0 s.root.idx 0 = .ok r) (hend : r.start < s.bsLen.toNat) :
    (BitVec.ofNat 32 r.start).toNat < s.bsLen.toNat ∧
    (BitVec.ofNat 32 r.start).toNat + (BitVec.ofNat 32 (s.bsLen.toNat - r.start)).toNat = s.bsLen.toNat ∧
    (s.treeInv → ∃ (codes : List (Byte × List Bool)) (tail : List Bool),
      (∀ p ∈ codes, s.node.leafPath s.root.idx p.1 p.2) ∧ tail ≠ [] ∧ s.node.partialPath s.root.idx tail ∧
      s.streamIs (codes.flatMap Prod.snd ++ tail) ∧
      (BitVec.ofNat 32 r.start).toNat = (codes.flatMap Prod.snd).length) := by
  have hlt := s.bsLen.isLt
  have hpos : (BitVec.ofNat 32 r.start).toNat = r.start := Nat.mod_eq_of_lt (by omega)
  have htrail : (BitVec.ofNat 32 (s.bsLen.toNat - r.start)).toNat = s.bsLen.toNat - r.start := Nat.mod_eq_of_lt (by omega)
  rw [hpos, htrail]
  refine ⟨hend, by omega, fun htree => ?_⟩
  obtain ⟨n, hfull⟩ := State.treeInv_full htree hp hs
  obtain ⟨codes, tail, hcodes, htail, hstream, hstart, hall⟩ := decodeLoop_stream_paths hfull hloop
  exact ⟨codes, tail, hcodes, List.ne_nil_of_length_pos (by omega), htail, hstream, hstart⟩

/-- Settles O11: the ends of a command one by one. -/
theorem errorsHaveTheirCauses : Obligations.ErrorsHaveTheirCauses := by
  refine ⟨fun i s t hok hcode hpos hsym h => ?_, rfl, rfl, rfl, rfl, rfl, rfl⟩
  generalize hend : t.status.errCode = code
  cases exec_effect h with
  | illegal opc rsvd => subst hend; exact ⟨⟨opc, rsvd, rfl⟩, hpos, hsym⟩
  | inLenRange i hi hlen => subst hend; exact ⟨.inl ⟨hi, hlen⟩, hpos, hsym⟩
  | bsLenRange i hi hlen => subst hend; exact ⟨.inr ⟨hi, hlen⟩, hpos, hsym⟩
  | encodeError r code info hlen hloop herr =>
    subst hend
    obtain ⟨hlt, hread, ⟨rfl, hstrict, hunknown⟩ | ⟨rfl, hover⟩⟩ := encodeError_cause hloop herr
    · exact ⟨rfl, hstrict, hlt, hread, hunknown⟩
    · have hbits := (encodeLoop_bounds hloop (Nat.zero_le _)).1
      obtain ⟨-, -, -, -, hBs, -⟩ := hok
      have hbsLen : (BitVec.ofNat 32 r.bits.length).toNat = r.bits.length :=
        Nat.mod_eq_of_lt (by unfold Params.bsBits at hbits; omega)
      refine ⟨rfl, hlt, hread, ?_⟩
      show 8 * s.params.bsBytes < (BitVec.ofNat 32 r.bits.length).toNat + _
      rwa [hbsLen]
  | decodeError r hlen hp hs hloop hleft hstrict =>
    subst hend
    exact ⟨rfl, hstrict, hp, hs, rfl, decodeMalformed_cause hs hp hloop hleft⟩
  | _ =>
    obtain rfl : code = .none := hend.symm.trans hcode
    exact ⟨hpos, hsym⟩

end Sys2Proof.Machine
end

section
/-! PROOF. What the commands read: COUNT, ENCODE and DECODE fault at a byte that nothing has written (R70), and every command is a
function of its operands (R6, R91). -/

namespace Sys2Proof.Machine

/-! ### Unwritten bytes (R70) -/

/-- COUNT faults at the first unwritten byte of an input within IN_MEM (R70 (a)). -/
theorem exec_count_unwritten {s : State} {xs : List Byte} (hin : s.inputBegins xs) (hlt : xs.length < s.inLen.toNat)
    (hlen : s.inLen.toNat ≤ s.params.maxIn) (hnone : s.inMem.read xs.length = none) :
    exec .count s = .fault (.uninitRead .inMem xs.length) := by
  refine exec_count_fault hlen ?_
  obtain ⟨m, hm⟩ : ∃ m, s.inLen.toNat = xs.length + (m + 1) := ⟨s.inLen.toNat - xs.length - 1, by omega⟩
  rw [hm, countLoop_run s xs (m + 1) 0 _ (by simpa using hin.2), Nat.zero_add, countLoop, State.inSymbol, hnone]

/-- ENCODE faults at the first unwritten byte of an input within IN_MEM, unless an error ends it before (R70 (a)). -/
theorem exec_encode_unwritten {s : State} {xs : List Byte} (hin : s.inputBegins xs) (hlt : xs.length < s.inLen.toNat)
    (hlen : s.inLen.toNat ≤ s.params.maxIn) (hnone : s.inMem.read xs.length = none)
    (hknown : s.ctrl.strictEnc = true → ∀ x ∈ xs, s.unknown x = false)
    (hfit : (s.codesOf xs).length ≤ 8 * s.params.bsBytes) :
    exec .encode s = .fault (.uninitRead .inMem xs.length) := by
  refine exec_encode_fault hlen ?_
  obtain ⟨m, hm⟩ : ∃ m, s.inLen.toNat = xs.length + (m + 1) := ⟨s.inLen.toNat - xs.length - 1, by omega⟩
  rw [hm, encodeLoop_run s xs (m + 1) 0 0 (by simpa using hin.2) hknown (by rwa [Nat.zero_add]), Nat.zero_add,
    encodeLoop, State.inSymbol, hnone]
  rfl

/-- DECODE, where it walks a tree, faults at the byte of the first bit that nothing has written (R70 (a)). -/
theorem exec_decode_unwritten {s : State} {bs : List Bool} (htree : s.treeInv) (hp : s.root.present = true)
    (hs : s.root.synth = false) (hlt : bs.length < s.bsLen.toNat) (hlen : s.bsLen.toNat ≤ 8 * s.params.bsBytes)
    (hbits : ∀ k (h : k < bs.length), s.bit k = some bs[k]) (hnone : s.bit bs.length = none) :
    exec .decode s = .fault (.uninitRead .bsMem (bs.length / 8)) := by
  refine exec_decode_fault hlen hp hs ?_
  obtain ⟨n, hfull⟩ := State.treeInv_full htree hp hs
  have hroot := State.treeFull_root hfull
  obtain ⟨m, hm⟩ : ∃ m, s.bsLen.toNat = bs.length + (m + 1) := ⟨s.bsLen.toNat - bs.length - 1, by omega⟩
  obtain ⟨p, start, syms, -, -, -, hrun⟩ :=
    decodeLoop_run (State.treeFull_walks hfull) hroot bs hroot (Nat.le_refl 0) (m + 1) (by simpa using hbits)
  rw [hm, hrun, Nat.zero_add, decodeLoop, State.streamBit_of_none hnone]
  rfl

/-- Settles O16: each command's loop runs through what is written and reads the byte behind it. -/
theorem unwrittenByteFaults : Obligations.UnwrittenByteFaults := fun _ =>
  ⟨fun _ hin hlt hlen hnone => ⟨exec_count_unwritten hin hlt hlen hnone, exec_encode_unwritten hin hlt hlen hnone⟩,
    fun _ htree hp hs hlt hlen hbits hnone => exec_decode_unwritten htree hp hs hlt hlen hbits hnone⟩

/-! ### Operands (R6, R91) -/

/-- Two states show the same error, or neither shows one (R26, R222). -/
def State.sameError (s s' : State) : Prop :=
  s.status.err = s'.status.err ∧ s.status.errCode = s'.status.errCode ∧ s.errPos = s'.errPos ∧ s.errSym = s'.errSym

/-- Two ends of a command, the first from state `s`, show the same error and, unless it is LEN_RANGE, hold the same outputs (R91). -/
def sameEnd (i : Instr) (s t t' : State) : Prop :=
  t.sameError t' ∧ (s.params.ok → t.status.errCode ≠ .lenRange → sameOutputs i t t')

/-- The same error taken in two states of the same error gives two of the same error again (R222). -/
theorem State.sameError.raise {s s' : State} (h : s.sameError s') (code : ErrCode) (info : Option ErrInfo) :
    (s.raise code info).sameError (s'.raise code info) := by
  obtain ⟨-, -, hpos, hsym⟩ := h
  exact ⟨rfl, rfl, by rw [State.raise_errPos, State.raise_errPos, hpos],
    by rw [State.raise_errSym, State.raise_errSym, hsym]⟩

/-- After LEN_RANGE nothing is said of the outputs. -/
theorem sameEnd_lenRange {i : Instr} {s s' : State} (h : s.sameError s') :
    sameEnd i s (s.raise .lenRange none) (s'.raise .lenRange none) :=
  ⟨h.raise .lenRange none, fun _ hne => absurd rfl hne⟩

/-- Bytes written from index 0 up read the same whatever memory they are written to. -/
theorem Memory.read_writeBytes_zero_congr (m m' : Memory) {bs : List Byte} {j : Nat} (h : j < bs.length) :
    (m.writeBytes 0 bs).read j = (m'.writeBytes 0 bs).read j := by
  rw [Memory.read_writeBytes_zero h, Memory.read_writeBytes_zero h]

/-- The stream that ENCODE leaves is the same whatever BS_MEM held. -/
theorem read_packBits_congr (m m' : Memory) {p : Params} {bits : List Bool} (hok : p.ok) (hfit : bits.length ≤ p.bsBits)
    {j : Nat} (hj : j < ((BitVec.ofNat 32 bits.length).toNat + 7) / 8) :
    (m.writeBytes 0 (packBits bits)).read j = (m'.writeBytes 0 (packBits bits)).read j := by
  obtain ⟨-, -, -, -, hBs, -⟩ := hok
  unfold Params.bsBits at hfit
  rw [BitVec.toNat_ofNat, Nat.mod_eq_of_lt (by omega), ← length_packBits] at hj
  exact Memory.read_writeBytes_zero_congr m m' hj

/-- The symbols that DECODE leaves are the same whatever OUT_MEM held. -/
theorem read_output_congr (m m' : Memory) {syms : List Byte} {j : Nat} (hj : j < (BitVec.ofNat 32 syms.length).toNat) :
    (m.writeBytes 0 syms).read j = (m'.writeBytes 0 syms).read j := by
  rw [BitVec.toNat_ofNat] at hj
  exact Memory.read_writeBytes_zero_congr m m' (hj.trans_le (Nat.mod_le _ _))

/-- A command that completes from one state completes alike from another of the same operands and the same error. -/
theorem exec_next_of_sameOperands {i : Instr} {s s' t : State} (ho : sameOperands i s s') (he : s.sameError s')
    (h : exec i s = .next t) : ∃ t', exec i s' = .next t' ∧ sameEnd i s t t' := by
  cases exec_effect h with
  | nop => exact ⟨_, exec_nop s', he, fun _ _ => trivial⟩
  | clear =>
    exact ⟨_, exec_clear s', he, fun _ _ => ⟨rfl, rfl, rfl, rfl, rfl, rfl, rfl, rfl, rfl, rfl, rfl, rfl, rfl⟩⟩
  | illegal opc rsvd => exact ⟨_, exec_illegal opc rsvd s', he.raise _ _, fun _ _ => trivial⟩
  | inLenRange i hi hlen =>
    have hlen' : s'.params.maxIn < s'.inLen.toNat := by
      obtain rfl | rfl | rfl := hi <;> (obtain ⟨hp, hl, -⟩ := ho; rwa [← hp, ← hl])
    exact ⟨_, exec_inLenRange hi hlen', sameEnd_lenRange he⟩
  | bsLenRange i hi hlen =>
    have hlen' : 8 * s'.params.bsBytes < s'.bsLen.toNat := by
      obtain rfl | rfl := hi
      · obtain ⟨hp, hl, -⟩ := ho; rwa [← hp, ← hl]
      · obtain ⟨hp, -, hl⟩ := ho; rwa [← hp, ← hl]
    exact ⟨_, exec_bsLenRange hi hlen', sameEnd_lenRange he⟩
  | count hist hlen hloop =>
    obtain ⟨hp, hl, hm⟩ := ho
    rw [countLoop_congr hm, hl] at hloop
    exact ⟨_, exec_count_next (by rwa [← hp, ← hl]) hloop, he, fun _ _ => rfl⟩
  | build =>
    have htree := congrArg buildTree (show s.hist = s'.hist from ho)
    exact ⟨_, exec_build_next s', he, fun _ _ =>
      ⟨congrArg Tree.node htree, congrArg Tree.root htree, congrArg Tree.nsym htree, congrArg Tree.nodeCnt htree⟩⟩
  | generate table htable =>
    obtain ⟨hr, hn⟩ := ho
    rw [hr, hn] at htable
    exact ⟨_, exec_generate_next htable, he, fun _ _ => rfl⟩
  | encode r hlen hloop herr =>
    have hfit := (encodeLoop_bounds hloop (Nat.zero_le _)).1
    obtain ⟨hp, hl, hm, hc, hs⟩ := ho
    rw [encodeLoop_congr hp hm hc hs, hl] at hloop
    exact ⟨_, exec_encode_next (by rwa [← hp, ← hl]) hloop herr, he, fun hok _ =>
      ⟨rfl, rfl, fun j hj => read_packBits_congr _ _ hok (by rwa [Nat.zero_add] at hfit) hj⟩⟩
  | encodeError r code info hlen hloop herr =>
    have hfit := (encodeLoop_bounds hloop (Nat.zero_le _)).1
    obtain ⟨hp, hl, hm, hc, hs⟩ := ho
    rw [encodeLoop_congr hp hm hc hs, hl] at hloop
    exact ⟨_, exec_encode_error (by rwa [← hp, ← hl]) hloop herr,
      State.sameError.raise (s := s.withStream r) (s' := s'.withStream r) he _ _, fun hok _ =>
      ⟨rfl, rfl, fun j hj => read_packBits_congr _ _ hok (by rwa [Nat.zero_add] at hfit) hj⟩⟩
  | decodeAbsent hlen hpres =>
    obtain ⟨hp, hl, -, hr, -⟩ := ho
    rw [hl]
    exact ⟨_, exec_decode_absent (by rwa [← hp, ← hl]) (by rwa [← hr]), he, fun _ _ =>
      ⟨rfl, rfl, fun j hj => read_output_congr _ _ hj⟩⟩
  | decodeSynth hlen hpres hsynth =>
    obtain ⟨hp, hl, -, hr, hn, -⟩ := ho
    rw [hl, hr, hn]
    exact ⟨_, exec_decode_synth (by rwa [← hp, ← hl]) (by rwa [← hr]) (by rwa [← hr]), he, fun _ _ =>
      ⟨rfl, rfl, fun j hj => read_output_congr _ _ hj⟩⟩
  | decode r hlen hpres hsynth hloop hend =>
    obtain ⟨hp, hl, hm, hr, hn, hs⟩ := ho
    rw [decodeLoop_congr hm hn, hr, hl] at hloop
    rw [hl, hs] at hend
    rw [hl]
    exact ⟨_, exec_decode_next (by rwa [← hp, ← hl]) (by rwa [← hr]) (by rwa [← hr]) hloop hend, he, fun _ _ =>
      ⟨rfl, rfl, fun j hj => read_output_congr _ _ hj⟩⟩
  | decodeError r hlen hpres hsynth hloop hend hstrict =>
    obtain ⟨hp, hl, hm, hr, hn, hs⟩ := ho
    rw [decodeLoop_congr hm hn, hr, hl] at hloop
    rw [hl] at hend ⊢
    exact ⟨_, exec_decode_error (by rwa [← hp, ← hl]) (by rwa [← hr]) (by rwa [← hr]) hloop hend (by rwa [← hs]),
      State.sameError.raise (s := s.withOutput r.syms _) (s' := s'.withOutput r.syms _) he _ _, fun _ _ =>
      ⟨rfl, rfl, fun j hj => read_output_congr _ _ hj⟩⟩
  | stats hin hbs =>
    obtain ⟨hp, hl, hb⟩ := ho
    exact ⟨_, exec_stats_next (by rwa [← hp, ← hl]) (by rwa [← hp, ← hb]), he, fun _ _ => by
      simp [sameOutputs, State.savings, hl, hb]⟩

/-- A command that faults at one state faults alike at another of the same operands. -/
theorem exec_fault_of_sameOperands {i : Instr} {s s' : State} {f : Fault} (ho : sameOperands i s s')
    (h : exec i s = .fault f) : exec i s' = .fault f := by
  have hnext : ∀ t, exec i s ≠ .next t := fun t ht => by rw [h] at ht; cases ht
  obtain ⟨rfl, hloop⟩ | ⟨rfl, hloop⟩ | ⟨rfl, hpres, hsynth, hloop⟩ | ⟨rfl, hnone, rfl⟩ := exec_fault h
  · have hlen := Nat.le_of_not_lt fun hlt => hnext _ (exec_inLenRange (.inl rfl) hlt)
    obtain ⟨hp, hl, hm⟩ := ho
    rw [countLoop_congr hm, hl] at hloop
    exact exec_count_fault (by rwa [← hp, ← hl]) hloop
  · have hlen := Nat.le_of_not_lt fun hlt => hnext _ (exec_inLenRange (.inr (.inl rfl)) hlt)
    obtain ⟨hp, hl, hm, hc, hs⟩ := ho
    rw [encodeLoop_congr hp hm hc hs, hl] at hloop
    exact exec_encode_fault (by rwa [← hp, ← hl]) hloop
  · have hlen := Nat.le_of_not_lt fun hlt => hnext _ (exec_bsLenRange (.inl rfl) hlt)
    obtain ⟨hp, hl, hm, hr, hn, -⟩ := ho
    rw [decodeLoop_congr hm hn, hr, hl] at hloop
    exact exec_decode_fault (by rwa [← hp, ← hl]) (by rwa [← hr]) (by rwa [← hr]) hloop
  · obtain ⟨hr, hn⟩ := ho
    rw [hr, hn] at hnone
    rw [exec, execGenerate, hnone]

/-- The issue of a word leaves the operands of every command as they are (R200). -/
theorem sameOperands_issue {i : Instr} {s s' : State} (h : sameOperands i s s') (w : Word) :
    sameOperands i (s.issue w) (s'.issue w) := by
  cases i <;> exact h

/-- Settles O37: two states in which a word was just issued show no error, so equal operands give equal ends. -/
theorem commandsReadOnlyTheirOperands : Obligations.CommandsReadOnlyTheirOperands := by
  intro i s s' w ho
  have ho' := sameOperands_issue ho w
  refine ⟨fun t h => ?_, fun f h => exec_fault_of_sameOperands ho' h, exec_not_refused i _⟩
  obtain ⟨t', h', ⟨herr, hcode, hpos, hsym⟩, hout⟩ := exec_next_of_sameOperands ho' ⟨rfl, rfl, rfl, rfl⟩ h
  exact ⟨t', h', herr, hcode, hpos, hsym, hout⟩

end Sys2Proof.Machine
end

section
/-! PROOF. The ends of ENCODE with an error (R150, R221), DECODE on every kind of tree (R170 to R173), and the five commands one after
the other (R176). -/

namespace Sys2Proof.Machine

/-! ### The ends of ENCODE with an error (R150, R152, R153) -/

/-- An input that begins with some symbols and one more: the first ones, the one more, and what is left of IN_LEN. -/
theorem State.inputBegins_snoc {s : State} {xs : List Byte} {c : Byte} (h : s.inputBegins (xs ++ [c])) :
    (∀ k (hk : k < xs.length), s.inMem.read k = some xs[k]) ∧ s.inMem.read xs.length = some c ∧
      ∃ m, s.inLen.toNat = xs.length + (m + 1) := by
  obtain ⟨hlen, hread⟩ := h
  rw [List.length_append, List.length_singleton] at hlen
  refine ⟨fun k hk => ?first, ?last, s.inLen.toNat - xs.length - 1, by omega⟩
  case first => rw [hread k (by rw [List.length_append]; omega), List.getElem_append_left hk]
  case last => simpa using hread xs.length (by simp)

/-- In strict mode the loop ends at an unknown symbol (R152). -/
theorem encodeLoop_unknown {s : State} {c : Byte} {i : Nat} (hread : s.inMem.read i = some c) (hc : s.unknown c = true)
    (hstrict : s.ctrl.strictEnc = true) (m pos : Nat) :
    encodeLoop s (m + 1) i pos = .ok ⟨[], 0, some (.unknownSymbol, ⟨BitVec.ofNat 32 i, c⟩)⟩ := by
  have hlen : (s.code.at c).len = 0 := of_decide_eq_true hc
  simp only [encodeLoop, State.inSymbol, hread, hlen, hstrict, if_true]

/-- The loop ends at a known symbol whose code passes the end of BS_MEM (R150). -/
theorem encodeLoop_overflow {s : State} {c : Byte} {i pos : Nat} (hread : s.inMem.read i = some c)
    (hc : s.unknown c = false) (hover : s.params.bsBits < pos + (s.codeOf c).length) (m : Nat) :
    encodeLoop s (m + 1) i pos = .ok ⟨[], 0, some (.bsOverflow, ⟨BitVec.ofNat 32 i, c⟩)⟩ := by
  have hlen : ¬ (s.code.at c).len = 0 := of_decide_eq_false hc
  rw [State.codeOf, CodeEntry.length_bits] at hover
  simp only [encodeLoop, State.inSymbol, hread, hlen, hover, if_false, if_true]

/-- A loop that comes through some symbols and ends with an error at the next leaves their codes and the error (R150, R222). -/
theorem encodeLoop_stops {s : State} {xs : List Byte} {c : Byte} {code : ErrCode} (hin : s.inputBegins (xs ++ [c]))
    (hknown : s.ctrl.strictEnc = true → ∀ x ∈ xs, s.unknown x = false) (hfit : (s.codesOf xs).length ≤ s.params.bsBits)
    (hstop : ∀ m, encodeLoop s (m + 1) xs.length (s.codesOf xs).length =
      .ok ⟨[], 0, some (code, ⟨BitVec.ofNat 32 xs.length, c⟩)⟩) :
    encodeLoop s s.inLen.toNat 0 0 =
      .ok ⟨s.codesOf xs, (xs.filter s.unknown).length, some (code, ⟨BitVec.ofNat 32 xs.length, c⟩)⟩ := by
  obtain ⟨hread, -, m, hm⟩ := State.inputBegins_snoc hin
  rw [hm, encodeLoop_run s xs (m + 1) 0 0 (by simpa using hread) hknown (by rwa [Nat.zero_add]), Nat.zero_add,
    Nat.zero_add, hstop]
  simp [Except.map, Encoded.after]

/-- Settles O29: the loop comes through the known symbols and ends at the unknown one, none having been skipped. -/
theorem encodeStrictStopsAtUnknownSymbol : Obligations.EncodeStrictStopsAtUnknownSymbol := by
  intro s xs c _ hin hlen hstrict hknown hc hfit
  obtain ⟨-, hread, -⟩ := State.inputBegins_snoc hin
  have hloop := encodeLoop_stops hin (fun _ => hknown) hfit fun m => encodeLoop_unknown hread hc hstrict m _
  have hnone : xs.filter s.unknown = [] := List.filter_eq_nil_iff.2 fun x hx => by simp [hknown x hx]
  rw [hnone] at hloop
  exact ⟨_, exec_encode_error hlen hloop rfl, rfl, storesStream_of_packBits rfl⟩

/-- Settles O30: the loop comes through the symbols that fit and ends at the one that does not. -/
theorem encodeStopsAtOverflow : Obligations.EncodeStopsAtOverflow := by
  intro s xs c _ hin hlen hknown hc hfit hover
  obtain ⟨-, hread, -⟩ := State.inputBegins_snoc hin
  have hloop := encodeLoop_stops hin hknown hfit fun m => encodeLoop_overflow hread hc hover m
  exact ⟨_, exec_encode_error hlen hloop rfl, rfl, storesStream_of_packBits rfl⟩

/-! ### DECODE on every kind of tree (R170 to R173) -/

/-- Settles O34: no symbol is written, and every bit is left over. -/
theorem decodeOfAbsentTree : Obligations.DecodeOfAbsentTree := by
  intro s hp hlen
  have hout : s.withOutput [] s.bsLen.toNat = { s with outLen := 0, trailBits := s.bsLen } := by
    simp [State.withOutput]
  rw [exec_decode_absent hlen hp, hout]
  rfl

/-- One symbol for every bit of the stream, and no bit left over. -/
theorem State.withOutput_replicate (s : State) (c : Byte) :
    s.withOutput (List.replicate s.bsLen.toNat c) 0 =
      { s with
        outMem := s.outMem.writeBytes 0 (List.replicate s.bsLen.toNat c)
        outLen := s.bsLen
        trailBits := 0 } := by
  simp [State.withOutput]

/-- Settles O33: the root's one child is the leaf, whose symbol is written once for every bit. -/
theorem decodeOfSyntheticTree : Obligations.DecodeOfSyntheticTree := by
  intro s c f _ hsynth h0 hlen
  obtain ⟨hroot, -, -, ⟨c', f', -, h1⟩, -⟩ := hsynth
  have hsym : (s.node.at (s.node.at s.root.idx).left).sym = c := by rw [hroot, h1, Node.left, h0, Node.sym]
  have hdec := exec_decode_synth hlen (by rw [hroot]) (by rw [hroot])
  rw [hsym, s.withOutput_replicate c] at hdec
  exact ⟨_, _, hdec, rfl, rfl, storesOutput_of_writeBytes rfl⟩

/-- DECODE completes on every written stream within BS_MEM, where the tree keeps R35. -/
theorem exec_decode_completes {s : State} {bs : List Bool} (htree : s.treeInv) (hstream : s.streamIs bs)
    (hlen : s.bsLen.toNat ≤ 8 * s.params.bsBytes) : ∃ t, exec .decode s = .next t := by
  obtain ⟨hroot, -⟩ | ⟨hroot, -⟩ | ⟨n, hfull⟩ := htree
  · exact ⟨_, exec_decode_absent hlen (by rw [hroot])⟩
  · exact ⟨_, exec_decode_synth hlen (by rw [hroot]) (by rw [hroot])⟩
  · have hr := State.treeFull_root hfull
    obtain ⟨hp, hs⟩ := State.treeFull_flags hfull
    obtain ⟨p, start, syms, -, -, -, hrun⟩ :=
      decodeLoop_run (State.treeFull_walks hfull) hr bs hr (Nat.le_refl 0) 0 (by simpa using hstream.2)
    rw [Nat.add_zero, ← hstream.1, decodeLoop] at hrun
    by_cases hend : start < s.bsLen.toNat → s.ctrl.strictDec = false
    · exact ⟨_, exec_decode_next hlen hp hs hrun hend⟩
    · obtain ⟨hlt, hstrict⟩ := Classical.not_imp.1 hend
      exact ⟨_, exec_decode_error hlen hp hs hrun hlt (by simpa using hstrict)⟩

/-- Settles O32: DECODE completes, and OUT_LEN counts no more symbols than bits, of which OUT_MEM holds as many (R8). -/
theorem decodeCompletesOnEveryStream : Obligations.DecodeCompletesOnEveryStream := by
  intro s bs hok htree hstream hfit
  have hbs := hstream.1
  obtain ⟨t, ht⟩ := exec_decode_completes htree hstream (hbs ▸ hfit)
  obtain ⟨hout, -⟩ | ⟨syms, trail, -, hsyms, -, -, hlen, -⟩ := exec_decode_outputs ht
  · omega
  · obtain ⟨-, -, -, -, -, -, hMax, -⟩ := hok
    have hle : t.outLen.toNat ≤ bs.length := by
      rw [hlen, BitVec.toNat_ofNat]
      exact (Nat.mod_le _ _).trans (hbs ▸ hsyms)
    exact ⟨t, ht, hle, by omega⟩

/-! ### The five commands one after the other (R176) -/

/-- A path to a leaf of the synthetic tree is the left step to its one symbol (R142). -/
theorem State.leafPath_synth {s : State} (h : s.treeSynth) {c₀ c : Byte} {f₀ : Freq} (h0 : s.node.at 0 = .leaf c₀ f₀)
    {bs : List Bool} (hp : s.node.leafPath s.root.idx c bs) : bs = [false] ∧ c = c₀ := by
  obtain ⟨hroot, -, -, ⟨c', f', -, h1⟩, -⟩ := h
  obtain ⟨q, f, hd, hq⟩ := hp
  rw [hroot] at hd
  match bs, hd with
  | [], hd => cases hd; rw [h1] at hq; cases hq
  | true :: _, hd => rw [Arena.descend, h1] at hd; cases hd
  | false :: bs, hd =>
    rw [Arena.descend, h1] at hd
    obtain ⟨rfl, rfl⟩ := Arena.descend_leaf h0 hd
    rw [h0] at hq
    cases hq
    exact ⟨rfl, rfl⟩

/-- DECODE gives a sequence of symbols back: they are in OUT_MEM and counted, no bit is left over, and there is no error. -/
def decodesTo (s : State) (xs : List Byte) : Prop :=
  ∃ t, exec .decode s = .next t ∧ t.outLen = BitVec.ofNat 32 xs.length ∧ storesOutput s t xs ∧ t.trailBits = 0 ∧
    t.status = { s.status with done := true }

/-- The code of every symbol of a sequence is the path to its leaf, and their stream stands in BS_MEM. -/
structure State.holdsCodes (s : State) (xs : List Byte) : Prop where
  path : ∀ x ∈ xs, s.node.leafPath s.root.idx x (s.codeOf x)
  stream : s.streamIs (s.codesOf xs)
  fit : s.bsLen.toNat ≤ 8 * s.params.bsBytes

/-- On the synthetic tree every symbol of the stream is the one symbol, with a code of one bit (R172). -/
theorem State.holdsCodes.decodesTo_synth {s : State} {xs : List Byte} (h : s.holdsCodes xs) (hok : s.params.ok)
    (hsynth : s.treeSynth) : decodesTo s xs := by
  obtain ⟨-, -, -, ⟨c, f, h0, -⟩, -⟩ := id hsynth
  have hsyms : xs = List.replicate xs.length c :=
    List.eq_replicate_of_mem fun x hx => (State.leafPath_synth hsynth h0 (h.path x hx)).2
  have hbits : ∀ x ∈ xs, (s.codeOf x).length = 1 := fun x hx => by
    rw [(State.leafPath_synth hsynth h0 (h.path x hx)).1]; rfl
  have hlen : s.bsLen.toNat = xs.length := by
    rw [h.stream.1, State.codesOf, List.length_flatMap, List.map_congr_left hbits]
    simp
  obtain ⟨t, m, hdec, hm, ht, hstores⟩ := decodeOfSyntheticTree s c f hok hsynth h0 h.fit
  rw [hlen, ← hsyms] at hstores
  exact ⟨t, hdec, by rw [ht, ← hlen]; simp, hstores, by rw [ht], by rw [ht]⟩

/-- On a full tree the walk goes from the root to the leaf of each symbol in turn (R170). -/
theorem State.holdsCodes.decodesTo_full {s : State} {xs : List Byte} (h : s.holdsCodes xs) (hok : s.params.ok) {n : Nat}
    (hfull : s.treeFull n) : decodesTo s xs := by
  obtain ⟨hp, hs⟩ := State.treeFull_flags hfull
  obtain ⟨l, r, f, hinner⟩ := Node.isInternal_iff.1 (State.treeFull_root hfull)
  have hstream : s.streamIs ((xs.map fun x => (x, s.codeOf x)).flatMap Prod.snd ++ []) := by
    rw [List.append_nil, List.flatMap_map]
    exact h.stream
  obtain ⟨t, m, hdec, hm, hstores, hend, -⟩ := decodeWalksTheTree s (xs.map fun x => (x, s.codeOf x)) [] hok
    (.inr (.inr ⟨n, hfull⟩)) hp hs
    (by simpa using h.path) ⟨s.root.idx, rfl, by rw [hinner]; rfl⟩ hstream h.fit
  have ht := hend (.inl rfl)
  rw [List.map_map, show Prod.fst ∘ (fun x => (x, s.codeOf x)) = id from rfl, List.map_id] at hstores
  exact ⟨t, hdec, by rw [ht, List.length_map], hstores, by rw [ht]; rfl, by rw [ht]⟩

/-- DECODE gives back the symbols whose codes BS_MEM holds (R176). -/
theorem State.holdsCodes.decodesTo {s : State} {xs : List Byte} (h : s.holdsCodes xs) (hok : s.params.ok)
    (htree : s.treeInv) (hp : s.root.present = true) : decodesTo s xs := by
  obtain ⟨hroot, -⟩ | hsynth | ⟨n, hfull⟩ := htree
  · rw [hroot] at hp; cases hp
  · exact h.decodesTo_synth hok hsynth
  · exact h.decodesTo_full hok hfull

/-- A histogram that is not all zeros has a tree (R126). -/
theorem buildTree_root_present {h : Hist} (hne : h.present ≠ []) : (buildTree h).root.present = true := by
  have hpos := List.length_pos_of_ne_nil hne
  obtain h1 | h2 : h.present.length = 1 ∨ 2 ≤ h.present.length := by omega
  · obtain ⟨c, hc⟩ := List.length_eq_one_iff.1 h1
    rw [(buildTree_one hc).1]
  · obtain ⟨r, hroot, -⟩ := buildTree_many h2
    rw [hroot]

/-- The tree invariant is about NODE, ROOT, NSYM and NODE_CNT alone (R35). -/
theorem State.treeInv_congr {s t : State}
    (h : t.node = s.node ∧ t.root = s.root ∧ t.nsym = s.nsym ∧ t.nodeCnt = s.nodeCnt) : t.treeInv ↔ s.treeInv := by
  obtain ⟨hnode, hroot, hnsym, hcnt⟩ := h
  simp only [State.treeInv, State.treeAbsent, State.treeSynth, State.treeFull, hnode, hroot, hnsym, hcnt]

/-- COUNT and BUILD on a written input that is not empty leave the input and a tree that holds a leaf for every symbol of it. -/
theorem exec_count_build {s : State} {xs : List Byte} (hin : s.inputIs xs) (hne : xs ≠ [])
    (hlen : xs.length ≤ s.params.maxIn) :
    ∃ s1 s2, exec .count s = .next s1 ∧ exec .build s1 = .next s2 ∧ s2.treeInv ∧ s2.root.present = true ∧
      (∀ x ∈ xs, ∃ i f, s2.node.at i = .leaf x f) ∧ s2.params = s.params ∧ s2.inputIs xs ∧
      s2.status = { s.status with done := true } := by
  obtain ⟨h, hcount, -, hmem, -⟩ := countTalliesInput s xs hin hlen
  have hpresent : ∀ x ∈ xs, x ∈ h.present := fun x hx =>
    Hist.mem_present.2 fun h0 => absurd ((hmem x).2 hx) (by rw [h0]; decide)
  obtain ⟨x, hx⟩ := List.exists_mem_of_ne_nil xs hne
  exact ⟨_, _, hcount, exec_build_next _, buildTree_treeInv (h := h) rfl rfl rfl rfl,
    buildTree_root_present (List.ne_nil_of_mem (hpresent x hx)),
    fun x hx => buildTree_leaf_iff.2 (Hist.mem_present.1 (hpresent x hx)), rfl, hin, rfl⟩

/-- ENCODE of a written input whose symbols all have the paths to their leaves as codes, and whose codes fit, leaves these codes in
BS_MEM. -/
theorem exec_encode_holdsCodes {s : State} {xs : List Byte} (hok : s.params.ok) (hin : s.inputIs xs)
    (hlen : xs.length ≤ s.params.maxIn) (hknown : ∀ x ∈ xs, s.unknown x = false)
    (hpath : ∀ x ∈ xs, s.node.leafPath s.root.idx x (s.codeOf x)) (hfit : (s.codesOf xs).length ≤ 8 * s.params.bsBytes) :
    ∃ t, exec .encode s = .next t ∧ t.holdsCodes xs ∧ t.bsLen.toNat = (s.codesOf xs).length ∧ t.unkCnt = 0 ∧
      t.status = { s.status with done := true } := by
  obtain ⟨t, henc, ht, ⟨hbits, -⟩, -, hbsLen, hunk⟩ := encodeConcatenatesCodes s xs hok hin hlen (fun _ => hknown) hfit
  have hnone : xs.filter s.unknown = [] := List.filter_eq_nil_iff.2 fun x hx => by simp [hknown x hx]
  obtain ⟨hparams, -⟩ := exec_keeps_inputs henc
  obtain ⟨hnode, hroot, -⟩ := exec_keeps_tree henc (by decide) (by decide)
  have hcode : t.codeOf = s.codeOf := by
    funext c
    rw [State.codeOf, exec_keeps_code henc (by decide) (by decide), State.codeOf]
  have hcodes : t.codesOf xs = s.codesOf xs := by rw [State.codesOf, hcode, State.codesOf]
  refine ⟨t, henc, ⟨?_, ?_, ?_⟩, hbsLen, BitVec.eq_of_toNat_eq (by rw [hunk, hnone]; rfl), by rw [ht]⟩
  · rwa [hnode, hroot, hcode]
  · rw [hcodes]; exact ⟨hbsLen, hbits⟩
  · rwa [hbsLen, hparams]

/-- Settles O36: the tree holds a leaf for every symbol, GENERATE gives each the path to it, ENCODE stores the paths, and DECODE walks
them. -/
theorem pipelineRoundTrip : Obligations.PipelineRoundTrip := by
  intro s xs hok hin hne hlen
  obtain ⟨s1, s2, hcount, hbuild, htree, hp, hleaf, hparams, hin2, hstatus2⟩ := exec_count_build hin hne hlen
  obtain ⟨table, hgen, hcode, hpath, -⟩ := generateGivesLeafPaths s2 htree hp
  refine ⟨s1, s2, _, hcount, hbuild, hgen, fun hfit => ?_⟩
  have hsym : ∀ x ∈ xs, (table.at x).len ≠ 0 := fun x hx => (hcode x).2 (hleaf x hx)
  rw [← hparams] at hok hlen hfit
  obtain ⟨s4, henc, hholds, hbsLen, hunk, hstatus4⟩ := exec_encode_holdsCodes
    (s := { s2 with code := table, inFlight := none, status := { s2.status with done := true } }) hok hin2 hlen
    (fun x hx => decide_eq_false (hsym x hx)) (fun x hx => hpath x (hsym x hx)) hfit
  obtain ⟨hparams4, -⟩ := exec_keeps_inputs henc
  have hkeep := exec_keeps_tree henc (by decide) (by decide)
  have hp4 : s4.root.present = true := by
    obtain ⟨-, hroot, -⟩ := hkeep
    rwa [hroot]
  obtain ⟨s5, hdec, hout, hstores, htrail, hstatus5⟩ := hholds.decodesTo (hparams4 ▸ hok)
    ((State.treeInv_congr hkeep).2 htree) hp4
  have hcnt : s5.outLen.toNat = xs.length := by
    obtain ⟨-, hMax, -⟩ := hok
    rw [hout]
    exact Nat.mod_eq_of_lt (by omega)
  exact ⟨s4, s5, henc, hdec, hbsLen, hunk, hcnt, hstores.1, htrail, by rw [hstatus5, hstatus4, hstatus2],
    by rw [hstatus5, hstatus4, hstatus2]⟩

end Sys2Proof.Machine
end

section
/-! PROOF. Steps and runs (R20, R95 to R98, R200 to R203, R250): whose turn a step is, the host while a command is in flight, and the
pseudo-operations RUN and LOADIN. -/

namespace Sys2Proof.Machine

/-! ### Whose turn a step is (R20, R250) -/

section Turns

variable {s : State} {ts : List Turn}

theorem step_host (h : s.env.turns = .host :: ts) : step s = .next (s.withTurns ts).hostStep := by rw [step, h]

theorem step_engine (h : s.env.turns = .engine :: ts) : step s = (s.withTurns ts).engineStep := by rw [step, h]

theorem step_reset (h : s.env.turns = .reset :: ts) : step s = .next (s.withTurns ts).resetEvent := by rw [step, h]

theorem State.engineStep_busy {w : Word} (h : s.inFlight = some w) : s.engineStep = exec (decode w) s := by
  rw [State.engineStep, h]

theorem State.engineStep_idle (h : s.inFlight = none) : s.engineStep = .next s := by
  rw [State.engineStep, h]

/-- Where no turn is prescribed the engine moves while it has a step (R203). -/
theorem step_busy {w : Word} (ht : s.env.turns = []) (h : s.inFlight = some w) : step s = exec (decode w) s := by
  rw [step, ht]
  simp only [(s.busy_iff).2 ⟨w, h⟩, if_true, State.engineStep_busy h]

/-- Where no turn is prescribed and no command is in flight the host moves. -/
theorem step_idle (ht : s.env.turns = []) (h : s.busy = false) : step s = .next s.hostStep := by
  rw [step, ht]
  simp [h]

end Turns

/-- Settles O5: the turns one by one. -/
theorem stepPerformsTheAgentsTurn : Obligations.StepPerformsTheAgentsTurn := by
  intro s ts
  refine ⟨step_host, step_reset, fun ht => ⟨fun w hw => ?engine, fun hn => ?passes⟩,
    fun ht => ⟨fun w hw => step_busy ht hw, fun hn => step_idle ht (s.not_busy_iff.2 hn)⟩⟩
  case engine => rw [step_engine ht, State.engineStep_busy (s := s.withTurns ts) hw]
  case passes => rw [step_engine ht, State.engineStep_idle (s := s.withTurns ts) hn]

/-- Settles O6: the placement is the issue that a write of CMD makes, and the turn put first is the engine's. -/
theorem fetchedWordRunsNext : Obligations.FetchedWordRunsNext := by
  intro s w hb
  have hw : tableWord 32 w = BitVec.ofNat 32 w := BitVec.eq_of_toNat_eq (by simp [tableWord])
  refine ⟨?placed, ?runs⟩
  case placed => rw [State.withFetchWord, hw, s.portWrite_cmd, hb, if_neg (by decide)]
  case runs =>
    rw [State.withFetchWord, hw, step_engine (ts := s.env.turns) rfl]
    exact State.engineStep_busy rfl

/-- Settles O53: the reset state has the three structures empty. -/
theorem resetTurnGivesResetState : Obligations.ResetTurnGivesResetState := fun _ _ ht =>
  ⟨Hist.zero, Arena.empty, CodeTable.empty, step_reset ht, Hist.at_zero, Arena.at_empty, CodeTable.at_empty⟩

/-! ### The host while a command is in flight (R201, R203) -/

/-- No access changes the record of the world outside by itself. -/
theorem HostEffect.env {s u : State} (h : HostEffect s u) : u.env = s.env := by
  cases h <;> rfl

/-- No statement of the host's program takes a turn off the list. -/
theorem State.hostOp_turns (s : State) (op : HostOp) (rest : List HostOp) : (s.hostOp op rest).env.turns = s.env.turns := by
  cases op with
  | read | expect => rfl
  | write a lanes v =>
    have hkeep := congrArg Env.turns (State.portWrite_effect s a lanes v).env
    exact hkeep
  | wait =>
    rw [State.hostOp]
    split <;> rfl

/-- The host's turn takes no turn off the list. -/
theorem State.hostStep_turns (s : State) : s.hostStep.env.turns = s.env.turns := by
  rw [State.hostStep]
  split
  · rfl
  · exact s.hostOp_turns _ _

/-- While a command is in flight an access changes DONE and OVERRUN alone (R66, R201). -/
theorem HostEffect.of_busy {s u : State} (h : HostEffect s u) (hb : s.busy = true) :
    ∃ done overrun, u = { s with status := { s.status with done := done, overrun := overrun } } := by
  cases h with
  | same => exact ⟨s.status.done, s.status.overrun, rfl⟩
  | overrun => exact ⟨s.status.done, true, rfl⟩
  | flags v => exact ⟨_, _, rfl⟩
  | ctrl hi | issue hi | inLen hi | bsLen hi | hist hi | inMem hi | bsMem hi => rw [hb] at hi; cases hi

/-- A host turn while a command is in flight. -/
theorem step_host_busy {s : State} {w : Word} {ts : List Turn} (hw : s.inFlight = some w)
    (ht : s.env.turns = .host :: ts) :
    ∃ done overrun env,
      step s = .next { s with status := { s.status with done := done, overrun := overrun }, env := env } ∧ env.turns = ts := by
  obtain ⟨u, env, hu, hstep⟩ := State.hostStep_effect (s.withTurns ts)
  obtain ⟨done, overrun, rfl⟩ := hu.of_busy (State.busy_iff _ |>.2 ⟨w, hw⟩)
  have hturns := State.hostStep_turns (s.withTurns ts)
  rw [hstep] at hturns
  exact ⟨done, overrun, env, by rw [step_host ht, hstep]; rfl, hturns⟩

/-- A run of one step or more begins with a step. -/
theorem runFor_succ {n : Nat} {s t : State} (h : step s = .next t) : runFor (n + 1) s = runFor n t := by
  rw [runFor, h]

@[simp] theorem runFor_one (s : State) : runFor 1 s = step s := by
  rw [runFor]
  cases step s <;> rfl

/-- Settles O7: each host turn changes DONE and OVERRUN alone, and behind the last the engine moves. -/
theorem hostCannotDisturbCommandInFlight : Obligations.HostCannotDisturbCommandInFlight := by
  intro n
  induction n with
  | zero =>
    intro s w hw ht
    exact ⟨s, s.status.done, s.status.overrun, s.env, rfl, rfl, by rw [Nat.zero_add, runFor_one, step_busy ht hw]⟩
  | succ n ih =>
    intro s w hw ht
    obtain ⟨done, overrun, env, hstep, hturns⟩ := step_host_busy hw ht
    obtain ⟨t, done', overrun', env', hrun, hform, hlast⟩ := ih
      { s with status := { s.status with done := done, overrun := overrun }, env := env } w hw hturns
    exact ⟨t, done', overrun', env', by rw [runFor_succ hstep, hrun], hform, by rw [runFor_succ hstep, hlast]⟩

/-! ### RUN (R96, R97) -/

/-- A full write by an idle host in its turn. -/
theorem step_write {s u : State} {a : Offset} {v : Word} {r : Resp} {rest : List HostOp} (hb : s.busy = false)
    (ht : s.env.turns = []) (hp : s.env.prog = .write a 0xF v :: rest) (hw : s.portWrite a 0xF v = (u, r)) :
    step s = .next { u with env := { s.env with prog := rest, reply := some (.write r) } } := by
  have henv : u.env = s.env := by
    have := (State.portWrite_effect s a 0xF v).env
    rwa [hw] at this
  rw [step_idle ht hb, State.hostStep, hp]
  simp only [State.hostOp, State.hostWrite, hw, State.withReply, State.withProg, henv]

/-- BUSY is bit 0 of STATUS (R23). -/
theorem State.statusWord_bit_zero (s : State) : s.statusWord.getLsbD 0 = s.busy := by
  rw [State.statusWord, BitVec.getLsbD_append, BitVec.getLsbD_ofBool]
  simp

/-- The wait loop of an idle machine ends with its first read of STATUS (R97). -/
theorem step_wait {s : State} {rest : List HostOp} (hb : s.busy = false) (ht : s.env.turns = [])
    (hp : s.env.prog = .wait :: rest) :
    step s = .next { s with env := { s.env with prog := rest, reply := some (.read .okay s.statusWord) } } := by
  have hread : s.portRead Reg.status.offset 0xF = (.okay, s.statusWord) := s.portRead_reg .status
  rw [step_idle ht hb, State.hostStep, hp]
  simp only [State.hostOp, State.hostRead, hread, s.statusWord_bit_zero, hb]
  rfl

/-- After the issue of a command and where no turn is prescribed, the engine performs the command (R202, R203). -/
theorem step_issued {i : Instr} {s t : State} {e : Env} (hwf : i.wf = true) (he : e.turns = [])
    (h : exec i (s.issue (encode i)) = .next t) : step { s.issue (encode i) with env := e } = .next { t with env := e } := by
  rw [step_busy (s := { s.issue (encode i) with env := e }) he rfl, decode_encode hwf]
  exact exec_env h e

/-- Settles O47: the issue, the command, and the read of STATUS that ends the wait. -/
theorem runPerformsTheCommand : Obligations.RunPerformsTheCommand := by
  intro i s t rest hwf hb ht hp hexec
  have hissue : s.portWrite (Target.offset (.reg .cmd)) 0xF (encode i) = (s.issue (encode i), .okay) := by
    have hwrite := s.portWrite_cmd (encode i)
    rwa [hb, if_neg (by decide)] at hwrite
  have hdone : t.busy = false := t.not_busy_iff.2 (completionBookkeeping i _ t hexec).1
  have hstep1 := step_write hb ht hp hissue
  have hstep2 := step_issued (e := { s.env with prog := .wait :: rest, reply := some (.write .okay) }) hwf ht hexec
  have hstep3 := step_wait (s := { t with env := { s.env with prog := .wait :: rest, reply := some (.write .okay) } })
    hdone ht rfl
  exact ⟨_, (runFor_succ hstep1).trans ((runFor_succ hstep2).trans ((runFor_one _).trans hstep3)), rfl, ht, rfl, rfl⟩

/-! ### LOADIN (R62, R95, R98) -/

/-- A memory with words of a packed list of bytes written, each at its place (R98). -/
def Memory.storeWords (xs : List Byte) (m : Memory) (ws : List Nat) : Memory :=
  ws.foldl (fun m w => m.writeBytes (4 * w) (wordBytes (packedWord xs w))) m

/-- The lanes of a packed word are its four bytes, zeros past the end of the list (R98). -/
theorem laneOf_packedWord (xs : List Byte) (w : Nat) {i : Nat} (hi : i < 4) :
    laneOf (packedWord xs w) i = xs.getD (4 * w + i) 0 := by
  obtain ⟨h0, h1, h2, h3⟩ := laneOf_wordOfLanes (xs.getD (4 * w) 0) (xs.getD (4 * w + 1) 0) (xs.getD (4 * w + 2) 0)
    (xs.getD (4 * w + 3) 0)
  interval_cases i
  exacts [h0, h1, h2, h3]

/-- The first words of a packed list hold its bytes, and zeros past its end; past the words nothing changes (R98). -/
theorem Memory.read_storeWords (xs : List Byte) (m : Memory) (n j : Nat) :
    (m.storeWords xs (List.range n)).read j = if j < 4 * n then some (xs.getD j 0) else m.read j := by
  induction n with
  | zero => rfl
  | succ n ih =>
    rw [Memory.storeWords, List.range_succ, List.foldl_append, List.foldl_cons, List.foldl_nil]
    change ((m.storeWords xs (List.range n)).writeBytes (4 * n) (wordBytes (packedWord xs n))).read j = _
    obtain hlow | ⟨i, hi, rfl⟩ | hhigh : j < 4 * n ∨ (∃ i, i < 4 ∧ j = 4 * n + i) ∨ 4 * n + 4 ≤ j := by
      by_cases hlow : j < 4 * n
      · exact .inl hlow
      · by_cases hhigh : 4 * n + 4 ≤ j
        · exact .inr (.inr hhigh)
        · exact .inr (.inl ⟨j - 4 * n, by omega, by omega⟩)
    · rw [Memory.read_writeBytes_outside (.inl hlow), ih, if_pos hlow, if_pos (by omega)]
    · rw [Memory.read_writeBytes_wordBytes _ _ _ hi, laneOf_packedWord xs n hi, if_pos (by omega)]
    · rw [Memory.read_writeBytes_outside (.inr hhigh), ih, if_neg (by omega), if_neg (by omega)]

/-- The host, on an idle machine, writes words of a packed list to IN_MEM one a turn (R98). -/
theorem runFor_storeWords (xs : List Byte) (ws : List Nat) {s : State} {rest : List HostOp} (hok : s.params.ok)
    (hb : s.busy = false) (ht : s.env.turns = []) (hfit : ∀ w ∈ ws, 4 * w < s.params.maxIn)
    (hp : s.env.prog = ws.map (fun w => wr (.inp (4 * w)) (packedWord xs w)) ++ rest) :
    ∃ env : Env, runFor ws.length s = .next { s with inMem := s.inMem.storeWords xs ws, env := env } ∧
      env.turns = [] ∧ env.prog = rest := by
  induction ws generalizing s with
  | nil => exact ⟨s.env, rfl, ht, hp⟩
  | cons w ws ih =>
    have hw : 4 * w < s.params.maxIn := hfit w List.mem_cons_self
    obtain ⟨-, hMax, -⟩ := id hok
    have hstep := step_write hb ht hp (State.portWrite_inMem _ hb (by omega) (by omega) hw)
    obtain ⟨env, hrun, hturns, hprog⟩ := ih (s := { s with
      inMem := s.inMem.writeBytes (4 * w) (wordBytes (packedWord xs w))
      env := { s.env with
        prog := ws.map (fun w => wr (.inp (4 * w)) (packedWord xs w)) ++ rest
        reply := some (.write .okay) } }) hok hb ht (fun w' hw' => hfit w' (List.mem_cons_of_mem _ hw')) rfl
    exact ⟨env, by rw [List.length_cons, runFor_succ hstep]; exact hrun, hturns, hprog⟩

/-- The host, on an idle machine, writes IN_LEN (R23, R95). -/
theorem step_write_inLen {s : State} {v : Word} {rest : List HostOp} (hb : s.busy = false) (ht : s.env.turns = [])
    (hp : s.env.prog = wr (.reg .inLen) v :: rest) :
    step s = .next { s with inLen := v, env := { s.env with prog := rest, reply := some (.write .okay) } } := by
  have hwrite := s.portWrite_reg v (r := .inLen) (by decide)
  rw [hb, if_neg (by decide)] at hwrite
  exact step_write hb ht hp hwrite

/-- Settles O48: the words of the bytes, then IN_LEN. -/
theorem loadInStoresTheInput : Obligations.LoadInStoresTheInput := by
  intro s xs rest hok hb ht hp hlen
  obtain ⟨-, -, hcap, -⟩ := id hok
  rw [loadIn, List.append_assoc] at hp
  obtain ⟨env, hrun, hturns, hprog⟩ := runFor_storeWords xs (List.range ((xs.length + 3) / 4)) hok hb ht
    (fun w hw => by rw [List.mem_range] at hw; omega) hp
  rw [List.length_range] at hrun
  have hread := Memory.read_storeWords xs s.inMem ((xs.length + 3) / 4)
  have hlast := step_write_inLen
    (s := { s with inMem := s.inMem.storeWords xs (List.range ((xs.length + 3) / 4)), env := env }) hb hturns hprog
  refine ⟨_, _, ((runFor_add hrun).trans (runFor_one _)).trans hlast, rfl, fun j hj => ?bytes, fun j hlow hj => ?padding,
    fun j hj => ?past⟩
  case bytes => rw [hread, if_pos (by omega), List.getD_eq_getElem _ _ hj]
  case padding => rw [hread, if_pos hj, List.getD_eq_default _ _ hlow]
  case past => rw [hread, if_neg (by omega)]

end Sys2Proof.Machine
end

section
/-! PROOF. The invariants (R26, R35, R38, R41 to R43): all of them hold at reset, every step keeps them, and under the tree invariant no
step is stuck in the tree. -/

namespace Sys2Proof.Machine

/-! ### The state after reset (R251) -/

theorem State.resetOf_memInv {p : Params} (hok : p.ok) : (State.resetOf p).memInv :=
  ⟨hok, ⟨rfl, rfl⟩, ⟨rfl, rfl⟩, rfl, rfl⟩

theorem State.resetOf_statusInv (p : Params) : (State.resetOf p).statusInv :=
  ⟨by simp [State.resetOf], fun _ => ⟨rfl, rfl⟩, nofun⟩

theorem State.resetOf_treeInv (p : Params) : (State.resetOf p).treeInv :=
  .inl ⟨rfl, rfl, rfl, Arena.at_empty⟩

/-- The empty code table keeps the code-table invariant. -/
theorem CodeTable.empty_fits (c : Byte) : (CodeTable.empty.at c).val.toNat < 2 ^ (CodeTable.empty.at c).len.toNat := by
  rw [CodeTable.at_empty]
  decide

theorem State.resetOf_codeInv (p : Params) : (State.resetOf p).codeInv := CodeTable.empty_fits

theorem State.resetOf_outputInv (p : Params) : (State.resetOf p).outputInv :=
  ⟨Nat.zero_le _, nofun, Nat.zero_le _, Nat.zero_le _⟩

/-- Settles O54: the reset state meets the invariants one by one, and the reference configuration is one of those allowed. -/
theorem resetKeepsEveryInvariant : Obligations.ResetKeepsEveryInvariant :=
  ⟨fun p hok => ⟨State.resetOf_memInv hok, State.resetOf_statusInv p, State.resetOf_treeInv p, State.resetOf_codeInv p,
    State.resetOf_outputInv p⟩, rfl, by decide⟩

/-! ### Steps -/

/-- A property that no access of the host, no command and no reset breaks, and that is not about the record of the world outside, is
kept by every step. -/
theorem step_keeps {Inv : State → Prop} {s t : State} (henv : ∀ u env, Inv u → Inv { u with env := env })
    (hhost : ∀ u, HostEffect s u → Inv u)
    (hexec : ∀ w env, s.inFlight = some w → exec (decode w) { s with env := env } = .next t → Inv t)
    (hreset : ∀ env, Inv { State.resetOf s.params with ramEra := s.ramEra + 1, env := env }) (h : step s = .next t) :
    Inv t := by
  obtain ⟨u, env, hu, rfl⟩ | ⟨w, env, hw, hx⟩ | ⟨env, rfl⟩ := step_effect h
  · exact henv u env (hhost u hu)
  · exact hexec w env hw hx
  · exact hreset env

/-! ### The buffers (R41 to R43, R63, R171) -/

/-- A memory is canonical and within a capacity. -/
def Memory.fits (m : Memory) (cap : Nat) : Prop := m.wf = true ∧ m.within cap = true

theorem Memory.fits.writeBytes {m : Memory} {cap a : Nat} {bs : List Byte} (h : m.fits cap) (ha : a + bs.length ≤ cap) :
    (m.writeBytes a bs).fits cap :=
  ⟨Memory.wf_writeBytes a bs h.1, Memory.within_writeBytes ha h.2⟩

/-- An aligned word below the capacity of a buffer lies within the buffer, as capacities are whole words (R8). -/
theorem Memory.fits.writeWord {m : Memory} {cap j : Nat} (h : m.fits cap) (hcap : cap % 4 = 0) (ha : j % 4 = 0)
    (hj : j < cap) (v : Word) : (m.writeBytes j (wordBytes v)).fits cap :=
  h.writeBytes (by rw [length_wordBytes]; omega)

theorem HostEffect.keeps_memInv {s u : State} (h : HostEffect s u) (hinv : s.memInv) : u.memInv := by
  obtain ⟨hok, hin, hbs, hout⟩ := hinv
  obtain ⟨-, -, hIn, -, -, hBs, -⟩ := id hok
  cases h with
  | inMem _ j v ha hj =>
    exact ⟨hok, Memory.fits.writeWord hin hIn ha hj v, hbs, hout⟩
  | bsMem _ j v ha hj =>
    exact ⟨hok, hin, Memory.fits.writeWord hbs hBs ha hj v, hout⟩
  | _ => exact ⟨hok, hin, hbs, hout⟩

/-- What a command leaves in BS_MEM fits (R150). -/
theorem exec_keeps_bsMem_fits {i : Instr} {s t : State} (h : exec i s = .next t) (hfits : s.bsMem.fits s.params.bsBytes) :
    t.bsMem.fits s.params.bsBytes := by
  by_cases hi : i = .encode
  · subst hi
    obtain ⟨hmem, -⟩ | ⟨bits, unk, hbits, -, hmem, -⟩ := exec_encode_outputs h
    · rwa [hmem]
    · rw [hmem]
      exact hfits.writeBytes (by rw [length_packBits]; omega)
  · rwa [(exec_keeps_stream h hi).2]

/-- What a command leaves in OUT_MEM fits: a symbol a bit at most, and OUT_MEM has a byte for every bit of BS_MEM (R8, R171). -/
theorem exec_keeps_outMem_fits {i : Instr} {s t : State} (h : exec i s = .next t) (hok : s.params.ok)
    (hfits : s.outMem.fits s.params.maxOut) : t.outMem.fits s.params.maxOut := by
  obtain ⟨-, -, -, -, -, -, hMax, -⟩ := hok
  by_cases hi : i = .decode
  · subst hi
    obtain ⟨-, hmem, -⟩ | ⟨syms, trail, hlen, hsyms, -, hmem, -⟩ := exec_decode_outputs h
    · rwa [hmem]
    · rw [hmem]
      exact hfits.writeBytes (by omega)
  · rwa [exec_keeps_outMem h hi]

theorem exec_keeps_memInv {i : Instr} {s t : State} (h : exec i s = .next t) (hinv : s.memInv) : t.memInv := by
  obtain ⟨hok, hin, hbs, hout⟩ := hinv
  obtain ⟨hparams, -, -, hinMem, -⟩ := exec_keeps_inputs h
  rw [State.memInv, hparams, hinMem]
  exact ⟨hok, hin, exec_keeps_bsMem_fits h hbs, exec_keeps_outMem_fits h hok hout⟩

/-- Settles O55: the host writes whole words below a capacity, and the commands write no more than fits. -/
theorem stepKeepsMemories : Obligations.StepKeepsMemories := fun s _ hinv h =>
  step_keeps (Inv := State.memInv) (fun _ _ hu => hu) (fun _ hu => hu.keeps_memInv hinv)
    (fun _ env _ hx => exec_keeps_memInv hx (s := { s with env := env }) hinv) (fun _ => State.resetOf_memInv hinv.1) h

/-! ### The status registers (R26, R200, R202, R222) -/

theorem HostEffect.keeps_statusInv {s u : State} (h : HostEffect s u) (hinv : s.statusInv) : u.statusInv := by
  obtain ⟨herr, hpos, hflight⟩ := hinv
  cases h with
  | issue _ w => exact ⟨by simp, fun _ => ⟨rfl, rfl⟩, fun w' hw => by cases hw; exact ⟨rfl, rfl, rfl⟩⟩
  | flags v =>
    refine ⟨herr, hpos, fun w hw => ?_⟩
    obtain ⟨hdone, herr', hopc⟩ := hflight w hw
    exact ⟨by simp [hdone], herr', hopc⟩
  | _ => exact ⟨herr, hpos, hflight⟩

/-- A command ends with nothing in flight, and with an error and its code, or with those the issue left (R202). -/
theorem exec_keeps_statusInv {i : Instr} {s t : State} (h : exec i s = .next t) (hinv : s.statusInv) : t.statusInv := by
  obtain ⟨herr, hpos, -⟩ := hinv
  obtain ⟨hnone, -, -, -, ⟨herr', hcode', hpos', hsym'⟩ | ⟨herr', hcode'⟩⟩ := completionBookkeeping i s t h
  · exact ⟨by rw [herr', hcode']; exact herr, by rw [herr', hpos', hsym']; exact hpos, by simp [hnone]⟩
  · exact ⟨iff_of_true herr' hcode', by simp [herr'], by simp [hnone]⟩

/-- Settles O56: the issue clears what the invariant speaks of, and every end of a command sets it again as a whole. -/
theorem stepKeepsStatus : Obligations.StepKeepsStatus := fun s _ hinv h =>
  step_keeps (Inv := State.statusInv) (fun _ _ hu => hu) (fun _ hu => hu.keeps_statusInv hinv)
    (fun _ env _ hx => exec_keeps_statusInv hx (s := { s with env := env }) hinv) (fun _ => State.resetOf_statusInv s.params) h

/-! ### The tree (R35) -/

/-- No access of the host reaches the tree or the code table (R63). -/
theorem HostEffect.keeps_tree {s u : State} (h : HostEffect s u) :
    (u.node = s.node ∧ u.root = s.root ∧ u.nsym = s.nsym ∧ u.nodeCnt = s.nodeCnt) ∧ u.code = s.code := by
  cases h <;> exact ⟨⟨rfl, rfl, rfl, rfl⟩, rfl⟩

theorem exec_keeps_treeInv {i : Instr} {s t : State} (h : exec i s = .next t) (hinv : s.treeInv) : t.treeInv := by
  by_cases hb : i = .build
  · subst hb
    obtain ⟨u, hu, htree, -⟩ := buildMakesATree s
    rw [h] at hu
    cases hu
    exact htree
  · by_cases hc : i = .clear
    · subst hc
      cases h
      exact State.resetOf_treeInv s.params
    · exact (State.treeInv_congr (exec_keeps_tree h hb hc)).2 hinv

/-- Settles O57: BUILD leaves a tree, CLEAR and reset leave none, and nothing else reaches the tree. -/
theorem stepKeepsTheTree : Obligations.StepKeepsTheTree := fun s _ hinv h =>
  step_keeps (Inv := State.treeInv) (fun _ _ hu => hu) (fun _ hu => (State.treeInv_congr hu.keeps_tree.1).2 hinv)
    (fun _ env _ hx => exec_keeps_treeInv hx (s := { s with env := env }) hinv) (fun _ => State.resetOf_treeInv s.params) h

/-! ### The code table (R38) -/

/-- The code of a path spells a number that its length holds (R140). -/
theorem pathEntry_path_fits {bs : List Bool} (h : bs.length ≤ 255) :
    (pathEntry bs.length (pathVal 0 bs)).val.toNat < 2 ^ (pathEntry bs.length (pathVal 0 bs)).len.toNat := by
  have hval := pathVal_lt bs (v := 0) (l := 0) (by decide)
  rw [Nat.zero_add] at hval
  exact pathEntry_fits h hval

/-- Every code that GENERATE makes of a tree as R35 says fits its length. -/
theorem codesOf_fits {s : State} {t : CodeTable} (h : s.treeInv) (ht : codesOf s.node s.root = some t) (c : Byte) :
    (t.at c).val.toNat < 2 ^ (t.at c).len.toNat := by
  obtain ⟨hroot, -⟩ | hsynth | ⟨n, hfull⟩ := h
  · rw [codesOf_absent (by rw [hroot])] at ht
    cases ht
    exact CodeTable.empty_fits c
  · obtain ⟨-, -, -, ⟨d, f, h0, -⟩, -⟩ := id hsynth
    rw [codesOf_synth hsynth h0] at ht
    cases ht
    rw [CodeTable.at_put]
    split
    · decide
    · exact CodeTable.empty_fits c
  · obtain ⟨t', ht', hpath, hnone⟩ := codesOf_full hfull
    rw [ht] at ht'
    cases ht'
    by_cases hc : ∃ bs, s.node.leafPath s.root.idx c bs
    · obtain ⟨bs, hbs⟩ := hc
      obtain ⟨hentry, -, -, hlen⟩ := hpath c bs hbs
      rw [hentry]
      exact pathEntry_path_fits hlen
    · rw [hnone c (not_exists.1 hc)]
      decide

theorem exec_keeps_codeInv {i : Instr} {s t : State} (h : exec i s = .next t) (htree : s.treeInv) (hinv : s.codeInv) :
    t.codeInv := by
  by_cases hg : i = .generate
  · subst hg
    obtain ⟨table, htable⟩ := codesOf_treeInv htree
    rw [exec_generate_next htable] at h
    cases h
    exact codesOf_fits htree htable
  · by_cases hc : i = .clear
    · subst hc
      cases h
      exact CodeTable.empty_fits
    · rw [State.codeInv, exec_keeps_code h hg hc]
      exact hinv

/-- Settles O58: GENERATE's codes fit, and nothing but GENERATE, CLEAR and reset reaches the code table. -/
theorem stepKeepsCodesWithinLength : Obligations.StepKeepsCodesWithinLength := fun s _ htree hinv h =>
  step_keeps (Inv := State.codeInv) (fun _ _ hu => hu) (fun _ hu => by rw [State.codeInv, hu.keeps_tree.2]; exact hinv)
    (fun _ env _ hx => exec_keeps_codeInv hx (s := { s with env := env }) htree hinv)
    (fun _ => State.resetOf_codeInv s.params) h

/-! ### The outputs (R43, R171, R174) -/

/-- No access of the host reaches the outputs of DECODE, or the counters (R63). -/
theorem HostEffect.keeps_outputInv {s u : State} (h : HostEffect s u) (hinv : s.outputInv) : u.outputInv := by
  cases h <;> exact hinv

/-- What DECODE counts is written and fits OUT_MEM, and it leaves no more bits over than there are (R171, R174). -/
theorem exec_decode_keeps_outputs {s t : State} (h : exec .decode s = .next t) (hok : s.params.ok)
    (hinv : s.outputInv) :
    t.outLen.toNat ≤ s.params.maxOut ∧ (∀ j, j < t.outLen.toNat → (t.outMem.read j).isSome = true) ∧
      t.trailBits.toNat ≤ s.params.bsBits := by
  obtain ⟨-, -, -, -, hBs, -, hMax, -⟩ := hok
  obtain ⟨hlen, hwritten, -, htrail⟩ := hinv
  obtain ⟨-, hmem, hout, hbits⟩ | ⟨syms, trail, hbs, hsyms, htr, hmem, hout, hbits⟩ := exec_decode_outputs h
  · rw [hmem, hout, hbits]
    exact ⟨hlen, hwritten, htrail⟩
  · have hcount : t.outLen.toNat = syms.length := by
      rw [hout]
      exact Nat.mod_eq_of_lt (by omega)
    rw [hcount, hmem, hbits]
    refine ⟨by omega, fun j hj => by rw [Memory.read_writeBytes_zero hj]; rfl, ?_⟩
    rw [BitVec.toNat_ofNat]
    exact (Nat.mod_le _ _).trans (htr.trans hbs)

/-- ENCODE skips no more symbols than IN_MEM holds (R152). -/
theorem exec_encode_keeps_unkCnt {s t : State} (h : exec .encode s = .next t) (hinv : s.outputInv) :
    t.unkCnt.toNat ≤ s.params.maxIn := by
  obtain ⟨-, -, hcount, -⟩ := hinv
  obtain ⟨-, -, hunk⟩ | ⟨bits, unk, -, hle, -, -, hunk⟩ := exec_encode_outputs h
  · rwa [hunk]
  · rw [hunk, BitVec.toNat_ofNat]
    exact (Nat.mod_le _ _).trans hle

theorem exec_keeps_outputInv {i : Instr} {s t : State} (h : exec i s = .next t) (hok : s.params.ok) (hinv : s.outputInv) :
    t.outputInv := by
  obtain ⟨hlen, hwritten, hunk, htrail⟩ := id hinv
  obtain ⟨hparams, -⟩ := exec_keeps_inputs h
  by_cases hc : i = .clear
  · subst hc
    cases h
    exact ⟨Nat.zero_le _, nofun, Nat.zero_le _, Nat.zero_le _⟩
  rw [State.outputInv, hparams]
  by_cases hd : i = .decode
  · subst hd
    obtain ⟨hlen', hwritten', htrail'⟩ := exec_decode_keeps_outputs h hok hinv
    rw [exec_keeps_unkCnt h (by decide) (by decide)]
    exact ⟨hlen', hwritten', hunk, htrail'⟩
  · obtain ⟨hout, htr⟩ := exec_keeps_outLen h hd hc
    rw [hout, htr, exec_keeps_outMem h hd]
    refine ⟨hlen, hwritten, ?_, htrail⟩
    by_cases he : i = .encode
    · subst he
      exact exec_encode_keeps_unkCnt h hinv
    · rwa [exec_keeps_unkCnt h he hc]

/-- Settles O59: DECODE and ENCODE count no more than their buffers hold, CLEAR and reset count nothing, and nothing else counts. -/
theorem stepKeepsOutputs : Obligations.StepKeepsOutputs := fun s _ hmem hinv h =>
  step_keeps (Inv := State.outputInv) (fun _ _ hu => hu) (fun _ hu => hu.keeps_outputInv hinv)
    (fun _ env _ hx => exec_keeps_outputInv hx (s := { s with env := env }) hmem.1 hinv)
    (fun _ => State.resetOf_outputInv s.params) h

/-! ### Faults under the tree invariant (R70, R143, R170) -/

/-- Under the tree invariant a command faults on a byte that nothing has written, and on nothing else. -/
theorem exec_fault_uninitRead {i : Instr} {s : State} {f : Fault} (htree : s.treeInv) (h : exec i s = .fault f) :
    ∃ buf j, f = .uninitRead buf j ∧ (s.ram buf).read j = none := by
  obtain ⟨-, hloop⟩ | ⟨-, hloop⟩ | ⟨-, hp, hs, hloop⟩ | ⟨-, hnone, -⟩ := exec_fault h
  · obtain ⟨j, -, -, hread, rfl⟩ := countLoop_fault hloop
    exact ⟨.inMem, j, rfl, hread⟩
  · obtain ⟨j, hread, rfl⟩ := encodeLoop_fault hloop
    exact ⟨.inMem, j, rfl, hread⟩
  · obtain ⟨n, hfull⟩ := State.treeInv_full htree hp hs
    have hroot := State.treeFull_root hfull
    obtain ⟨j, hread, rfl⟩ := decodeLoop_fault (State.treeFull_walks hfull) hroot hroot hloop
    exact ⟨.bsMem, j, rfl, hread⟩
  · obtain ⟨t, ht⟩ := codesOf_treeInv htree
    rw [hnone] at ht
    cases ht

/-- Settles O60: a step faults only where the command in flight does. -/
theorem treeNeverSticksTheEngine : Obligations.TreeNeverSticksTheEngine := by
  intro s f htree h
  obtain ⟨w, env, -, hx⟩ := step_fault h
  exact exec_fault_uninitRead (s := { s with env := env }) htree hx

end Sys2Proof.Machine
end
